-- ==== Sys2Proof/Word.lean ====
section
/-!
DEFINITION. The word types of QZSL6-RSD: bytes of its RAMs and of GF(256) (00_scope.md R12), and the 32-bit words of its
registers, of the host bus and of the command format (10_state.md, 20_memory.md R74, 30_encoding.md R100).
-/

namespace Sys2Proof

/-- A byte of BUF, of PAGE_IN or of a stored page; also an element of GF(256) (R12). -/
abbrev Byte := BitVec 8

/-- A 32-bit register, bus or command word (R8, R74, R100). -/
abbrev Word := BitVec 32

end Sys2Proof
end

