-- ==== Sys2Proof/Config.lean ====
section
/-!
DEFINITION. The implementation parameters of 00_scope.md R7. The fixed ones are numbers; the OPEN ones (the generator matrix, the
field polynomial) and every value the spec leaves unspecified (93_implementation_defined.md U1 to U5) are constants WITHOUT A
BODY, so that no proof can see what they are.
-/

namespace Sys2Proof.Config

/-- `NROWS`: rows of the generator matrix (R7). -/
abbrev nRows : Nat := 92

/-- `NCOLS`: columns of the generator matrix (R7). -/
abbrev nCols : Nat := 32

/-- `SLOTS`: the most pages the page store ever holds (R7, R51). -/
abbrev slots : Nat := 32

/-- `PID_MAX`: page ids accepted are 1..92 (R7; 90_conflicts.md C1). -/
abbrev pidMax : Nat := 92

/-- `PAGE_BYTES`: payload bytes of a HAS page (R7, R110). -/
abbrev pageBytes : Nat := 53

/-- Size of PAGE_IN in bytes: `PAGE_BITS` = 448 bits (R7, R42). -/
abbrev pageInBytes : Nat := 56

/-- `HDR_BITS` in bytes: the page header is the first three bytes of PAGE_IN (R7, R73). -/
abbrev headerBytes : Nat := 3

/-- `BUF_BYTES`: size of BUF in bytes (R7, R40). -/
abbrev bufBytes : Nat := 2048

/-- `BUF_BITS`: size of BUF in stream bits (R7, R40). -/
abbrev bufBits : Nat := 16384

/-- `N_MAX`: the widest single read in bits (R7). -/
abbrev nMax : Nat := 64

/-- `DUMMY_MARKER`: the header of a dummy page (R7, R111). -/
abbrev dummyMarker : BitVec 24 := 0xAF3BC3

/-- `MT_SUPPORTED`: the one message type that is stored (R7, R240). -/
abbrev mtSupported : BitVec 2 := 1

/-- ID: "R", "S", "D", version 1 (10_state.md R31). -/
abbrev idWord : Word := 0x52534401

/-- PARAM: `N_MAX`, `PID_MAX` and `BUF_BYTES` in one word (10_state.md R32). -/
abbrev paramWord : Word := BitVec.ofNat 8 nMax ++ BitVec.ofNat 8 pidMax ++ BitVec.ofNat 16 bufBytes

/-- The thirty polynomials of degree 8 over GF(2) that are irreducible: the values `GF_POLY` may take (R232: bit 8 set and
irreducible). The default of R7, `0x11D`, is the second. Log 9. -/
def fieldPolys : List (BitVec 9) :=
  [0x11B, 0x11D, 0x12B, 0x12D, 0x139, 0x13F, 0x14D, 0x15F, 0x163, 0x165] ++
  [0x169, 0x171, 0x177, 0x17B, 0x187, 0x18B, 0x18D, 0x19F, 0x1A3, 0x1A9] ++
  [0x1B1, 0x1BD, 0x1C3, 0x1CF, 0x1D7, 0x1DD, 0x1E7, 0x1F3, 0x1F5, 0x1F9]

/-- Which of `fieldPolys` the hardware has: OPEN (R7, R232; U16), so without a body. Log 9. -/
opaque gfPolyIndex : Fin 30

/-- `GF_POLY`, the field polynomial (R7, R232): one of the irreducible polynomials of degree 8, not known which. Log 9. -/
def gfPoly : BitVec 9 := fieldPolys.getD gfPolyIndex.val 0x11D

/-- The polynomial R7 and R232 give as the default; the spec's vectors under `GF_POLY = 0x11D` are tested with it. -/
abbrev gfPolyDefault : BitVec 9 := 0x11D

/-- `HAS_GEN_MATRIX`, the generator matrix `G` (R7, R49): OPEN (U15; R250 "a model must not assume any row of G"), so without a
body. Log 10. -/
opaque genMatrix : Fin 92 → Fin 32 → Byte

/-- `HOST_AW` as a size: the host window has `2^13` byte addresses (R7, R70). -/
abbrev windowBytes : Nat := 8192

/-- `BASE`, the address at which the platform places the host window: OPEN (60_exceptions.md R291; 92_eei_decisions.md D40; U17), so
without a body. Log 11. -/
opaque base : Nat

/-- A byte the spec leaves unspecified (U1 to U4): `freeByte d k` is byte `k` of the `d`-th draw. Logs 3, 4, 5. -/
opaque freeByte : Nat → Nat → Byte

/-- How many host accesses see BUSY = 1 after the CMD write of draw `d`: "any finite number, including zero" (R320, R321; U5).
Log 2. -/
opaque busyAccesses : Nat → Nat

/-- Whether the HAS_PAGE that a soft reset of draw `d` abandons "had begun writing the recovered message" (R312; U3). Log 4. -/
opaque recoveryBegun : Nat → Bool

end Sys2Proof.Config
end

