-- ==== Sys2Proof/Syntax.lean ====
section
/-!
DEFINITION. The commands of QZSL6-RSD: one constructor per row of spec/opcode_table.json (30_encoding.md R104). An operand is
held as the encoding holds it: the width `N` in 8 bits (R101), the immediate `IMM` in 16 bits (R102). Which values are legal
is WellFormed.lean.
-/

namespace Sys2Proof

/-- A command of the opcode map (R104). -/
inductive Instr where
  /-- `NOP`, OPC 0x00 (R141). -/
  | nop
  /-- `BC_RESET`, OPC 0x01 (R140). -/
  | bcReset
  /-- `BC_RDU n`, OPC 0x02: read an unsigned field of `n` bits (R131). -/
  | bcRdu (n : BitVec 8)
  /-- `BC_RDI n`, OPC 0x03: read a signed field of `n` bits (R132). -/
  | bcRdi (n : BitVec 8)
  /-- `BC_REM`, OPC 0x04: the bits left (R133). -/
  | bcRem
  /-- `BC_POS`, OPC 0x05: the cursor position (R134). -/
  | bcPos
  /-- `BC_SUBR a, n`, OPC 0x06: read `n` bits at `a`, the cursor staying (R135). -/
  | bcSubr (a : BitVec 16) (n : BitVec 8)
  /-- `BC_SEEK p`, OPC 0x07: set the cursor (R136). -/
  | bcSeek (p : BitVec 16)
  /-- `BC_MARK`, OPC 0x08: save the cursor (R137). -/
  | bcMark
  /-- `BC_REWIND`, OPC 0x09: return to the saved cursor (R138). -/
  | bcRewind
  /-- `BC_REQ m`, OPC 0x0A: check that `m` bits are left (R139). -/
  | bcReq (m : BitVec 16)
  /-- `FD_RDS n`, OPC 0x10: read a signed field whose sentinel is its min code (R171). -/
  | fdRds (n : BitVec 8)
  /-- `FD_RDSX n, s`, OPC 0x11: read a signed field whose sentinel is `s` (R172). -/
  | fdRdsx (n : BitVec 8) (sentinel : BitVec 16)
  /-- `FD_RDPC n`, OPC 0x12: read a mask and count its set bits (R173). -/
  | fdRdpc (n : BitVec 8)
  /-- `HAS_PAGE`, OPC 0x20: receive the page in PAGE_IN (R238). -/
  | hasPage
  /-- `HAS_CLEAR`, OPC 0x21: empty the page store (R246). -/
  | hasClear
  deriving DecidableEq, Repr

end Sys2Proof
end

