-- ==== Sys2Proof/WellFormed.lean ====
section
/-!
DEFINITION. The legal operand ranges of 30_encoding.md R104, column `N`. The immediates have no illegal value; the fields that R104
marks `0` are no operands of the term (the decoder checks them).
-/

namespace Sys2Proof

/-- The width operand `n` lies in `lo .. N_MAX` (R104). -/
def widthInRange (lo : Nat) (n : BitVec 8) : Bool :=
  decide (lo ≤ n.toNat) && decide (n.toNat ≤ Config.nMax)

/-- Every operand lies in the range R104 gives its opcode. -/
def Instr.wellFormed : Instr → Bool
  | .nop => true
  | .bcReset => true
  | .bcRdu n => widthInRange 0 n
  | .bcRdi n => widthInRange 0 n
  | .bcRem => true
  | .bcPos => true
  | .bcSubr _ n => widthInRange 0 n
  | .bcSeek _ => true
  | .bcMark => true
  | .bcRewind => true
  | .bcReq _ => true
  | .fdRds n => widthInRange 1 n
  | .fdRdsx n _ => widthInRange 1 n
  | .fdRdpc n => widthInRange 0 n
  | .hasPage => true
  | .hasClear => true

end Sys2Proof
end

