-- ==== Sys2Proof/Decode.lean ====
section
/-!
DEFINITION. The command word (30_encoding.md R100 to R106): its three fields, the decoder, total on all 2^32 words, and the
encoder.
-/

namespace Sys2Proof

/-- Why a word is illegal (R105). Every reason raises the same ILLEGAL_COMMAND. -/
inductive Illegal where
  /-- OPC is not in the opcode map. -/
  | opcode
  /-- A field that R104 marks `0` is not zero (R103). -/
  | reserved
  /-- `N` lies outside the range R104 gives the opcode. -/
  | width
  deriving DecidableEq, Repr

/-- What the decoder answers (R106): one of the sixteen commands, or ILLEGAL. -/
inductive Decoded where
  | command (i : Instr)
  | illegal (why : Illegal)
  deriving DecidableEq, Repr

/-- `OPC = word[31:24]` (R100). -/
def opcField (w : Word) : BitVec 8 := w.extractLsb' 24 8

/-- `N = word[23:16]` (R101). -/
def nField (w : Word) : BitVec 8 := w.extractLsb' 16 8

/-- `IMM = word[15:0]` (R102). -/
def immField (w : Word) : BitVec 16 := w.extractLsb' 0 16

/-- A command without operands: `N` and `IMM` must be zero (R103). -/
def decodePlain (i : Instr) (n : BitVec 8) (imm : BitVec 16) : Decoded :=
  if n = 0 ∧ imm = 0 then .command i else .illegal .reserved

/-- A command whose operand is a width of at least `lo`: `IMM` must be zero, then `N` in range (R106). -/
def decodeWidth (mk : BitVec 8 → Instr) (lo : Nat) (n : BitVec 8) (imm : BitVec 16) : Decoded :=
  if imm ≠ 0 then .illegal .reserved
  else if widthInRange lo n then .command (mk n) else .illegal .width

/-- A command with a width of at least `lo` and an immediate: `N` in range (R106). -/
def decodeWidthImm (mk : BitVec 8 → BitVec 16 → Instr) (lo : Nat) (n : BitVec 8) (imm : BitVec 16) : Decoded :=
  if widthInRange lo n then .command (mk n imm) else .illegal .width

/-- A command whose operand is the immediate: `N` must be zero (R103). -/
def decodeImm (mk : BitVec 16 → Instr) (n : BitVec 8) (imm : BitVec 16) : Decoded :=
  if n = 0 then .command (mk imm) else .illegal .reserved

/-- The decoder (R106): look OPC up in the opcode map R104, then check the zero fields, then the range of `N`. -/
def decode (w : Word) : Decoded :=
  match (opcField w).toNat with
  | 0x00 => decodePlain .nop (nField w) (immField w)
  | 0x01 => decodePlain .bcReset (nField w) (immField w)
  | 0x02 => decodeWidth .bcRdu 0 (nField w) (immField w)
  | 0x03 => decodeWidth .bcRdi 0 (nField w) (immField w)
  | 0x04 => decodePlain .bcRem (nField w) (immField w)
  | 0x05 => decodePlain .bcPos (nField w) (immField w)
  | 0x06 => decodeWidthImm (fun n a => .bcSubr a n) 0 (nField w) (immField w)
  | 0x07 => decodeImm .bcSeek (nField w) (immField w)
  | 0x08 => decodePlain .bcMark (nField w) (immField w)
  | 0x09 => decodePlain .bcRewind (nField w) (immField w)
  | 0x0A => decodeImm .bcReq (nField w) (immField w)
  | 0x10 => decodeWidth .fdRds 1 (nField w) (immField w)
  | 0x11 => decodeWidthImm .fdRdsx 1 (nField w) (immField w)
  | 0x12 => decodeWidth .fdRdpc 0 (nField w) (immField w)
  | 0x20 => decodePlain .hasPage (nField w) (immField w)
  | 0x21 => decodePlain .hasClear (nField w) (immField w)
  | _ => .illegal .opcode

/-- The word of `nbits` bits that the host's opcode-table check places: the bits above `nbits` are zero. A command is one 32-bit
word, so no byte order enters. -/
def tableWord (nbits w : Nat) : Word := BitVec.ofNat 32 (w % 2 ^ nbits)

/-- The command the decoder reads from the instruction whose bits are `w`. -/
def decodeTableWord (nbits w : Nat) : Option Instr :=
  match decode (tableWord nbits w) with
  | .command i => some i
  | .illegal _ => none

/-- The OPC value of a command (R104); it is what STATUS.LASTOP records (R280). -/
def Instr.opcode : Instr → BitVec 8
  | .nop => 0x00
  | .bcReset => 0x01
  | .bcRdu _ => 0x02
  | .bcRdi _ => 0x03
  | .bcRem => 0x04
  | .bcPos => 0x05
  | .bcSubr _ _ => 0x06
  | .bcSeek _ => 0x07
  | .bcMark => 0x08
  | .bcRewind => 0x09
  | .bcReq _ => 0x0A
  | .fdRds _ => 0x10
  | .fdRdsx _ _ => 0x11
  | .fdRdpc _ => 0x12
  | .hasPage => 0x20
  | .hasClear => 0x21

/-- The `N` field of a command's word; zero where R104 marks it `0`. -/
def Instr.nOperand : Instr → BitVec 8
  | .nop => 0
  | .bcReset => 0
  | .bcRdu n => n
  | .bcRdi n => n
  | .bcRem => 0
  | .bcPos => 0
  | .bcSubr _ n => n
  | .bcSeek _ => 0
  | .bcMark => 0
  | .bcRewind => 0
  | .bcReq _ => 0
  | .fdRds n => n
  | .fdRdsx n _ => n
  | .fdRdpc n => n
  | .hasPage => 0
  | .hasClear => 0

/-- The `IMM` field of a command's word; zero where R104 marks it `0`. -/
def Instr.immOperand : Instr → BitVec 16
  | .nop => 0
  | .bcReset => 0
  | .bcRdu _ => 0
  | .bcRdi _ => 0
  | .bcRem => 0
  | .bcPos => 0
  | .bcSubr a _ => a
  | .bcSeek p => p
  | .bcMark => 0
  | .bcRewind => 0
  | .bcReq m => m
  | .fdRds _ => 0
  | .fdRdsx _ s => s
  | .fdRdpc _ => 0
  | .hasPage => 0
  | .hasClear => 0

/-- The encoder: `OPC << 24 | N << 16 | IMM` (R100, R108). -/
def encode (i : Instr) : Word := i.opcode ++ i.nOperand ++ i.immOperand

end Sys2Proof
end

