-- ==== Sys2Proof/Machine/State.lean ====
section
/-!
DEFINITION. The state of one QZSL6-RSD instance (10_state.md R30) as plain data, the types of the host's accesses, why a step can
stop, and the state after power-on reset (R53, R311). INVENTORY.md lists every piece with its rule.
-/

namespace Sys2Proof.Machine

/-- The status codes (60_exceptions.md R280). Codes 6 to 15 are "never produced" (U8). -/
inductive Code where
  | ok
  | insufficientData
  | illegalCommand
  | malformedHeader
  | matrixNotInvertible
  | unsupportedMsgType
  deriving DecidableEq, Repr

/-- A byte RAM (BUF, PAGE_IN): the bytes written since the last power-on, by rising offset. An offset that is not listed holds the
unspecified byte it powered up with (R53; U1, U2), which is byte `offset` of free draw `draw`. Log 3. -/
structure Memory where
  cells : List Host.Cell
  draw : Nat
  deriving DecidableEq, Repr

/-- The command in flight (R50): the word written to CMD, and how many more host accesses see BUSY = 1 before it completes (the
model's count, log 2). -/
structure InFlight where
  word : Word
  wait : Nat
  deriving DecidableEq, Repr

/-- A host-bus access as the host makes it, at an address of the platform (00_scope.md R11: `MemRead(addr, n)` and
`MemWrite(addr, n, v)`). Log 11. -/
inductive HostAccess where
  /-- `MemRead(address, size)`. -/
  | memRead (address size : Nat)
  /-- `MemWrite(address, size, value)`. -/
  | memWrite (address size : Nat) (value : Word)
  deriving DecidableEq, Repr

/-- What arrives from outside (R75, R76, R310): a host access of `size` bytes at a 13-bit byte offset of the host window, or the
power-on reset pin. -/
inductive Input where
  /-- A host read (R75). -/
  | read (offset : BitVec 13) (size : Nat)
  /-- A host write of the `size` low bytes of `value` (R76). -/
  | write (offset : BitVec 13) (size : Nat) (value : Word)
  /-- `rst_n` is asserted (R310, R311). -/
  | powerOn
  deriving DecidableEq, Repr

/-- The bus response to a host access: the bytes a read returns, lane 0 first (R74), none for a write, and the error response of a
rejected access (R78). -/
structure Response where
  data : List Byte
  error : Bool
  deriving DecidableEq, Repr

/-- The registers of the host window (20_memory.md R71). -/
inductive Reg where
  | id
  | status
  | ctrl
  | cmd
  | resultLo
  | resultHi
  | fdx
  | pos
  | len
  | mark
  | psStatus
  | param
  deriving DecidableEq, Repr

/-- What an admitted access reaches (R71, R77): a register, or bytes of a RAM from an offset in it. -/
inductive Target where
  | reg (r : Reg)
  | pageIn (offset : Nat)
  | buf (offset : Nat)
  deriving DecidableEq, Repr

/-- What the block does in one step (log 1): complete the command in flight, serve the next input, or stay idle. -/
inductive Action where
  | complete (word : Word)
  | serve (input : Input)
  | idle
  deriving DecidableEq, Repr

/-- The state. `code` to `lastMs` are the spec's (R30); `inputs`, `response` and `draws` are the model's own (logs 1, 8, 6). -/
structure State where
  /-- STATUS.CODE (R33). -/
  code : Code
  /-- STATUS.LASTOP (R33). -/
  lastop : BitVec 8
  /-- STATUS.ERR, sticky (R33, R282). -/
  err : Bool
  /-- STATUS.HAZ, sticky (R33, R79). -/
  haz : Bool
  /-- STATUS.REJ, sticky (R33, R78). -/
  rej : Bool
  /-- The command in flight; STATUS.BUSY is its presence (R33, R50). -/
  inflight : Option InFlight
  /-- RESULT (R39). -/
  result : BitVec 64
  /-- FDX.UNAV (R41). -/
  unav : Bool
  /-- FDX.POPC (R41). -/
  popc : BitVec 7
  /-- POS[15:0] (R36). -/
  pos : BitVec 16
  /-- LEN[15:0] (R37). -/
  len : BitVec 16
  /-- MARK[15:0] (R38). -/
  mark : BitVec 16
  /-- BUF (R40). -/
  buf : Memory
  /-- PAGE_IN (R42). -/
  pageIn : Memory
  /-- Store: page id to payload bytes, by rising page id (R43). COUNT is its length (R44). -/
  store : List (Nat × List Byte)
  /-- STORE_EN (R45). -/
  storeEn : Bool
  /-- LAST_MID (R46). -/
  lastMid : BitVec 5
  /-- MID_VALID (R46). -/
  midValid : Bool
  /-- LAST_MS (R47). -/
  lastMs : BitVec 6
  /-- The accesses the host is about to make, in program order, and power-on resets among them (R82). Log 1. -/
  inputs : List Input
  /-- The response to the last host access served. Log 8. -/
  response : Option Response
  /-- How many free values have been drawn. Log 6. -/
  draws : Nat
  deriving DecidableEq, Repr

/-- Why the machine could stop with a fault: for no reason. No error stops the block; each is a status code or a flag of the next
state (R286, R288 "no condition stops the block"). -/
inductive Fault where
  deriving DecidableEq, Repr

/-- Why a step could be refused. -/
inductive Refusal where
  /-- Raised by an arm of exec whose command has no meaning yet; safe. No arm raises it. -/
  | notModelled (mnemonic : String)
  deriving DecidableEq, Repr

/-- The state after power-on reset (R53, R311). BUF and PAGE_IN list nothing: every byte is the unspecified one it powers up with.
The model's own fields: nothing is pending, nothing has been answered, and draws 0 and 1 are taken by the two RAMs (logs 1, 6,
8; DESIGN CHOICE, unsafe: no statement rests on these counter values). -/
def State.reset : State where
  code := .ok
  lastop := 0
  err := false
  haz := false
  rej := false
  inflight := none
  result := 0
  unav := false
  popc := 0
  pos := 0
  len := 0
  mark := 0
  buf := { cells := [], draw := 0 }
  pageIn := { cells := [], draw := 1 }
  store := []
  storeEn := true
  lastMid := 0
  midValid := false
  lastMs := 0
  inputs := []
  response := none
  draws := 2

end Sys2Proof.Machine
end

