-- ==== Sys2Proof/Machine/Ops.lean ====
section
/-!
DEFINITION. The shared operations: maps in canonical form, the byte RAMs, the stream-bit view of BUF, the end of a command
(`finish`, `raise`: the analogue of taking an exception, 60_exceptions.md R286), responses of the bus and free draws.
-/

namespace Sys2Proof.Machine

/-! ### Maps from numbers to data, as lists by rising key -/

/-- The entry of key `k`. -/
def mapGet {β : Type} (k : Nat) : List (Nat × β) → Option β
  | [] => none
  | (x, v) :: t => if k = x then some v else mapGet k t

/-- The map with `v` under key `k`, replacing what `k` had; the keys stay rising. -/
def mapPut {β : Type} (k : Nat) (v : β) : List (Nat × β) → List (Nat × β)
  | [] => [(k, v)]
  | (x, w) :: t => if k < x then (k, v) :: (x, w) :: t else if k = x then (k, v) :: t else (x, w) :: mapPut k v t

/-- The canonical form: the keys rise strictly, from `lo` on and below `hi`. -/
def mapWf {β : Type} (hi : Nat) : Nat → List (Nat × β) → Bool
  | _, [] => true
  | lo, (x, _) :: t => decide (lo ≤ x) && decide (x < hi) && mapWf hi (x + 1) t

/-! ### Byte RAMs -/

/-- The byte at an offset: the one written, or the unspecified one the RAM powered up with (R40, R42, R53). Log 3. -/
def Memory.read (m : Memory) (a : Nat) : Byte := (mapGet a m.cells).getD (Config.freeByte m.draw a)

/-- The RAM with byte `b` at offset `a`. -/
def Memory.write (m : Memory) (a : Nat) (b : Byte) : Memory := { m with cells := mapPut a b m.cells }

/-- The `n` bytes from offset `a` on. -/
def Memory.readBytes (m : Memory) (a : Nat) : Nat → List Byte
  | 0 => []
  | n + 1 => m.read a :: m.readBytes (a + 1) n

/-- The RAM with `bs` stored from offset `a` on. -/
def Memory.writeBytes (m : Memory) (a : Nat) : List Byte → Memory
  | [] => m
  | b :: bs => (m.writeBytes (a + 1) bs).write a b

/-- The canonical form of a RAM of `size` bytes: offsets strictly rising and inside the RAM. An offset is listed exactly when it has
been written since power-on; an unlisted one has no value of its own, so no entry can repeat it. -/
def Memory.wf (size : Nat) (m : Memory) : Bool := mapWf size 0 m.cells

/-- A RAM whose every byte is unspecified (R53; U1 to U3): nothing listed, read from a fresh draw. -/
def Memory.unspecified (draw : Nat) : Memory := { cells := [], draw := draw }

/-- The `n` low bytes of a word, lane 0 first (R74). -/
def leBytes (n : Nat) (v : Word) : List Byte := (List.range n).map fun i => v.extractLsb' (8 * i) 8

/-! ### The stream-bit view of BUF -/

/-- `BufBit(k)`: stream bit `k` is bit `7 - (k mod 8)` of byte `k div 8` (R9, R72). -/
def bufBit (m : Memory) (k : Nat) : Bool := (m.read (k / 8)).getLsbD (7 - k % 8)

/-- `StreamBits(a, n)`: the `n` stream bits from `a` on as an unsigned integer, the first one most significant (R9). -/
def streamBits (m : Memory) (a : Nat) : Nat → Nat
  | 0 => 0
  | n + 1 => 2 * streamBits m a n + (bufBit m (a + n)).toNat

/-! ### The cursor and the page store -/

/-- `REM = LEN - POS` (R130). Every reachable state has POS ≤ LEN (R51); log 15. -/
def State.remaining (s : State) : Nat := s.len.toNat - s.pos.toNat

/-- The cursor `n` bits further on: `POS <- POS + N` (R131). -/
def State.advance (s : State) (n : Nat) : State := { s with pos := BitVec.ofNat 16 (s.pos.toNat + n) }

/-- COUNT: the number of distinct stored page ids (R44). -/
def State.count (s : State) : Nat := s.store.length

/-- STATUS.BUSY (R33, R50). -/
def State.busy (s : State) : Bool := s.inflight.isSome

/-! ### The end of a command -/

/-- `finish(code)` (R11, R280, R282): the command ends, its code and OPC are recorded, ERR is set by an error and never cleared, and
nothing is in flight any more. -/
def finish (opc : BitVec 8) (c : Code) (s : State) : State :=
  { s with code := c, lastop := opc, err := s.err || decide (c ≠ .ok), inflight := none }

/-- `raise <Code>`: `finish(<Code>)` on the state the command started from (R11, R281). It is this block's analogue of taking an
exception; there is no handler, nothing is saved, and nothing is to be returned from (R286, R287). -/
def raise (opc : BitVec 8) (c : Code) (s : State) : State := finish opc c s

/-- The end of an illegal word (R105): only STATUS changes, LASTOP being the word's OPC. -/
def raiseIllegal (w : Word) (s : State) : State := raise (opcField w) .illegalCommand s

/-! ### The bus -/

/-- The access completes with these bytes and no error response. -/
def respond (data : List Byte) (s : State) : State := { s with response := some { data := data, error := false } }

/-- A rejected access of R78: an error response, and REJ set. -/
def reject (data : List Byte) (s : State) : State :=
  { s with rej := true, response := some { data := data, error := true } }

/-- One more free value has been drawn (log 6). -/
def drawn (s : State) : State := { s with draws := s.draws + 1 }

/-- `n` unspecified bytes of the draw that is due (U4). -/
def freeBytes (s : State) (n : Nat) : List Byte := (List.range n).map fun k => Config.freeByte s.draws k

end Sys2Proof.Machine
end

