-- ==== Sys2Proof/Machine/Operands.lean ====
section
/-!
DEFINITION. The readings of a command's operands and of the fields it extracts (00_scope.md R10; 30_encoding.md R101, R102).
-/

namespace Sys2Proof.Machine

/-- Operand `N` as a width: unsigned, neither scaled nor extended (R101). -/
def width (n : BitVec 8) : Nat := n.toNat

/-- `zext_16(IMM)`: the immediate as a stream position or a bit count (R102). -/
def immUnsigned (imm : BitVec 16) : Nat := imm.toNat

/-- `sext_64(IMM)`: the immediate as a signed sentinel (R102). -/
def immSigned (imm : BitVec 16) : BitVec 64 := imm.signExtend 64

/-- `zext_64(v)` of an extracted field (R10, R131). -/
def zext64 (v : Nat) : BitVec 64 := BitVec.ofNat 64 v

/-- `signed_n(v)`: `v - 2^n` if `v ≥ 2^(n-1)`, else `v`; `signed_0(v) = 0` (R10). -/
def signedField (n v : Nat) : Int :=
  if n = 0 then 0 else if 2 ^ (n - 1) ≤ v then (v : Int) - 2 ^ n else v

/-- `sext_64(signed_n(v))`: the 64-bit two's-complement pattern of a signed field (R10, R132). -/
def sext64 (n v : Nat) : BitVec 64 := BitVec.ofInt 64 (signedField n v)

end Sys2Proof.Machine
end

