-- ==== Sys2Proof/Machine/Flags.lean ====
section
/-!
DEFINITION. The flags: how a code reads in STATUS (60_exceptions.md R280), FDX.UNAV and FDX.POPC (10_state.md R41; 41_field_decode.md
R171 to R173), the sticky bits a host write of STATUS clears (R33), and the words of STATUS, FDX and PS_STATUS.
ERR is set in `finish`, REJ in `reject` (Machine/Ops.lean), HAZ in Machine/Bus.lean.
-/

namespace Sys2Proof.Machine

/-- The number of a status code (R280). -/
def Code.bits : Code → BitVec 4
  | .ok => 0
  | .insufficientData => 1
  | .illegalCommand => 2
  | .malformedHeader => 3
  | .matrixNotInvertible => 4
  | .unsupportedMsgType => 5

/-- FDX.UNAV of FD_RDS: the raw code is the min code `1 0…0` (R171). -/
def isMinCode (n v : Nat) : Bool := decide (v = 2 ^ (n - 1))

/-- FDX.UNAV of FD_RDSX: the signed field equals the sentinel, both as 64-bit patterns (R172). -/
def isSentinel (n v : Nat) (sentinel : BitVec 16) : Bool := decide (sext64 n v = immSigned sentinel)

/-- The number of 1 bits among the `n` low bits of `v` (R173). -/
def popcount (v : Nat) : Nat → Nat
  | 0 => 0
  | n + 1 => popcount v n + (v.testBit n).toNat

/-- `FDX <- 0; FDX.UNAV <- u` (R171, R172). -/
def State.setUnav (s : State) (u : Bool) : State := { s with unav := u, popc := 0 }

/-- `FDX <- 0; FDX.POPC <- c` (R173). -/
def State.setPopc (s : State) (c : Nat) : State := { s with unav := false, popc := BitVec.ofNat 7 c }

/-- A host write of STATUS: each of ERR, HAZ, REJ whose written bit is 1 is cleared (R33, R76). -/
def clearSticky (v : Word) (s : State) : State :=
  { s with err := s.err && !v.getLsbD 16, haz := s.haz && !v.getLsbD 17, rej := s.rej && !v.getLsbD 18 }

/-- STATUS as the host reads it (R33). -/
def statusWord (s : State) : Word :=
  0#13 ++ BitVec.ofBool s.rej ++ BitVec.ofBool s.haz ++ BitVec.ofBool s.err ++ s.lastop ++ s.code.bits ++ 0#3 ++
    BitVec.ofBool s.busy

/-- FDX as the host reads it (R41). -/
def fdxWord (s : State) : Word := 0#17 ++ s.popc ++ 0#7 ++ BitVec.ofBool s.unav

/-- PS_STATUS as the host reads it (R48). -/
def psStatusWord (s : State) : Word :=
  0#10 ++ s.lastMs ++ 0#3 ++ s.lastMid ++ BitVec.ofBool s.midValid ++ BitVec.ofBool s.storeEn ++ BitVec.ofNat 6 s.count

end Sys2Proof.Machine
end

