-- ==== Sys2Proof/Machine/Matrix.lean ====
section
/-!
DEFINITION. Matrices over GF(256) as lists of rows (43_has_rs.md R235, R236) and Gauss–Jordan elimination on the augmented matrix
(R237).
-/

namespace Sys2Proof.Machine

/-- A matrix: its rows, each a list of elements (R235). -/
abbrev Matrix := List (List Byte)

/-- `M[i][j]` (R12, R235); 0 outside the matrix, which no rule reads. -/
def entry (m : Matrix) (i j : Nat) : Byte := (m.getD i []).getD j 0

/-- `⊕_{j<m} f j` (R235). -/
def gfSum (f : Nat → Byte) : Nat → Byte
  | 0 => 0
  | m + 1 => gfAdd (gfSum f m) (f m)

/-- The product of an `r × m` and an `m × c` matrix (R235). -/
def matMul (poly : BitVec 9) (r m c : Nat) (a b : Matrix) : Matrix :=
  (List.range r).map fun i => (List.range c).map fun k => gfSum (fun j => gfMul poly (entry a i j) (entry b j k)) m

/-- `I_n` (R235). -/
def identity (n : Nat) : Matrix :=
  (List.range n).map fun i => (List.range n).map fun j => if i = j then 1 else 0

/-- `r` rows of `c` elements each. -/
def hasShape (r c : Nat) (m : Matrix) : Bool := decide (m.length = r) && m.all fun row => decide (row.length = c)

/-- `f ⊗ row` (R237). -/
def scaleRow (poly : BitVec 9) (f : Byte) (row : List Byte) : List Byte := row.map (gfMul poly f)

/-- `row ⊕ row'`, element by element (R237). -/
def addRows (row row' : List Byte) : List Byte := List.zipWith gfAdd row row'

/-- The first of these rows whose element in column `c` is not zero, and the other rows in their order; none if there is no such
row (R237). Moving the pivot row to the front, where R237 swaps, only orders the rows still to come differently (log 12). -/
def takePivot (c : Nat) : Matrix → Option (List Byte × Matrix)
  | [] => none
  | row :: rows =>
    if row.getD c 0 ≠ 0 then some (row, rows)
    else match takePivot c rows with
      | none => none
      | some (p, rest) => some (p, row :: rest)

/-- `row ⊕ g ⊗ pivot` with `g` the row's element in column `c`: that element becomes 0 (R237). -/
def clearWith (poly : BitVec 9) (c : Nat) (pivot row : List Byte) : List Byte :=
  addRows row (scaleRow poly (row.getD c 0) pivot)

/-- One round of R237 at column `c`: the pivot row, scaled to a 1 there, becomes row `c`, and every other row is cleared there. -/
def eliminateColumn (poly : BitVec 9) (c : Nat) (m : Matrix) : Option Matrix :=
  match takePivot c (m.drop c) with
  | none => none
  | some (p, rest) =>
    let pivot := scaleRow poly (gfInv poly (p.getD c 0)) p
    some ((m.take c).map (clearWith poly c pivot) ++ pivot :: rest.map (clearWith poly c pivot))

/-- `k` rounds, from column `c` on (R237). -/
def eliminateFrom (poly : BitVec 9) : Nat → Nat → Matrix → Option Matrix
  | 0, _, m => some m
  | k + 1, c, m =>
    match eliminateColumn poly c m with
    | none => none
    | some m' => eliminateFrom poly k (c + 1) m'

/-- `solve(A, C)` of R237 for an `n × n` matrix `A`: `A⁻¹ · C`, or none when `A` is not invertible. -/
def solve (poly : BitVec 9) (n : Nat) (a c : Matrix) : Option Matrix :=
  match eliminateFrom poly n 0 (List.zipWith (· ++ ·) a c) with
  | none => none
  | some m => some (m.map (List.drop n))

end Sys2Proof.Machine
end

