-- ==== Sys2Proof/Machine/Has.lean ====
section
/-!
DEFINITION. The HAS family (43_has_rs.md R238 to R246): the page in PAGE_IN (30_encoding.md R110 to R112), the page store, and the
recovery of a message. What depends on the OPEN parameters takes the field polynomial and the generator matrix, so that the
vectors of 95_test_vectors.md §2.5 can be run with the test matrix.
-/

namespace Sys2Proof.Machine

/-! ### The page in PAGE_IN -/

/-- `HDR`: bytes 0 to 2 of PAGE_IN, byte 0 in bits 23:16 (R73). -/
def pageHeader (s : State) : BitVec 24 := s.pageIn.read 0 ++ s.pageIn.read 1 ++ s.pageIn.read 2

/-- MT, header bits 19:18 (R111). -/
def headerMt (h : BitVec 24) : BitVec 2 := h.extractLsb' 18 2

/-- MID, header bits 17:13 (R111). -/
def headerMid (h : BitVec 24) : BitVec 5 := h.extractLsb' 13 5

/-- `ms = MS + 1`, MS being header bits 12:8 (R111). -/
def headerMs (h : BitVec 24) : Nat := (h.extractLsb' 8 5).toNat + 1

/-- PID, header bits 7:0 (R111). -/
def headerPid (h : BitVec 24) : Nat := (h.extractLsb' 0 8).toNat

/-- The 53 payload bytes, `PAGE_IN[3 + k]` (R112). -/
def pagePayload (s : State) : List Byte := s.pageIn.readBytes Config.headerBytes Config.pageBytes

/-! ### Outcomes in RESULT (R238) -/

/-- STORED. -/
abbrev outcomeStored : BitVec 64 := 0

/-- RECOVERED. -/
abbrev outcomeRecovered : BitVec 64 := 1

/-- IGNORED. -/
abbrev outcomeIgnored : BitVec 64 := 2

/-- DUMMY. -/
abbrev outcomeDummy : BitVec 64 := 3

/-- HAS_PAGE ends with CODE = OK and this outcome. -/
def endPage (outcome : BitVec 64) (s : State) : State := finish Instr.hasPage.opcode .ok { s with result := outcome }

/-! ### The page store -/

/-- A valid page's message id is another than the last valid page's, or there was none (R241). -/
def isMessageChange (mid : BitVec 5) (s : State) : Bool := !s.midValid || decide (mid ≠ s.lastMid)

/-- The bookkeeping of a valid page (R241): a message-id change empties the store and enables storing; LAST_MID and MID_VALID are
set in any case. -/
def noteMessage (mid : BitVec 5) (s : State) : State :=
  if isMessageChange mid s then
    { s with store := [], storeEn := true, lastMs := 0, lastMid := mid, midValid := true }
  else { s with lastMid := mid, midValid := true }

/-- Storing (R242): the payload under its page id, replacing what stood there; LAST_MS is the page's `ms`. -/
def storePage (pid ms : Nat) (s : State) : State :=
  { s with store := mapPut pid (pagePayload s) s.store, lastMs := BitVec.ofNat 6 ms }

/-! ### Recovery (R243 to R245) -/

/-- The pages selected: those of the `ms` least page ids (R243). -/
def selectedPages (ms : Nat) (s : State) : List (Nat × List Byte) := s.store.take ms

/-- Row `p - 1` of the generator matrix restricted to its first `ms` columns (R243). -/
def generatorRow (gen : Fin 92 → Fin 32 → Byte) (ms pid : Nat) : List Byte :=
  (List.range ms).map fun j => gen ⟨(pid - 1) % 92, Nat.mod_lt _ (by decide)⟩ ⟨j % 32, Nat.mod_lt _ (by decide)⟩

/-- The message the selected pages give, `A⁻¹ · C`, or none when `A` is not invertible (R243). -/
def recoveredMessage (poly : BitVec 9) (gen : Fin 92 → Fin 32 → Byte) (ms : Nat) (pages : List (Nat × List Byte)) :
    Option Matrix :=
  solve poly ms (pages.map fun p => generatorRow gen ms p.1) (pages.map fun p => p.2)

/-- A successful recovery (R244): the rows of the message concatenated into BUF from byte 0, the cursor at its start. The store keeps
its pages; storing is disabled. -/
def outputMessage (ms : Nat) (message : Matrix) (s : State) : State :=
  endPage outcomeRecovered
    { s with
      storeEn := false
      buf := s.buf.writeBytes 0 message.flatten
      len := BitVec.ofNat 16 (424 * ms)
      pos := 0
      mark := 0 }

/-- A failed recovery (R245): the store is discarded and storing stays disabled; RESULT, BUF and the cursor are unchanged. -/
def failRecovery (s : State) : State :=
  finish Instr.hasPage.opcode .matrixNotInvertible { s with storeEn := false, store := [], lastMs := 0 }

/-- The recovery attempt (R243). -/
def attemptRecovery (poly : BitVec 9) (gen : Fin 92 → Fin 32 → Byte) (ms : Nat) (s : State) : State :=
  match recoveredMessage poly gen ms (selectedPages ms s) with
  | none => failRecovery s
  | some message => outputMessage ms message s

/-- A valid page whose message is noted (R242, R243): ignored while storing is disabled, else stored, and the recovery attempted once
COUNT reaches `ms`. -/
def acceptPage (poly : BitVec 9) (gen : Fin 92 → Fin 32 → Byte) (pid ms : Nat) (s : State) : State :=
  if s.storeEn = false then endPage outcomeIgnored s
  else if (storePage pid ms s).count < ms then endPage outcomeStored (storePage pid ms s)
  else attemptRecovery poly gen ms (storePage pid ms s)

/-- HAS_PAGE (R238) in the order of R283: dummy, page id, message type, message-id change, storing, recovery. -/
def hasPageWith (poly : BitVec 9) (gen : Fin 92 → Fin 32 → Byte) (s : State) : State :=
  let h := pageHeader s
  if h = Config.dummyMarker then endPage outcomeDummy s
  else if headerPid h = 0 ∨ Config.pidMax < headerPid h then raise Instr.hasPage.opcode .malformedHeader s
  else if headerMt h ≠ Config.mtSupported then raise Instr.hasPage.opcode .unsupportedMsgType s
  else acceptPage poly gen (headerPid h) (headerMs h) (noteMessage (headerMid h) s)

/-- HAS_PAGE (R238) with the hardware's field polynomial and generator matrix. -/
def execHasPage (s : State) : Host.Outcome State Fault Refusal :=
  .next (hasPageWith Config.gfPoly Config.genMatrix s)

/-- HAS_CLEAR (R246): the page store as after reset. -/
def execHasClear (s : State) : Host.Outcome State Fault Refusal :=
  .next (finish Instr.hasClear.opcode .ok
    { s with store := [], storeEn := true, midValid := false, lastMid := 0, lastMs := 0 })

end Sys2Proof.Machine
end

