-- ==== Sys2Proof/Machine/Bus.lean ====
section
/-!
DEFINITION. The host bus (20_memory.md R70 to R81): the window map, which accesses are admitted, refused or dropped, reads and writes
of the registers and RAMs; and the resets (70_reset_and_hazards.md R310 to R312).
-/

namespace Sys2Proof.Machine

/-! ### Where the window lies (R70, R291) -/

/-- The byte offset of an address in the host window of the instance placed at `base`; none for an address that is not in it and
so does not reach this instance (R70, R291, R292). Log 11. -/
def windowOffset (base address : Nat) : Option (BitVec 13) :=
  if base ≤ address ∧ address < base + Config.windowBytes then some (BitVec.ofNat 13 (address - base)) else none

/-- What a host access brings to the instance placed at `base` (R11, R291). -/
def HostAccess.input (base : Nat) : HostAccess → Option Input
  | .memRead address size => (windowOffset base address).map fun offset => .read offset size
  | .memWrite address size value => (windowOffset base address).map fun offset => .write offset size value

/-- What the host's accesses, in program order, bring to this block: the inputs of those that fall in its window (R82, R291). -/
def arriving (accesses : List HostAccess) : List Input := accesses.filterMap (HostAccess.input Config.base)

/-! ### The window map (R71, R77) -/

/-- The register at a byte offset (R71). -/
def regAt : Nat → Option Reg
  | 0x00 => some .id
  | 0x04 => some .status
  | 0x08 => some .ctrl
  | 0x0C => some .cmd
  | 0x10 => some .resultLo
  | 0x14 => some .resultHi
  | 0x18 => some .fdx
  | 0x1C => some .pos
  | 0x20 => some .len
  | 0x24 => some .mark
  | 0x28 => some .psStatus
  | 0x2C => some .param
  | _ => none

/-- Offset of PAGE_IN in the window (R71). -/
abbrev pageInBase : Nat := 0x0100

/-- Offset of BUF in the window (R71). -/
abbrev bufBase : Nat := 0x1000

/-- An access of `size` bytes at `offset` that the RAMs admit: 1, 2 or 4 bytes, at a multiple of the size (R77). -/
def ramAligned (offset size : Nat) : Bool :=
  (decide (size = 1) || decide (size = 2) || decide (size = 4)) && decide (offset % size = 0)

/-- The `size` bytes from `offset` on lie wholly inside the RAM of `bytes` bytes at `base` (R77). -/
def insideRam (base bytes offset size : Nat) : Bool := decide (base ≤ offset) && decide (offset + size ≤ base + bytes)

/-- What an access reaches, or none when R77 does not admit it or nothing is mapped there (R71). -/
def target (offset size : Nat) : Option Target :=
  match regAt offset with
  | some r => if size = 4 then some (.reg r) else none
  | none =>
    if ramAligned offset size then
      if insideRam pageInBase Config.pageInBytes offset size then some (.pageIn (offset - pageInBase))
      else if insideRam bufBase Config.bufBytes offset size then some (.buf (offset - bufBase))
      else none
    else none

/-! ### Reads (R75, R79) -/

/-- A register as the host reads it: CTRL and CMD read 0 (R34, R35), reserved bits read 0 (R75). -/
def regWord (s : State) : Reg → Word
  | .id => Config.idWord
  | .status => statusWord s
  | .ctrl => 0
  | .cmd => 0
  | .resultLo => s.result.extractLsb' 0 32
  | .resultHi => s.result.extractLsb' 32 32
  | .fdx => fdxWord s
  | .pos => s.pos.zeroExtend 32
  | .len => s.len.zeroExtend 32
  | .mark => s.mark.zeroExtend 32
  | .psStatus => psStatusWord s
  | .param => Config.paramWord

/-- The `size` bytes an admitted read returns while BUSY = 0 (R75). -/
def targetBytes (size : Nat) (s : State) : Target → List Byte
  | .reg r => leBytes size (regWord s r)
  | .pageIn a => s.pageIn.readBytes a size
  | .buf a => s.buf.readBytes a size

/-- The targets a read returns the value of even while BUSY = 1: ID, PARAM, STATUS (R79). -/
def readableWhileBusy : Target → Bool
  | .reg .id => true
  | .reg .param => true
  | .reg .status => true
  | .reg .ctrl => false
  | .reg .cmd => false
  | .reg .resultLo => false
  | .reg .resultHi => false
  | .reg .fdx => false
  | .reg .pos => false
  | .reg .len => false
  | .reg .mark => false
  | .reg .psStatus => false
  | .pageIn _ => false
  | .buf _ => false

/-- A host read (R75, R78, R79): rejected with data 0, an unspecified value while BUSY = 1 (log 5), or the value. -/
def busRead (offset size : Nat) (s : State) : State :=
  match target offset size with
  | none => reject (List.replicate size 0) s
  | some t =>
    if s.busy && !readableWhileBusy t then drawn (respond (freeBytes s size) s)
    else respond (targetBytes size s t) s

/-! ### Resets (R310 to R312) -/

/-- The command in flight is a HAS_PAGE that "had begun writing the recovered message" (R312): it would recover from this state, and
the writing had begun (log 4). -/
def recoveryUnderWay (poly : BitVec 9) (gen : Fin 92 → Fin 32 → Byte) (s : State) : Bool :=
  match s.inflight with
  | none => false
  | some f =>
    decide (decode f.word = .command .hasPage) && Config.recoveryBegun s.draws &&
      (decide ((hasPageWith poly gen s).code = .ok) && decide ((hasPageWith poly gen s).result = outcomeRecovered))

/-- The registers, the page store and the in-flight state at their reset values; the RAMs and the model's own fields as they are
(R53). -/
def resetRegisters (s : State) : State :=
  { State.reset with
    buf := s.buf
    pageIn := s.pageIn
    inputs := s.inputs
    response := s.response
    draws := s.draws }

/-- Soft reset (R312): a command in flight is abandoned without completing; BUF and PAGE_IN keep their bytes, but every BUF byte is
unspecified when a recovery was being written (90_conflicts.md C8; log 4). -/
def softReset (s : State) : State :=
  drawn { resetRegisters s with
    buf := if recoveryUnderWay Config.gfPoly Config.genMatrix s then Memory.unspecified s.draws else s.buf }

/-- Power-on reset (R311): every element at its power-on value, the RAMs unspecified anew. Log 16. -/
def powerOnReset (s : State) : State :=
  { resetRegisters s with
    buf := Memory.unspecified s.draws
    pageIn := Memory.unspecified (s.draws + 1)
    response := none
    draws := s.draws + 2 }

/-! ### Writes (R76, R78, R79) -/

/-- A write of LEN is accepted iff bits 31:16 are 0, the value is at most `BUF_BITS` and at least POS and MARK (R37). -/
def lenAccepts (v : Word) (s : State) : Bool :=
  decide (v.extractLsb' 16 16 = 0) && decide (v.toNat ≤ Config.bufBits) &&
    (decide (s.pos.toNat ≤ v.toNat) && decide (s.mark.toNat ≤ v.toNat))

/-- A write that R78 rejects though its access is admitted: of a read-only register, or of LEN with a value R37 refuses. -/
def writeRefused (v : Word) (s : State) : Target → Bool
  | .reg .id => true
  | .reg .status => false
  | .reg .ctrl => false
  | .reg .cmd => false
  | .reg .resultLo => true
  | .reg .resultHi => true
  | .reg .fdx => true
  | .reg .pos => true
  | .reg .len => !lenAccepts v s
  | .reg .mark => true
  | .reg .psStatus => true
  | .reg .param => true
  | .pageIn _ => false
  | .buf _ => false

/-- A write of CMD starts its command (R35, R76); how many accesses will see BUSY = 1 is drawn (log 2). -/
def startCommand (v : Word) (s : State) : State :=
  drawn { s with inflight := some { word := v, wait := Config.busyAccesses s.draws } }

/-- What a performed write does (R76). The read-only registers are never written (R78). -/
def writeTarget (size : Nat) (v : Word) (s : State) : Target → State
  | .reg .id => s
  | .reg .status => clearSticky v s
  | .reg .ctrl => if v.getLsbD 0 then softReset s else s
  | .reg .cmd => startCommand v s
  | .reg .resultLo => s
  | .reg .resultHi => s
  | .reg .fdx => s
  | .reg .pos => s
  | .reg .len => { s with len := v.extractLsb' 0 16 }
  | .reg .mark => s
  | .reg .psStatus => s
  | .reg .param => s
  | .pageIn a => { s with pageIn := s.pageIn.writeBytes a (leBytes size v) }
  | .buf a => { s with buf := s.buf.writeBytes a (leBytes size v) }

/-- A write made while BUSY = 1, other than of CTRL: dropped, HAZ set, no error response (R79). -/
def dropWrite (s : State) : State := respond [] { s with haz := true }

/-- A host write: rejected (R78, also while BUSY = 1: log 14), dropped (R79) or performed (R76). -/
def busWrite (offset size : Nat) (v : Word) (s : State) : State :=
  match target offset size with
  | none => reject [] s
  | some t =>
    if writeRefused v s t then reject [] s
    else if s.busy && decide (t ≠ .reg .ctrl) then dropWrite s
    else respond [] (writeTarget size v s t)

/-! ### What a step does (log 1) -/

/-- What an input does. -/
def perform (i : Input) (s : State) : State :=
  match i with
  | .read offset size => busRead offset.toNat size s
  | .write offset size v => busWrite offset.toNat size v s
  | .powerOn => powerOnReset s

/-- The first input is taken, and the command in flight, if any, has one access fewer to be busy for (log 2). -/
def takeInput (s : State) : State :=
  { s with inputs := s.inputs.tail, inflight := s.inflight.map fun f => { f with wait := f.wait - 1 } }

/-- Serving an input: it is taken and performed. -/
def serveInput (i : Input) (s : State) : State := perform i (takeInput s)

/-- What happens next (R80, R82, R321): the command in flight completes once no more accesses are to see it busy, or none are
coming; else the next access is served; with neither, the block is idle (R294). -/
def nextAction (s : State) : Action :=
  match s.inflight, s.inputs with
  | none, [] => .idle
  | none, i :: _ => .serve i
  | some f, [] => .complete f.word
  | some f, i :: _ => if f.wait = 0 then .complete f.word else .serve i

/-- `s` with this word in flight and about to complete (the fixed interface `State.withFetchWord`; log 7). -/
def placeCommand (w : Word) (s : State) : State := { s with inflight := some { word := w, wait := 0 } }

end Sys2Proof.Machine
end

