-- ==== Sys2Proof/Machine/BitCursor.lean ====
section
/-!
DEFINITION. The BitCursor commands (40_bitcursor.md R130 to R140).
-/

namespace Sys2Proof.Machine

/-- A read of the `n` stream bits at POS (R130, R131, R170): when fewer than `n` are left it raises INSUFFICIENT_DATA and changes
nothing else; otherwise `use` writes what the command makes of their value, and POS moves past them. -/
def readField (opc : BitVec 8) (n : Nat) (use : Nat → State → State) (s : State) : State :=
  if s.pos.toNat + n ≤ s.len.toNat then
    finish opc .ok ((use (streamBits s.buf s.pos.toNat n) s).advance n)
  else raise opc .insufficientData s

/-- A command that needs `need` and is otherwise `go` (R283 (3)): INSUFFICIENT_DATA when the condition fails. -/
def requireBits (opc : BitVec 8) (need : Bool) (go : State) (s : State) : State :=
  if need then finish opc .ok go else raise opc .insufficientData s

/-- BC_RESET (R140): POS, LEN and MARK to 0. -/
def execBcReset (s : State) : Host.Outcome State Fault Refusal :=
  .next (finish Instr.bcReset.opcode .ok { s with pos := 0, len := 0, mark := 0 })

/-- BC_RDU (R131): the field, zero-extended. -/
def execBcRdu (n : BitVec 8) (s : State) : Host.Outcome State Fault Refusal :=
  .next (readField (Instr.bcRdu n).opcode (width n) (fun v t => { t with result := zext64 v }) s)

/-- BC_RDI (R132): the field, sign-extended. -/
def execBcRdi (n : BitVec 8) (s : State) : Host.Outcome State Fault Refusal :=
  .next (readField (Instr.bcRdi n).opcode (width n) (fun v t => { t with result := sext64 (width n) v }) s)

/-- BC_REM (R133): the number of bits left. -/
def execBcRem (s : State) : Host.Outcome State Fault Refusal :=
  .next (finish Instr.bcRem.opcode .ok { s with result := zext64 s.remaining })

/-- BC_POS (R134): the cursor position. -/
def execBcPos (s : State) : Host.Outcome State Fault Refusal :=
  .next (finish Instr.bcPos.opcode .ok { s with result := zext64 s.pos.toNat })

/-- BC_SUBR (R135): the `n` bits at `a`, the cursor staying; `a + n` on exact integers. -/
def execBcSubr (a : BitVec 16) (n : BitVec 8) (s : State) : Host.Outcome State Fault Refusal :=
  .next (requireBits (Instr.bcSubr a n).opcode (decide (immUnsigned a + width n ≤ s.len.toNat))
    { s with result := zext64 (streamBits s.buf (immUnsigned a) (width n)) } s)

/-- BC_SEEK (R136): `POS <- IMM`, when `IMM ≤ LEN`. -/
def execBcSeek (p : BitVec 16) (s : State) : Host.Outcome State Fault Refusal :=
  .next (requireBits (Instr.bcSeek p).opcode (decide (immUnsigned p ≤ s.len.toNat)) { s with pos := p } s)

/-- BC_MARK (R137): `MARK <- POS`. -/
def execBcMark (s : State) : Host.Outcome State Fault Refusal :=
  .next (finish Instr.bcMark.opcode .ok { s with mark := s.pos })

/-- BC_REWIND (R138): `POS <- MARK`. -/
def execBcRewind (s : State) : Host.Outcome State Fault Refusal :=
  .next (finish Instr.bcRewind.opcode .ok { s with pos := s.mark })

/-- BC_REQ (R139): only the check that `IMM` bits are left. -/
def execBcReq (m : BitVec 16) (s : State) : Host.Outcome State Fault Refusal :=
  .next (requireBits (Instr.bcReq m).opcode (decide (s.pos.toNat + immUnsigned m ≤ s.len.toNat)) s s)

end Sys2Proof.Machine
end

