-- ==== Sys2Proof/Machine/Control.lean ====
section
/-!
DEFINITION. The control family: NOP (40_bitcursor.md R141).
-/

namespace Sys2Proof.Machine

/-- NOP (R107, R141): STATUS only, and no sticky bit is cleared. -/
def execNop (s : State) : Host.Outcome State Fault Refusal :=
  .next (finish Instr.nop.opcode .ok s)

end Sys2Proof.Machine
end

