-- ==== Sys2Proof/Machine/FieldDecode.lean ====
section
/-!
DEFINITION. The field-decode commands (41_field_decode.md R170 to R173).
-/

namespace Sys2Proof.Machine

/-- FD_RDS (R171): the signed field, and whether it is its min code. -/
def execFdRds (n : BitVec 8) (s : State) : Host.Outcome State Fault Refusal :=
  .next (readField (Instr.fdRds n).opcode (width n)
    (fun v t => { t.setUnav (isMinCode (width n) v) with result := sext64 (width n) v }) s)

/-- FD_RDSX (R172): the signed field, and whether it is the sentinel of the immediate. -/
def execFdRdsx (n : BitVec 8) (sentinel : BitVec 16) (s : State) : Host.Outcome State Fault Refusal :=
  .next (readField (Instr.fdRdsx n sentinel).opcode (width n)
    (fun v t => { t.setUnav (isSentinel (width n) v sentinel) with result := sext64 (width n) v }) s)

/-- FD_RDPC (R173): the mask, and how many of its bits are set. -/
def execFdRdpc (n : BitVec 8) (s : State) : Host.Outcome State Fault Refusal :=
  .next (readField (Instr.fdRdpc n).opcode (width n)
    (fun v t => { t.setPopc (popcount v (width n)) with result := zext64 v }) s)

end Sys2Proof.Machine
end

