-- ==== Sys2Proof/Machine/Dispatch.lean ====
section
/-!
DEFINITION. One arm per command, each one direct call of its meaning (30_encoding.md R104).
-/

namespace Sys2Proof.Machine

def exec (i : Instr) (s : State) : Host.Outcome State Fault Refusal :=
  match i with
  | .nop => Sys2Proof.Machine.execNop s
  | .bcReset => Sys2Proof.Machine.execBcReset s
  | .bcRdu n => Sys2Proof.Machine.execBcRdu n s
  | .bcRdi n => Sys2Proof.Machine.execBcRdi n s
  | .bcRem => Sys2Proof.Machine.execBcRem s
  | .bcPos => Sys2Proof.Machine.execBcPos s
  | .bcSubr a n => Sys2Proof.Machine.execBcSubr a n s
  | .bcSeek p => Sys2Proof.Machine.execBcSeek p s
  | .bcMark => Sys2Proof.Machine.execBcMark s
  | .bcRewind => Sys2Proof.Machine.execBcRewind s
  | .bcReq m => Sys2Proof.Machine.execBcReq m s
  | .fdRds n => Sys2Proof.Machine.execFdRds n s
  | .fdRdsx n sentinel => Sys2Proof.Machine.execFdRdsx n sentinel s
  | .fdRdpc n => Sys2Proof.Machine.execFdRdpc n s
  | .hasPage => Sys2Proof.Machine.execHasPage s
  | .hasClear => Sys2Proof.Machine.execHasClear s

end Sys2Proof.Machine
end

