-- ==== Sys2Proof/Machine/Step.lean ====
section
/-!
DEFINITION. One step of the block (log 1): a command completes, an input is served, or nothing happens.
-/

namespace Sys2Proof.Machine

/-- One step: `nextAction` says which of the three. A command is one atomic transition (R50, R80): its word is decoded and, when
legal, executed; an illegal word raises ILLEGAL_COMMAND (R105). -/
def step (s : State) : Host.Outcome State Fault Refusal :=
  match nextAction s with
  | .idle => .next s
  | .serve i => .next (serveInput i s)
  | .complete w =>
    match decode w with
    | .command i => exec i s
    | .illegal _ => .next (raiseIllegal w s)

/-- The command word of the table placed where the next step takes its command from: in flight and about to complete. Log 7. -/
def State.withFetchWord (s : State) (nbits w : Nat) : State := placeCommand (tableWord nbits w) s

end Sys2Proof.Machine
end

