-- ==== Sys2Proof/Machine/Assembler.lean ====
section
/-!
DEFINITION. The assembler syntax and the pseudo-instructions (30_encoding.md R108, R109). The block takes no part in it; it is a host
tool the spec describes. Log 23.
-/

namespace Sys2Proof.Machine

/-- What may stand first on a line: the sixteen mnemonics of R104 and the four pseudo-instructions of R109. -/
inductive Mnemonic where
  | nop
  | bcReset
  | bcRdu
  | bcRdi
  | bcRem
  | bcPos
  | bcSubr
  | bcSeek
  | bcMark
  | bcRewind
  | bcReq
  | fdRds
  | fdRdsx
  | fdRdpc
  | hasPage
  | hasClear
  | bcRdBit
  | bcRdMask
  | bcRewind0
  | bcSkipTo
  deriving DecidableEq, Repr

/-- The spelling of a mnemonic (R104, R108, R109). -/
def Mnemonic.spelling : Mnemonic → String
  | .nop => "NOP"
  | .bcReset => "BC_RESET"
  | .bcRdu => "BC_RDU"
  | .bcRdi => "BC_RDI"
  | .bcRem => "BC_REM"
  | .bcPos => "BC_POS"
  | .bcSubr => "BC_SUBR"
  | .bcSeek => "BC_SEEK"
  | .bcMark => "BC_MARK"
  | .bcRewind => "BC_REWIND"
  | .bcReq => "BC_REQ"
  | .fdRds => "FD_RDS"
  | .fdRdsx => "FD_RDSX"
  | .fdRdpc => "FD_RDPC"
  | .hasPage => "HAS_PAGE"
  | .hasClear => "HAS_CLEAR"
  | .bcRdBit => "BC_RDBIT"
  | .bcRdMask => "BC_RDMASK"
  | .bcRewind0 => "BC_REWIND0"
  | .bcSkipTo => "BC_SKIPTO"

/-- Every mnemonic (R104, R109). -/
def allMnemonics : List Mnemonic :=
  [.nop, .bcReset, .bcRdu, .bcRdi, .bcRem, .bcPos, .bcSubr, .bcSeek, .bcMark, .bcRewind, .bcReq, .fdRds, .fdRdsx,
    .fdRdpc, .hasPage, .hasClear, .bcRdBit, .bcRdMask, .bcRewind0, .bcSkipTo]

/-- An operand in `lo .. hi`, as `bits` bits; an operand out of range is refused (R108). -/
def operandIn (lo hi : Int) (bits : Nat) (x : Int) : Option (BitVec bits) :=
  if lo ≤ x ∧ x ≤ hi then some (BitVec.ofInt bits x) else none

/-- A width operand of at least `lo` (R104, R108). -/
def widthOperand (lo x : Int) : Option (BitVec 8) := operandIn lo Config.nMax 8 x

/-- A position or count, `0..65535` (R108). -/
def positionOperand (x : Int) : Option (BitVec 16) := operandIn 0 65535 16 x

/-- A sentinel, `-32768..32767`, encoded as `s mod 2^16` (R108). -/
def sentinelOperand (x : Int) : Option (BitVec 16) := operandIn (-32768) 32767 16 x

/-- The command of a mnemonic and its operands in the order R108 writes them; a pseudo-instruction's expansion is one command (R109).
None when the operands are too few, too many or out of range. -/
def assemble : Mnemonic → List Int → Option Instr
  | .nop, [] => some .nop
  | .bcReset, [] => some .bcReset
  | .bcRdu, [n] => (widthOperand 0 n).map .bcRdu
  | .bcRdi, [n] => (widthOperand 0 n).map .bcRdi
  | .bcRem, [] => some .bcRem
  | .bcPos, [] => some .bcPos
  | .bcSubr, [a, n] => (positionOperand a).bind fun a' => (widthOperand 0 n).map (.bcSubr a')
  | .bcSeek, [p] => (positionOperand p).map .bcSeek
  | .bcMark, [] => some .bcMark
  | .bcRewind, [] => some .bcRewind
  | .bcReq, [m] => (positionOperand m).map .bcReq
  | .fdRds, [n] => (widthOperand 1 n).map .fdRds
  | .fdRdsx, [n, s] => (widthOperand 1 n).bind fun n' => (sentinelOperand s).map (.fdRdsx n')
  | .fdRdpc, [n] => (widthOperand 0 n).map .fdRdpc
  | .hasPage, [] => some .hasPage
  | .hasClear, [] => some .hasClear
  | .bcRdBit, [] => some (.bcRdu 1)
  | .bcRdMask, [n] => (widthOperand 0 n).map .fdRdpc
  | .bcRewind0, [] => some (.bcSeek 0)
  | .bcSkipTo, [p] => (positionOperand p).map .bcSeek
  | _, _ => none

/-- The value of a digit in base 10 or 16. -/
def digitValue (base : Nat) (c : Char) : Option Nat :=
  let d :=
    if '0' ≤ c ∧ c ≤ '9' then c.toNat - 48
    else if 'a' ≤ c ∧ c ≤ 'f' then c.toNat - 87
    else if 'A' ≤ c ∧ c ≤ 'F' then c.toNat - 55
    else 16
  if d < base then some d else none

/-- The digits after those read so far. -/
def digitsValue (base : Nat) : Nat → List Char → Option Nat
  | acc, [] => some acc
  | acc, c :: cs => (digitValue base c).bind fun d => digitsValue base (acc * base + d) cs

/-- A number without a sign, decimal or `0x` hexadecimal (R108). -/
def unsignedNumber : List Char → Option Nat
  | [] => none
  | '0' :: 'x' :: c :: cs => digitsValue 16 0 (c :: cs)
  | c :: cs => digitsValue 10 0 (c :: cs)

/-- A number, which may carry `-`. R108 gives the minus sign to a signed operand; DESIGN CHOICE, log 23: a number of any operand is read
with it, and the range of the operand refuses what is negative, so that an unsigned operand takes `-0` as 0. -/
def number : List Char → Option Int
  | '-' :: cs => (unsignedNumber cs).map fun n => -(n : Int)
  | cs => (unsignedNumber cs).map fun n => (n : Int)

/-- A space or a tab. -/
def isBlank (c : Char) : Bool := c = ' ' || c = '\t'

/-- Without the blanks at both ends. -/
def trim (cs : List Char) : List Char := ((cs.dropWhile isBlank).reverse.dropWhile isBlank).reverse

/-- The pieces between commas. -/
def commaPieces : List Char → List (List Char)
  | [] => [[]]
  | c :: cs =>
    match commaPieces cs with
    | [] => [[c]]
    | p :: ps => if c = ',' then [] :: p :: ps else (c :: p) :: ps

/-- The operands of a line: none, or numbers between commas. -/
def operands (cs : List Char) : Option (List Int) :=
  if trim cs = [] then some [] else (commaPieces cs).mapM fun p => number (trim p)

/-- A line without its comment (R108). -/
def withoutComment (cs : List Char) : List Char := trim (cs.takeWhile fun c => c ≠ ';')

/-- The word of one line (R108); none when the assembler refuses it. A line without a command has no word. -/
def assembleLine (line : String) : Option Word :=
  let cs := withoutComment line.toList
  let name := cs.takeWhile fun c => !isBlank c
  match allMnemonics.find? fun m => m.spelling.toList = name with
  | none => none
  | some m => (operands (cs.drop name.length)).bind fun ops => (assemble m ops).map encode

end Sys2Proof.Machine
end

