-- ==== Sys2Proof/Machine/Layouts.lean ====
section
/-!
DEFINITION. The subtype field layouts (42_subtype_layouts.md R190 to R209) and the host's reading of a field (41_field_decode.md R174,
R175): data for the host that sequences the commands. The block holds none of it (00_scope.md R5), and no meaning or step uses this
file. The readings the spec chose (D38, D39) are followed; what the source leaves open (91_not_in_source.md N9 to N11) is not laid out
here. Log 19.
-/

namespace Sys2Proof.Machine

/-! ### Fields -/

/-- The command that reads a field (42_subtype_layouts.md, column "cmd"). -/
inductive Reader where
  /-- BC_RDU: unsigned, no sentinel (R175). -/
  | rdu
  /-- FD_RDS: signed, the min code is the sentinel. -/
  | rds
  /-- FD_RDSX with this sentinel. -/
  | rdsx (sentinel : Int)
  /-- FD_RDPC: a mask. -/
  | rdpc
  deriving DecidableEq, Repr

/-- A field: its width in bits, how it is read, and its scale in ten-thousandths of the unit (none: no scale). -/
structure Field where
  width : Nat
  reader : Reader
  scale : Option Nat
  deriving DecidableEq, Repr

/-- An unsigned field without scale. -/
def unsignedField (w : Nat) : Field := { width := w, reader := .rdu, scale := none }

/-- A signed field whose sentinel is its min code, with a scale in ten-thousandths. -/
def scaledField (w scale : Nat) : Field := { width := w, reader := .rds, scale := some scale }

/-- A mask whose set bits are counted. -/
def maskField (w : Nat) : Field := { width := w, reader := .rdpc, scale := none }

/-- The command a host issues for a field of at most 64 bits. -/
def Field.command (f : Field) : Instr :=
  match f.reader with
  | .rdu => .bcRdu (BitVec.ofNat 8 f.width)
  | .rds => .fdRds (BitVec.ofNat 8 f.width)
  | .rdsx s => .fdRdsx (BitVec.ofNat 8 f.width) (BitVec.ofInt 16 s)
  | .rdpc => .fdRdpc (BitVec.ofNat 8 f.width)

/-- The raw code that means "unavailable", where the field has one. -/
def Field.sentinel (f : Field) : Option Int :=
  match f.reader with
  | .rdu => none
  | .rds => some (-(2 ^ (f.width - 1)))
  | .rdsx s => some s
  | .rdpc => none

/-- The bits a list of fields takes (R207). -/
def fieldBits (fs : List Field) : Nat := (fs.map Field.width).sum

/-- The operand of BC_REQ that asks for `n` bits: `n` itself, or the greatest operand where `n` does not fit. More than `BUF_BITS`
bits are never left, and BC_REQ always raises on such an operand (R139), so that the check stays exact. Log 26. -/
def lengthOperand (n : Nat) : BitVec 16 := BitVec.ofNat 16 (min n 65535)

/-- The length check a host makes before it reads these fields (R207). -/
def lengthCheck (fs : List Field) : Instr := .bcReq (lengthOperand (fieldBits fs))

/-- The widths of the BC_RDU commands that read `n` bits in pieces of at most 64, at most `fuel` of them (R144). -/
def pieceWidths : Nat → Nat → List Nat
  | 0, _ => []
  | fuel + 1, n => if n = 0 then [] else min n Config.nMax :: pieceWidths fuel (n - Config.nMax)

/-- The decoded value after FD_RDS or FD_RDSX (R174), in raw units: unavailable, or the signed RESULT. -/
def decodedRaw (s : State) : Option Int := if s.unav then none else some s.result.toInt

/-- The raw value after the field's own command: unavailable or signed where FD_RDS or FD_RDSX read it (R174); the unsigned RESULT
where BC_RDU or FD_RDPC did, and then FDX.UNAV does not apply (R173, R175). -/
def fieldRaw (f : Field) (s : State) : Option Int :=
  match f.reader with
  | .rdu => some s.result.toNat
  | .rds => decodedRaw s
  | .rdsx _ => decodedRaw s
  | .rdpc => some s.result.toNat

/-- The decoded value after the field's own command: `raw × scale` in ten-thousandths of the unit, or the raw value of a field without
a scale (R174, R175). -/
def decodedScaled (f : Field) (s : State) : Option Int :=
  (fieldRaw f s).map fun raw =>
    match f.scale with
    | none => raw
    | some k => raw * (k : Int)

/-! ### Masks (R190 to R193, R206) -/

/-- The satellite systems (R193). -/
inductive SatelliteSystem where
  | gps
  | glonass
  | galileo
  | beidou
  | qzss
  | sbas
  deriving DecidableEq, Repr

/-- The system of a GNSS id; none is the host's `UnknownGnssId` (R193; D38). -/
def gnssSystem : Nat → Option SatelliteSystem
  | 0 => some .gps
  | 1 => some .glonass
  | 2 => some .galileo
  | 3 => some .beidou
  | 4 => some .qzss
  | 5 => some .sbas
  | _ => none

/-- The positions set in a bitmap of `w` bits, position 0 being the first bit read, the most significant one (R192; D38). -/
def setPositions (w bitmap : Nat) : List Nat := (List.range w).filter fun i => bitmap.testBit (w - 1 - i)

/-- The satellite slots of a 40-bit bitmap, `1..40` (R192). -/
def satelliteSlots (bitmap : Nat) : List Nat := (setPositions 40 bitmap).map (· + 1)

/-- The signal slots of a 16-bit bitmap, `0..15` (R192; 90_conflicts.md C3). -/
def signalSlots (bitmap : Nat) : List Nat := setPositions 16 bitmap

/-- The mask of one system: its satellite and signal slots, and the cell bitmap as flags in satellite-major order (R190, R192). -/
structure SystemMask where
  system : SatelliteSystem
  satellites : List Nat
  signals : List Nat
  cells : List Bool
  deriving DecidableEq, Repr

/-- The cell flags: the bitmap read, first bit first, or all ones when the cell-mask flag is 0 (R190). -/
def cellFlags (nsat nsig : Nat) (bitmap : Option Nat) : List Bool :=
  (List.range (nsat * nsig)).map fun i =>
    match bitmap with
    | none => true
    | some b => b.testBit (nsat * nsig - 1 - i)

/-- The cell index over the active satellites and signals (R192). -/
def cellIndex (nsig iSat iSig : Nat) : Nat := iSat * nsig + iSig

/-- Whether the `i`-th of `nsat` active satellites is selected: by the sub-mask, whose first-read (most significant) bit is for the first
satellite in list order; without one, always (R198; D38). -/
def satelliteSelected (nsat : Nat) (subMask : Option Nat) (i : Nat) : Bool :=
  match subMask with
  | none => true
  | some b => b.testBit (nsat - 1 - i)

/-- The selected satellites of a system, in list order (R198, R200, R203). -/
def selectedSatellites (m : SystemMask) (subMask : Option Nat) : List Nat :=
  m.satellites.zipIdx.filterMap fun sat =>
    if satelliteSelected m.satellites.length subMask sat.2 then some sat.1 else none

/-- The cells that both the cell bitmap and the sub-mask leave, as (satellite slot, signal slot), in the order the fields come (R198,
R206). -/
def selectedCells (m : SystemMask) (subMask : Option Nat) : List (Nat × Nat) :=
  m.satellites.zipIdx.flatMap fun sat =>
    m.signals.zipIdx.filterMap fun sig =>
      if satelliteSelected m.satellites.length subMask sat.2 &&
          m.cells.getD (cellIndex m.signals.length sat.2 sig.2) false then some (sat.1, sig.1)
      else none

/-- The active cells of a system: those of a subtype without a sub-mask (R206). -/
def activeCells (m : SystemMask) : List (Nat × Nat) := selectedCells m none

/-- The systems of the mask, in its order, each with its sub-mask among those read: none where the network flag is 0, when every
satellite is selected (R198; D38). -/
def withSubMasks (network : Bool) (masks : List SystemMask) (subMasks : List Nat) : List (SystemMask × Option Nat) :=
  masks.zipIdx.map fun m => (m.1, if network then some (subMasks.getD m.2 0) else none)

/-- A message's fields that come once per selected satellite, in the order of R206; they may differ from satellite slot to slot. -/
def perSatellite (fields : SatelliteSystem → Nat → List Field) (systems : List (SystemMask × Option Nat)) : List Field :=
  systems.flatMap fun p => (selectedSatellites p.1 p.2).flatMap (fields p.1.system)

/-- A message's fields that come once per selected cell, in the order of R206. -/
def perCell (fields : List Field) (systems : List (SystemMask × Option Nat)) : List Field :=
  systems.flatMap fun p => (selectedCells p.1 p.2).flatMap fun _ => fields

/-- Subtype 1, before the systems: the system count (R190). -/
def subtype1Head : List Field := [unsignedField 4]

/-- Subtype 1, per system: GNSS id, satellite bitmap, signal bitmap, cell-mask flag (R190). -/
def subtype1System : List Field := [unsignedField 4, maskField 40, maskField 16, unsignedField 1]

/-- Subtype 1, the cell bitmap of a system whose flag is set, as the pieces of R144 (R190). -/
def subtype1Cells (nsat nsig : Nat) : List Field := (pieceWidths 10 (nsat * nsig)).map unsignedField

/-- Subtype 1, one system of `nsat` satellites and `nsig` signals: its fields, then the cell bitmap if its flag is set (R190). -/
def subtype1Block (nsat nsig : Nat) (flag : Bool) : List Field := subtype1System ++ if flag then subtype1Cells nsat nsig else []

/-- Subtype 1, the mask message: the system count, then each system (R190). -/
def subtype1 (systems : List (Nat × Nat × Bool)) : List Field :=
  subtype1Head ++ systems.flatMap fun p => subtype1Block p.1 p.2.1 p.2.2

/-- Subtype 1: the bits of `n` systems without their cell bitmaps (R191). -/
def subtype1Bits (n : Nat) : Nat := 4 + 61 * n

/-! ### Subtypes 2 to 12 (R194 to R205) -/

/-- The satellite sub-mask of a system with `nsat` active satellites, one bit each (R198; D38). -/
def subMask (nsat : Nat) : List Field := [unsignedField nsat]

/-- Subtype 2, orbit, per active satellite: IODE, radial, along-track, cross-track (R194; C2, C4, D39). -/
def subtype2 (sys : SatelliteSystem) : List Field :=
  [unsignedField (if sys = .galileo then 10 else 8), scaledField 15 16, scaledField 13 64, scaledField 13 64]

/-- Subtype 3, clock, per active satellite (R195). -/
def subtype3 : List Field := [scaledField 15 16]

/-- Subtype 4, code bias, per active cell (R196). -/
def subtype4 : List Field := [scaledField 11 200]

/-- Subtype 5, phase bias, per active cell: the bias, then the discontinuity indicator (R197). -/
def subtype5 : List Field := [scaledField 15 10, unsignedField 2]

/-- Three leading flags (R198, R203). -/
def threeFlags : List Field := [unsignedField 1, unsignedField 1, unsignedField 1]

/-- What follows a set network flag: network id, then the sub-mask of each system (R198, R203). -/
def networkPart (network : Bool) (nsats : List Nat) : List Field :=
  if network then unsignedField 5 :: nsats.flatMap subMask else []

/-- Subtype 6, combined bias, per selected active cell (R198). -/
def subtype6Cell (code phase : Bool) : List Field := (if code then subtype4 else []) ++ (if phase then subtype5 else [])

/-- Subtype 6 after its flags, network id and sub-masks: the fields of every selected cell (R198). -/
def subtype6Body (code phase network : Bool) (masks : List SystemMask) (subMasks : List Nat) : List Field :=
  perCell (subtype6Cell code phase) (withSubMasks network masks subMasks)

/-- Subtype 7, URA, per active satellite (R199). -/
def subtype7 : List Field := [unsignedField 6]

/-- Subtype 8, STEC polynomial, before the satellites: type, network id, sub-masks (R200). -/
def subtype8Head (nsats : List Nat) : List Field := [unsignedField 2, unsignedField 5] ++ nsats.flatMap subMask

/-- The STEC coefficients of a type (R200). -/
def stecCoefficients (type : Nat) : List Field :=
  [scaledField 14 500] ++ (if 1 ≤ type then [scaledField 12 200, scaledField 12 200] else []) ++
    (if 2 ≤ type then [scaledField 10 200] else []) ++ (if 3 ≤ type then [scaledField 8 50, scaledField 8 50] else [])

/-- Subtype 8, per selected satellite: quality, then the coefficients (R200). -/
def subtype8Satellite (type : Nat) : List Field := unsignedField 6 :: stecCoefficients type

/-- Subtype 8 after its sub-masks: the fields of every selected satellite (R200). -/
def subtype8Body (type : Nat) (masks : List SystemMask) (subMasks : List Nat) : List Field :=
  perSatellite (fun _ _ => subtype8Satellite type) (withSubMasks true masks subMasks)

/-- Subtype 9, troposphere and STEC grid, before the grids: type, range, network id, sub-masks, quality, grid count (R201). -/
def subtype9Head (nsats : List Nat) : List Field :=
  [unsignedField 2, unsignedField 1, unsignedField 5] ++ nsats.flatMap subMask ++ [unsignedField 6, unsignedField 6]

/-- Subtype 9, the STEC residual of the range bit: 7 bits, or 16 bits with the sentinel -32767 (R201; C7, U6). -/
def subtype9Residual (range : Bool) : Field :=
  if range then { width := 16, reader := .rdsx (-32767), scale := some 400 } else scaledField 7 400

/-- Subtype 9, per grid: hydrostatic delay, wet delay, then one residual per selected satellite (R201; D38). -/
def subtype9Grid (range : Bool) (nselected : Nat) : List Field :=
  [scaledField 9 40, scaledField 8 40] ++ List.replicate nselected (subtype9Residual range)

/-- Subtype 9 after its grid count, grid-major, each grid with a residual for every selected satellite of the mask (R201; D38). -/
def subtype9Body (range : Bool) (ngrid : Nat) (masks : List SystemMask) (subMasks : List Nat) : List Field :=
  let systems := withSubMasks true masks subMasks
  (List.replicate ngrid
    (subtype9Grid range (systems.flatMap fun p => selectedSatellites p.1 p.2).length)).flatten

/-- Subtype 10, auxiliary frame data: counter and size selector (R202). -/
def subtype10Head : List Field := [unsignedField 3, unsignedField 2]

/-- Subtype 10: the `(n + 1) × 40` raw bits of size selector `n`, as pieces (R202). -/
def subtype10Raw (n : Nat) : List Field := (pieceWidths 3 ((n + 1) * 40)).map unsignedField

/-- Subtype 11, combined orbit and clock, per selected satellite (R203). -/
def subtype11Satellite (sys : SatelliteSystem) (orbit clock : Bool) : List Field :=
  (if orbit then subtype2 sys else []) ++ (if clock then subtype3 else [])

/-- Subtype 11 after its flags, network id and sub-masks: the fields of every selected satellite (R203). -/
def subtype11Body (orbit clock network : Bool) (masks : List SystemMask) (subMasks : List Nat) : List Field :=
  perSatellite (fun sys _ => subtype11Satellite sys orbit clock) (withSubMasks network masks subMasks)

/-- Subtype 12, combined troposphere and STEC: the availability bits (R204). -/
def subtype12Head : List Field := [unsignedField 2, unsignedField 2]

/-- Subtype 12: the first-read tropo-avail bit is "model", the second "residual" (R204; D38). -/
def tropoAvail (v : Nat) : Bool × Bool := (v.testBit 1, v.testBit 0)

/-- Subtype 12, the tropo model of a type, after quality and type (R204). -/
def tropoCoefficients (type : Nat) : List Field :=
  [scaledField 9 40] ++ (if 1 ≤ type then [scaledField 7 20, scaledField 7 20] else []) ++
    (if 2 ≤ type then [scaledField 7 10] else [])

/-- Subtype 12, the tropo model: quality, type, coefficients (R204). -/
def tropoModel (type : Nat) : List Field := [unsignedField 6, unsignedField 2] ++ tropoCoefficients type

/-- Subtype 12, the tropo residual: size selector, unsigned offset, then one residual per grid point, 6 or 8 bits (R204; D38). -/
def tropoResidual (selector : Bool) (ngrid : Nat) : List Field :=
  [unsignedField 1, { width := 4, reader := .rdu, scale := some 200 }] ++
    List.replicate ngrid (scaledField (if selector then 8 else 6) 40)

/-- Subtype 12, the STEC residual of a selector (R205). -/
def stecResidual : Nat → Option Field
  | 0 => some (scaledField 4 400)
  | 1 => some (scaledField 4 1200)
  | 2 => some (scaledField 5 1600)
  | 3 => some (scaledField 7 2400)
  | _ => none

/-- Subtype 12, the STEC part of one satellite: quality, type, coefficients, residual selector, one residual per grid point (R204,
R205). -/
def subtype12Satellite (type selector ngrid : Nat) : List Field :=
  [unsignedField 6, unsignedField 2] ++ stecCoefficients type ++ [unsignedField 2] ++
    (match stecResidual selector with
    | none => []
    | some f => List.replicate ngrid f)

/-- Subtype 12, the STEC section: the STEC part of every satellite of these systems, in the order of R206, `readings` giving the type and
the residual selector read for a satellite slot. Whether the message has the section, and a sub-mask for it, is open
(91_not_in_source.md N10), and so the host's: it gives the systems and their sub-masks, if any. -/
def stecSection (readings : SatelliteSystem → Nat → Nat × Nat) (ngrid : Nat) (systems : List (SystemMask × Option Nat)) :
    List Field :=
  perSatellite (fun sys slot => subtype12Satellite (readings sys slot).1 (readings sys slot).2 ngrid) systems

/-- Subtype 12 after its availability bits, `avail` being tropo-avail: the tropo model of a type if available, the tropo residual of a
size selector if available, then the STEC section (R204; D38). Where the grid count comes from is open (91_not_in_source.md N10). -/
def subtype12Body (avail type : Nat) (selector : Bool) (ngrid : Nat) (stec : List Field) : List Field :=
  (if (tropoAvail avail).1 then tropoModel type else []) ++
    (if (tropoAvail avail).2 then tropoResidual selector ngrid else []) ++ stec

/-- Subtype 12, combined troposphere and STEC, from its availability bits on (R204). -/
def subtype12 (avail type : Nat) (selector : Bool) (ngrid : Nat) (readings : SatelliteSystem → Nat → Nat × Nat)
    (systems : List (SystemMask × Option Nat)) : List Field :=
  subtype12Head ++ subtype12Body avail type selector ngrid (stecSection readings ngrid systems)

/-! ### The messages without a sub-mask (R194 to R197, R199, R206) -/

/-- A message whose fields come once per active satellite. -/
def perActiveSatellite (fields : SatelliteSystem → List Field) (masks : List SystemMask) : List Field :=
  perSatellite (fun sys _ => fields sys) (withSubMasks false masks [])

/-- A message whose fields come once per active cell. -/
def perActiveCell (fields : List Field) (masks : List SystemMask) : List Field := perCell fields (withSubMasks false masks [])

/-- Subtype 2, orbit (R194). -/
def subtype2Body (masks : List SystemMask) : List Field := perActiveSatellite subtype2 masks

/-- Subtype 3, clock (R195). -/
def subtype3Body (masks : List SystemMask) : List Field := perActiveSatellite (fun _ => subtype3) masks

/-- Subtype 4, code bias (R196). -/
def subtype4Body (masks : List SystemMask) : List Field := perActiveCell subtype4 masks

/-- Subtype 5, phase bias (R197). -/
def subtype5Body (masks : List SystemMask) : List Field := perActiveCell subtype5 masks

/-- Subtype 7, URA (R199). -/
def subtype7Body (masks : List SystemMask) : List Field := perActiveSatellite (fun _ => subtype7) masks

/-! ### The HAS message (R208, R209) -/

/-- The header of a recovered HAS message: time of hour, six capability flags, 4 reserved bits, mask id, IOD set id (R208). -/
def hasHeader : List Field :=
  [unsignedField 12] ++ List.replicate 6 (unsignedField 1) ++ [unsignedField 4, unsignedField 5, unsignedField 5]

/-- The sections of a HAS message (R208, R209). How their fields lie is open (91_not_in_source.md N11). -/
inductive HasSection where
  | mask
  | orbit
  | clockFull
  | clockSubset
  | codeBias
  | phaseBias
  deriving DecidableEq, Repr

/-- The sections in the order of their flags in the header (R208). -/
def hasSections : List HasSection := [.mask, .orbit, .clockFull, .clockSubset, .codeBias, .phaseBias]

/-- The active sections of a message with these flags, in the order they are decoded (R209). -/
def activeSections (flags : List Bool) : List HasSection :=
  (hasSections.zip flags).filterMap fun p => if p.2 then some p.1 else none

end Sys2Proof.Machine
end

