-- ==== Sys2Proof/Safety.lean ====
section
/-!
DEFINITION. The terms the statements are written in: the invariant of the block (10_state.md R51), the runs from reset, the opcode map
as a table (30_encoding.md R104), how a command ends, valid pages, and invertible matrices (43_has_rs.md R236).
-/

namespace Sys2Proof.Machine

/-! ### The invariant -/

/-- R51, the cursor: `0 ≤ MARK ≤ LEN`, `0 ≤ POS ≤ LEN ≤ BUF_BITS`. -/
abbrev CursorInv (s : State) : Prop :=
  s.mark.toNat ≤ s.len.toNat ∧ s.pos.toNat ≤ s.len.toNat ∧ s.len.toNat ≤ Config.bufBits

/-- The page store: page ids rise strictly and lie in `1..PID_MAX`, every page has 53 bytes, at most 32 pages are stored, and fewer
while storing is enabled; the store is empty when MID_VALID = 0 (R43, R51). -/
abbrev StoreInv (s : State) : Prop :=
  mapWf (Config.pidMax + 1) 1 s.store = true ∧ (∀ p ∈ s.store, p.2.length = Config.pageBytes) ∧
    s.count ≤ Config.slots ∧ (s.storeEn = true → s.count < Config.slots) ∧ (s.midValid = false → s.store = [])

/-- The RAMs keep their canonical form. -/
abbrev MemoryInv (s : State) : Prop :=
  s.buf.wf Config.bufBytes = true ∧ s.pageIn.wf Config.pageInBytes = true

/-- The invariant of the block: R51, LAST_MS in `0..32` (R47), and the canonical form of its data. -/
abbrev Inv (s : State) : Prop :=
  CursorInv s ∧ StoreInv s ∧ MemoryInv s ∧ s.popc.toNat ≤ 64 ∧ s.lastMs.toNat ≤ 32

/-- The states of the runs from power-on reset, for every sequence of inputs (R51 "every state reachable from reset"). -/
def Reachable (s : State) : Prop :=
  ∃ (inputs : List Input) (k : Nat),
    Host.Core.run Sys2Proof.core k { State.reset with inputs := inputs } = .next s

/-! ### The opcode map -/

/-- A row of R104: the OPC value, the range of `N` (0..0 where the column says `0`), and whether `IMM` must be zero. -/
structure OpcodeRow where
  opc : Nat
  nLo : Nat
  nHi : Nat
  immZero : Bool
  deriving DecidableEq, Repr

/-- The sixteen rows of R104. -/
def opcodeMap : List OpcodeRow :=
  [⟨0x00, 0, 0, true⟩, ⟨0x01, 0, 0, true⟩, ⟨0x02, 0, 64, true⟩, ⟨0x03, 0, 64, true⟩, ⟨0x04, 0, 0, true⟩, ⟨0x05, 0, 0, true⟩,
    ⟨0x06, 0, 64, false⟩, ⟨0x07, 0, 0, false⟩, ⟨0x08, 0, 0, true⟩, ⟨0x09, 0, 0, true⟩, ⟨0x0A, 0, 0, false⟩, ⟨0x10, 1, 64, true⟩,
    ⟨0x11, 1, 64, false⟩, ⟨0x12, 0, 64, true⟩, ⟨0x20, 0, 0, true⟩, ⟨0x21, 0, 0, true⟩]

/-- The word's fields are as some row of R104 asks. -/
def inOpcodeMap (w : Word) : Prop :=
  ∃ row ∈ opcodeMap, (opcField w).toNat = row.opc ∧ row.nLo ≤ (nField w).toNat ∧ (nField w).toNat ≤ row.nHi ∧
    (row.immZero = true → immField w = 0)

/-! ### How a command ends -/

/-- A command that completes with OK: CODE and LASTOP are written, ERR keeps its value, BUSY falls (R11, R280, R282). -/
def endOk (i : Instr) (s : State) : State := { s with code := .ok, lastop := i.opcode, inflight := none }

/-- A command that completes with an error code: CODE, LASTOP and ERR are written, BUSY falls (R11, R280, R282). -/
def endError (i : Instr) (c : Code) (s : State) : State :=
  { s with code := c, lastop := i.opcode, err := true, inflight := none }

/-- The width of a command that reads stream bits: the reads of 40_bitcursor.md §2 and of 41_field_decode.md. -/
def readWidth : Instr → Option Nat
  | .nop => none
  | .bcReset => none
  | .bcRdu n => some n.toNat
  | .bcRdi n => some n.toNat
  | .bcRem => none
  | .bcPos => none
  | .bcSubr _ n => some n.toNat
  | .bcSeek _ => none
  | .bcMark => none
  | .bcRewind => none
  | .bcReq _ => none
  | .fdRds n => some n.toNat
  | .fdRdsx n _ => some n.toNat
  | .fdRdpc n => some n.toNat
  | .hasPage => none
  | .hasClear => none

/-- The families of R104. -/
inductive Family where
  | control
  | bitCursor
  | fieldDecode
  | has
  deriving DecidableEq, Repr

/-- The family of a command (R104, column "family"). -/
def familyOf : Instr → Family
  | .nop => .control
  | .bcReset => .bitCursor
  | .bcRdu _ => .bitCursor
  | .bcRdi _ => .bitCursor
  | .bcRem => .bitCursor
  | .bcPos => .bitCursor
  | .bcSubr _ _ => .bitCursor
  | .bcSeek _ => .bitCursor
  | .bcMark => .bitCursor
  | .bcRewind => .bitCursor
  | .bcReq _ => .bitCursor
  | .fdRds _ => .fieldDecode
  | .fdRdsx _ _ => .fieldDecode
  | .fdRdpc _ => .fieldDecode
  | .hasPage => .has
  | .hasClear => .has

/-- Bit `i` of a field of `n` stream bits from `a` on, the first one most significant; 0 above the field (R9, R10). -/
def fieldBit (m : Memory) (a n i : Nat) : Bool := decide (i < n) && bufBit m (a + (n - 1 - i))

/-- Bit `i` of the same field sign-extended; 0 for a field of no bits (R10). -/
def signedFieldBit (m : Memory) (a n i : Nat) : Bool :=
  if i < n then bufBit m (a + (n - 1 - i)) else decide (0 < n) && bufBit m a

/-! ### Inputs -/

/-- The next step serves `i`, `rest` being what the host does after it: nothing is in flight, or what is in flight stays busy for at
least this access (R79; log 2). -/
def Serves (s : State) (i : Input) (rest : List Input) : Prop :=
  s.inputs = i :: rest ∧ ∀ f, s.inflight = some f → 0 < f.wait

/-! ### Pages and recovery -/

/-- The page in PAGE_IN passes the dummy check and the header checks (R239, R240). -/
def ValidPage (s : State) : Prop :=
  pageHeader s ≠ Config.dummyMarker ∧ 1 ≤ headerPid (pageHeader s) ∧ headerPid (pageHeader s) ≤ Config.pidMax ∧
    headerMt (pageHeader s) = Config.mtSupported

/-- The store a valid page is put into: the present one, or the empty one after a message-id change (R241). -/
def storeBefore (s : State) : List (Nat × List Byte) :=
  if isMessageChange (headerMid (pageHeader s)) s then [] else s.store

/-- Storing is enabled for the valid page: it was, or the page changes the message id (R241, R242). -/
def StoringEnabled (s : State) : Prop :=
  isMessageChange (headerMid (pageHeader s)) s = true ∨ s.storeEn = true

/-- The payload in PAGE_IN: byte `k` is `PAGE_IN[3 + k]`, `k = 0..52` (R112). -/
def payloadInPageIn (s : State) : List Byte := (List.range 53).map fun k => s.pageIn.read (3 + k)

/-- The store with the page in PAGE_IN put into it (R242). -/
def storeAfter (s : State) : List (Nat × List Byte) :=
  mapPut (headerPid (pageHeader s)) (payloadInPageIn s) (storeBefore s)

/-- The matrix `A` of the selected pages (R243). -/
def selectionMatrix (gen : Fin 92 → Fin 32 → Byte) (ms : Nat) (pages : List (Nat × List Byte)) : Matrix :=
  pages.map fun p => generatorRow gen ms p.1

/-- `A` is invertible: some `B` is its inverse on both sides (R236). -/
def Invertible (poly : BitVec 9) (n : Nat) (a : Matrix) : Prop :=
  ∃ b, hasShape n n b = true ∧ matMul poly n n n a b = identity n ∧ matMul poly n n n b a = identity n

/-- Page `p` of a message of `ms` rows: `⊕_{j<ms} G[p-1][j] ⊗ m[j]`, column by column (R247). -/
def encodedPage (poly : BitVec 9) (gen : Fin 92 → Fin 32 → Byte) (ms : Nat) (message : Matrix) (p : Nat) : List Byte :=
  (List.range 53).map fun k =>
    gfSum (fun j => gfMul poly ((generatorRow gen ms p).getD j 0) (entry message j k)) ms

/-! ### Polynomials over GF(2) -/

/-- The product of two polynomials over GF(2), bit `i` the coefficient of `x^i`, by the `n` low bits of the second (R232, before the
reduction). -/
def polyProduct (a b : BitVec 16) : Nat → BitVec 16
  | 0 => 0
  | n + 1 => polyProduct a b n ^^^ (if b.getLsbD n then a <<< n else 0)

/-! ### Reset values -/

/-- Every register the host reads has its reset value, and the page store and the in-flight state are as after reset (R53). -/
def HasResetValues (s : State) : Prop :=
  regWord s .id = 0x52534401 ∧ regWord s .param = 0x405C0800 ∧ regWord s .status = 0 ∧ regWord s .ctrl = 0 ∧
    regWord s .cmd = 0 ∧ regWord s .resultLo = 0 ∧ regWord s .resultHi = 0 ∧ regWord s .fdx = 0 ∧ regWord s .pos = 0 ∧
    regWord s .len = 0 ∧ regWord s .mark = 0 ∧ regWord s .psStatus = 0x40 ∧ s.inflight = none ∧ s.store = [] ∧
    s.count = 0 ∧ s.storeEn = true ∧ s.lastMid = 0 ∧ s.midValid = false ∧ s.lastMs = 0

end Sys2Proof.Machine
end

