-- ==== Sys2Proof/Certificates/Slice0/Obligations.lean ====
section
/-!
DEFINITION. The statements about QZSL6-RSD, each formalising or resting on the rules of spec/ that its docstring cites. Terms:
Sys2Proof/Safety.lean.
-/

open Sys2Proof Sys2Proof.Machine

/-! ### Encoding (30_encoding.md) -/

/-- Decode and encode agree: every well-formed command, with every operand at every value, is read back from its word (R100, R104). -/
def Obligations.DecodingAnEncodedCommandGivesItBack : Prop :=
  ∀ i : Instr, i.wellFormed = true → decode (encode i) = .command i

/-- Each word has one meaning: a word that decodes to a command is that command's own encoding, and the command is well-formed (R100,
R106). -/
def Obligations.DecodedWordIsTheEncodingOfItsCommand : Prop :=
  ∀ (w : Word) (i : Instr), decode w = .command i → i.wellFormed = true ∧ encode i = w

/-- A word is legal exactly when its fields are as some row of the opcode map R104 asks, and an illegal word in flight, once it is due,
completes with ILLEGAL_COMMAND, LASTOP its OPC and ERR set, nothing else changing (R105). When it is due is the model's choice (log 2). -/
def Obligations.IllegalWordsAreThoseOffTheOpcodeMap : Prop :=
  (∀ w : Word, (∃ i, decode w = .command i) ↔ inOpcodeMap w) ∧
    ∀ (s : State) (f : InFlight), s.inflight = some f → (f.wait = 0 ∨ s.inputs = []) → ¬ inOpcodeMap f.word →
      step s = .next { s with code := .illegalCommand, lastop := f.word.extractLsb' 24 8, err := true, inflight := none }

/-- Words written out field by field from R100 and R104 decode to the commands they stand for. -/
def Obligations.SampleWordsDecode : Prop :=
  decode (0x00#8 ++ 0x00#8 ++ 0x0000#16) = .command .nop ∧
    decode (0x03#8 ++ 0x0C#8 ++ 0x0000#16) = .command (.bcRdi 12) ∧
    decode (0x06#8 ++ 0x08#8 ++ 0x001C#16) = .command (.bcSubr 28 8) ∧
    decode (0x07#8 ++ 0x00#8 ++ 0x0021#16) = .command (.bcSeek 33) ∧
    decode (0x11#8 ++ 0x0D#8 ++ 0xF000#16) = .command (.fdRdsx 13 0xF000) ∧
    decode (0x20#8 ++ 0x00#8 ++ 0x0000#16) = .command .hasPage ∧
    decode (0x02#8 ++ 0x41#8 ++ 0x0000#16) = .illegal .width ∧
    decode (0x0B#8 ++ 0x00#8 ++ 0x0000#16) = .illegal .opcode

/-! ### The step (20_memory.md R80, R82; 60_exceptions.md R288; 70_reset_and_hazards.md R321) -/

/-- A step runs the decoded command: when the command in flight is due and its word decodes to `i`, the step is `exec i`, and nothing
is added around it. When a command is due is the model's choice (log 2). -/
def Obligations.StepRunsTheDecodedCommand : Prop :=
  ∀ (s : State) (f : InFlight) (i : Instr), s.inflight = some f → (f.wait = 0 ∨ s.inputs = []) → decode f.word = .command i →
    step s = exec i s

/-- A well-formed command's own word, placed as the host's check places it, is run by the next step.
How the host's check places a word is the model's choice (log 7). -/
def Obligations.PlacedWordRunsItsCommand : Prop :=
  ∀ (s : State) (i : Instr), i.wellFormed = true →
    step (s.withFetchWord 32 (encode i).toNat) = exec i (s.withFetchWord 32 (encode i).toNat)

/-- A host write of CMD while BUSY = 0 puts its word in flight and changes nothing else of the block (R35, R76). How many accesses see
BUSY = 1 is drawn (log 2). Accesses as a list and the response are the model's form (logs 1, 8). -/
def Obligations.CmdWriteStartsItsCommand : Prop :=
  ∀ (s : State) (w : Word) (rest : List Input), s.inflight = none → s.inputs = .write 0x00C 4 w :: rest →
    ∃ t f, step s = .next t ∧ f.word = w ∧
      t = { s with inflight := some f, inputs := rest, response := some ⟨[], false⟩, draws := s.draws + 1 }

/-- No condition stops the block: every step answers a next state, which accepts inputs as before (R286, R288); and with nothing in
flight and no input the block retains all its state (R294). That an idle step is a step that changes nothing is the model's form
(log 21). -/
def Obligations.NoConditionStopsTheBlock : Prop :=
  (∀ s : State, ∃ t, step s = .next t ∧ (t.inputs = s.inputs ∨ t.inputs = s.inputs.tail)) ∧
    ∀ s : State, s.inflight = none → s.inputs = [] → step s = .next s

/-- Every command completes (or is abandoned by a reset) after finitely many host accesses, whatever the host does (R321).
The count of accesses is the model's form of the open duration (log 2). -/
def Obligations.EveryCommandLeavesTheBlockIdle : Prop :=
  ∀ (s : State) (f : InFlight), s.inflight = some f →
    ∃ k t, k ≤ f.wait + 1 ∧ Host.Core.run Sys2Proof.core k s = .next t ∧ t.inflight = none

/-! ### BitCursor commands (40_bitcursor.md) -/

/-- R141: NOP is the all-zero word and writes STATUS only: CODE = OK, LASTOP = 0, no sticky bit cleared. -/
def Obligations.NopWritesOnlyStatus : Prop :=
  decode 0x00000000 = .command .nop ∧ encode .nop = 0x00000000 ∧
    ∀ s : State, exec .nop s = .next { s with code := .ok, lastop := 0x00, inflight := none }

/-- R140: BC_RESET sets POS, LEN and MARK to 0 and leaves everything else but STATUS; from then on, in every state whose LEN is still
what it left, every read of one bit or more raises INSUFFICIENT_DATA. -/
def Obligations.BcResetEmptiesTheBuffer : Prop :=
  encode .bcReset = 0x01000000 ∧
    ∀ s : State, ∃ t, exec .bcReset s = .next t ∧ t = endOk .bcReset { s with pos := 0, len := 0, mark := 0 } ∧
      ∀ (u : State) (i : Instr) (n : Nat), u.len = t.len → readWidth i = some n → 1 ≤ n →
        exec i u = .next (endError i .insufficientData u)

/-- R131: BC_RDU reads the `n` stream bits at POS, zero-extended, and moves POS past them; with fewer left it raises
INSUFFICIENT_DATA. -/
def Obligations.BcRduReadsAnUnsignedField : Prop :=
  ∀ (n : BitVec 8) (s : State), n.toNat ≤ 64 →
    encode (.bcRdu n) = 0x02#8 ++ n ++ 0x0000#16 ∧
    (s.pos.toNat + n.toNat ≤ s.len.toNat →
      ∃ r : BitVec 64, exec (.bcRdu n) s =
          .next (endOk (.bcRdu n) { s with result := r, pos := BitVec.ofNat 16 (s.pos.toNat + n.toNat) }) ∧
        ∀ i < 64, r.getLsbD i = fieldBit s.buf s.pos.toNat n.toNat i) ∧
    (s.len.toNat < s.pos.toNat + n.toNat → exec (.bcRdu n) s = .next (endError (.bcRdu n) .insufficientData s))

/-- R132: BC_RDI reads the `n` stream bits at POS, sign-extended, and moves POS past them; with fewer left it raises
INSUFFICIENT_DATA. -/
def Obligations.BcRdiReadsASignedField : Prop :=
  ∀ (n : BitVec 8) (s : State), n.toNat ≤ 64 →
    encode (.bcRdi n) = 0x03#8 ++ n ++ 0x0000#16 ∧
    (s.pos.toNat + n.toNat ≤ s.len.toNat →
      ∃ r : BitVec 64, exec (.bcRdi n) s =
          .next (endOk (.bcRdi n) { s with result := r, pos := BitVec.ofNat 16 (s.pos.toNat + n.toNat) }) ∧
        ∀ i < 64, r.getLsbD i = signedFieldBit s.buf s.pos.toNat n.toNat i) ∧
    (s.len.toNat < s.pos.toNat + n.toNat → exec (.bcRdi n) s = .next (endError (.bcRdi n) .insufficientData s))

/-- R133, R134: BC_REM writes `LEN - POS` and BC_POS writes POS to RESULT, always with OK; nothing else changes but STATUS. -/
def Obligations.BcRemAndBcPosReportTheCursor : Prop :=
  encode .bcRem = 0x04000000 ∧ encode .bcPos = 0x05000000 ∧
    (∀ s : State, s.pos.toNat ≤ s.len.toNat →
      ∃ r : BitVec 64, exec .bcRem s = .next (endOk .bcRem { s with result := r }) ∧ r.toNat + s.pos.toNat = s.len.toNat) ∧
    ∀ s : State, ∃ r : BitVec 64, exec .bcPos s = .next (endOk .bcPos { s with result := r }) ∧ r.toNat = s.pos.toNat

/-- R135: BC_SUBR reads the `n` stream bits at `a` without moving the cursor, when `a + n ≤ LEN` on exact integers. -/
def Obligations.BcSubrPeeksAtASubRange : Prop :=
  ∀ (a : BitVec 16) (n : BitVec 8) (s : State), n.toNat ≤ 64 →
    encode (.bcSubr a n) = 0x06#8 ++ n ++ a ∧
    (a.toNat + n.toNat ≤ s.len.toNat →
      ∃ r : BitVec 64, exec (.bcSubr a n) s = .next (endOk (.bcSubr a n) { s with result := r }) ∧
        ∀ i < 64, r.getLsbD i = fieldBit s.buf a.toNat n.toNat i) ∧
    (s.len.toNat < a.toNat + n.toNat → exec (.bcSubr a n) s = .next (endError (.bcSubr a n) .insufficientData s))

/-- R136: BC_SEEK sets POS to any target up to LEN, backward or forward, and beyond LEN raises INSUFFICIENT_DATA. -/
def Obligations.BcSeekSetsTheCursor : Prop :=
  ∀ (p : BitVec 16) (s : State),
    encode (.bcSeek p) = 0x0700#16 ++ p ∧
    (p.toNat ≤ s.len.toNat → exec (.bcSeek p) s = .next (endOk (.bcSeek p) { s with pos := p })) ∧
    (s.len.toNat < p.toNat → exec (.bcSeek p) s = .next (endError (.bcSeek p) .insufficientData s))

/-- R137, R138: BC_MARK saves POS in MARK and BC_REWIND returns to it, both always with OK; wherever the cursor went in between, BC_MARK
and then BC_REWIND bring it back. -/
def Obligations.BcMarkAndBcRewindKeepABoundary : Prop :=
  encode .bcMark = 0x08000000 ∧ encode .bcRewind = 0x09000000 ∧
    (∀ s : State, exec .bcMark s = .next (endOk .bcMark { s with mark := s.pos })) ∧
    (∀ s : State, exec .bcRewind s = .next (endOk .bcRewind { s with pos := s.mark })) ∧
    ∀ s t u v : State, exec .bcMark s = .next t → u.mark = t.mark → exec .bcRewind u = .next v → v.pos = s.pos

/-- R139: BC_REQ succeeds exactly when `m` bits are left and writes STATUS only; `m = 0` always succeeds and `m > BUF_BITS` always
raises, the cursor being within its bounds. -/
def Obligations.BcReqChecksTheLength : Prop :=
  ∀ (m : BitVec 16) (s : State),
    encode (.bcReq m) = 0x0A00#16 ++ m ∧
    (s.pos.toNat + m.toNat ≤ s.len.toNat → exec (.bcReq m) s = .next (endOk (.bcReq m) s)) ∧
    (s.len.toNat < s.pos.toNat + m.toNat → exec (.bcReq m) s = .next (endError (.bcReq m) .insufficientData s)) ∧
    (CursorInv s → m.toNat = 0 → exec (.bcReq m) s = .next (endOk (.bcReq m) s)) ∧
    (CursorInv s → 16384 < m.toNat → exec (.bcReq m) s = .next (endError (.bcReq m) .insufficientData s))

/-- R143, the all-or-nothing law: a BC_* or FD_* command that raises INSUFFICIENT_DATA leaves the state as it was but for CODE, LASTOP
and ERR, and BC_REWIND after it returns POS to what MARK held; BC_MARK puts POS there and no read changes it, so that BC_MARK, any
reads and BC_REWIND restore the boundary. -/
def Obligations.ShortReadsChangeNothing : Prop :=
  (∀ (i : Instr) (s t : State), (familyOf i = .bitCursor ∨ familyOf i = .fieldDecode) → exec i s = .next t →
    t.code = .insufficientData →
    t = { s with code := .insufficientData, lastop := i.opcode, err := true, inflight := none } ∧
      ∃ u, exec .bcRewind t = .next u ∧ u.pos = s.mark) ∧
    (∀ s t : State, exec .bcMark s = .next t → t.mark = s.pos) ∧
    ∀ (i : Instr) (s t : State), (familyOf i = .bitCursor ∨ familyOf i = .fieldDecode) → i ≠ .bcMark → i ≠ .bcReset →
      exec i s = .next t → t.mark = s.mark

/-- R144, the splitting law: `StreamBits(a, n + m) = StreamBits(a, n) · 2^m + StreamBits(a + n, m)`; and BC_RDU of `n + m` bits gives the
two results of BC_RDU `n` and BC_RDU `m` concatenated and leaves the cursor at the same place. -/
def Obligations.LongFieldsSplit : Prop :=
  (∀ (b : Memory) (a n m : Nat), streamBits b a (n + m) = streamBits b a n * 2 ^ m + streamBits b (a + n) m) ∧
    ∀ (s t u v : State) (n m k : BitVec 8), k.toNat = n.toNat + m.toNat → k.toNat ≤ 64 →
      s.pos.toNat + k.toNat ≤ s.len.toNat → exec (.bcRdu n) s = .next t → exec (.bcRdu m) t = .next u →
      exec (.bcRdu k) s = .next v →
      v.result.toNat = t.result.toNat * 2 ^ m.toNat + u.result.toNat ∧ v.pos = u.pos ∧ v.code = .ok ∧ u.code = .ok

/-! ### Field-decode commands (41_field_decode.md) -/

/-- R171: FD_RDS reads the signed field and sets UNAV exactly when its value is the min code `-2^(n-1)`; POPC becomes 0; a width of 0 is
illegal. -/
def Obligations.FdRdsFlagsTheMinCode : Prop :=
  ∀ (n : BitVec 8) (s : State), 1 ≤ n.toNat → n.toNat ≤ 64 →
    encode (.fdRds n) = 0x10#8 ++ n ++ 0x0000#16 ∧ decode 0x10000000 = .illegal .width ∧
    (s.pos.toNat + n.toNat ≤ s.len.toNat →
      ∃ (r : BitVec 64) (u : Bool), exec (.fdRds n) s = .next (endOk (.fdRds n)
          { s with result := r, unav := u, popc := 0, pos := BitVec.ofNat 16 (s.pos.toNat + n.toNat) }) ∧
        (∀ i < 64, r.getLsbD i = signedFieldBit s.buf s.pos.toNat n.toNat i) ∧
        (u = true ↔ r.toInt = -(2 ^ (n.toNat - 1)))) ∧
    (s.len.toNat < s.pos.toNat + n.toNat → exec (.fdRds n) s = .next (endError (.fdRds n) .insufficientData s))

/-- R172: FD_RDSX reads the signed field and sets UNAV exactly when its value is the sentinel; a sentinel outside the range of the field
never matches, and the min code as sentinel gives what FD_RDS gives. -/
def Obligations.FdRdsxFlagsTheGivenSentinel : Prop :=
  ∀ (n : BitVec 8) (x : BitVec 16) (s : State), 1 ≤ n.toNat → n.toNat ≤ 64 →
    encode (.fdRdsx n x) = 0x11#8 ++ n ++ x ∧
    (s.pos.toNat + n.toNat ≤ s.len.toNat →
      ∃ (r : BitVec 64) (u : Bool), exec (.fdRdsx n x) s = .next (endOk (.fdRdsx n x)
          { s with result := r, unav := u, popc := 0, pos := BitVec.ofNat 16 (s.pos.toNat + n.toNat) }) ∧
        (∀ i < 64, r.getLsbD i = signedFieldBit s.buf s.pos.toNat n.toNat i) ∧
        (u = true ↔ r.toInt = x.toInt) ∧
        (x.toInt < -(2 ^ (n.toNat - 1)) ∨ 2 ^ (n.toNat - 1) ≤ x.toInt → u = false) ∧
        (x.toInt = -(2 ^ (n.toNat - 1)) → exec (.fdRds n) s = .next (endOk (.fdRds n)
          { s with result := r, unav := u, popc := 0, pos := BitVec.ofNat 16 (s.pos.toNat + n.toNat) }))) ∧
    (s.len.toNat < s.pos.toNat + n.toNat → exec (.fdRdsx n x) s = .next (endError (.fdRdsx n x) .insufficientData s))

/-- R173: FD_RDPC reads the mask, zero-extended, and writes the number of its set bits to POPC; UNAV becomes 0. -/
def Obligations.FdRdpcCountsTheSetBits : Prop :=
  ∀ (n : BitVec 8) (s : State), n.toNat ≤ 64 →
    encode (.fdRdpc n) = 0x12#8 ++ n ++ 0x0000#16 ∧
    (s.pos.toNat + n.toNat ≤ s.len.toNat →
      ∃ (r : BitVec 64) (c : BitVec 7), exec (.fdRdpc n) s = .next (endOk (.fdRdpc n)
          { s with result := r, unav := false, popc := c, pos := BitVec.ofNat 16 (s.pos.toNat + n.toNat) }) ∧
        (∀ i < 64, r.getLsbD i = fieldBit s.buf s.pos.toNat n.toNat i) ∧
        c.toNat = ((List.range n.toNat).filter fun k => bufBit s.buf (s.pos.toNat + k)).length) ∧
    (s.len.toNat < s.pos.toNat + n.toNat → exec (.fdRdpc n) s = .next (endError (.fdRdpc n) .insufficientData s))

/-! ### Whole-machine rules about commands (60_exceptions.md; frames of R130 and R170) -/

/-- A command that raises changes nothing but CODE, LASTOP and ERR, an illegal word included; MATRIX_NOT_INVERTIBLE is the one error
completion that also changes state (the store is discarded, STORE_EN and LAST_MS are 0, and LAST_MID is the message id of the page in
PAGE_IN), and only HAS_PAGE ends so (R281, R245). The clause about it holds for every field polynomial and generator matrix, the
hardware's own included. When a word in flight is due is the model's choice (log 2). -/
def Obligations.RaisingChangesOnlyStatus : Prop :=
  (∀ (i : Instr) (s t : State), exec i s = .next t → t.code ≠ .ok → t.code ≠ .matrixNotInvertible → t = endError i t.code s) ∧
    (∀ (i : Instr) (s t : State), i ≠ .hasPage → exec i s = .next t → t.code ≠ .matrixNotInvertible) ∧
    (∀ (poly : BitVec 9) (gen : Fin 92 → Fin 32 → Byte) (s : State), (hasPageWith poly gen s).code = .matrixNotInvertible →
      hasPageWith poly gen s = endError .hasPage .matrixNotInvertible
        { s with
          store := [], storeEn := false, lastMs := 0, lastMid := headerMid (pageHeader s), midValid := true }) ∧
    (∀ s : State, exec .hasPage s = .next (hasPageWith Config.gfPoly Config.genMatrix s)) ∧
    ∀ (s : State) (f : InFlight) (why : Illegal), s.inflight = some f → (f.wait = 0 ∨ s.inputs = []) →
      decode f.word = .illegal why →
      step s = .next { s with code := .illegalCommand, lastop := f.word.extractLsb' 24 8, err := true, inflight := none }

/-- ERR is set by every completion with CODE ≠ OK, and is kept by every completion with OK; of all steps only a host write of 1 to
STATUS bit 16, a soft reset or a power-on reset clears it. CODE and LASTOP are overwritten by every completion: what they held before
does not matter (R282). When a command in flight is due to complete is the model's choice (log 2). -/
def Obligations.ErrIsSticky : Prop :=
  (∀ (s t : State) (f : InFlight), s.inflight = some f → (f.wait = 0 ∨ s.inputs = []) → step s = .next t →
      t.lastop = f.word.extractLsb' 24 8 ∧ (t.code ≠ .ok → t.err = true) ∧ (t.code = .ok → t.err = s.err) ∧
        ∀ (c : Code) (l : BitVec 8), step { s with code := c, lastop := l } = .next t) ∧
    ∀ s t : State, step s = .next t → s.err = true → t.err = false →
      (∃ v rest, s.inputs = .write 0x004 4 v :: rest ∧ v.getLsbD 16 = true) ∨
        (∃ v rest, s.inputs = .write 0x008 4 v :: rest ∧ v.getLsbD 0 = true) ∨ ∃ rest, s.inputs = .powerOn :: rest

/-- The frame of every command: none changes PAGE_IN, HAZ, REJ or the bus; BC_* commands leave FDX, BUF and the page store, FD_* commands
leave MARK, LEN, BUF and the page store, HAS_* commands leave FDX, and HAS_CLEAR also RESULT, BUF and the cursor (R130, R170, R246). -/
def Obligations.CommandsLeaveOtherUnitsAlone : Prop :=
  ∀ (i : Instr) (s t : State), exec i s = .next t →
    (t.pageIn = s.pageIn ∧ t.haz = s.haz ∧ t.rej = s.rej ∧ t.inputs = s.inputs ∧ t.response = s.response ∧
      t.draws = s.draws ∧ t.inflight = none) ∧
    (familyOf i ≠ .has → t.buf = s.buf ∧ t.store = s.store ∧ t.storeEn = s.storeEn ∧ t.lastMid = s.lastMid ∧
      t.midValid = s.midValid ∧ t.lastMs = s.lastMs) ∧
    (familyOf i ≠ .fieldDecode → t.unav = s.unav ∧ t.popc = s.popc) ∧
    (familyOf i = .fieldDecode → t.mark = s.mark ∧ t.len = s.len) ∧
    (i = .hasClear → t.result = s.result ∧ t.buf = s.buf ∧ t.pos = s.pos ∧ t.len = s.len ∧ t.mark = s.mark)

/-! ### GF(256) and matrices (43_has_rs.md R230 to R237) -/

/-- Multiplication is the polynomial product reduced modulo the field polynomial, for every 9-bit polynomial with bit 8 set: the product
and `a ⊗ b` differ by a multiple of it, and `a ⊗ b` is a byte (R232); so `0x02 ⊗ 0x80` is the polynomial without its bit 8. For every
polynomial `GF_POLY` may be (log 9) the field laws hold: addition is XOR, multiplication is commutative, associative and distributive
with 1 as identity and 0 absorbing (R230 to R232). Under the default polynomial three products are as R232 gives them. -/
def Obligations.GfMultiplicationIsAFieldProduct : Prop :=
  (∀ poly : BitVec 9, poly.getLsbD 8 = true →
    gfMul poly 0x02 0x80 = poly.extractLsb' 0 8 ∧
      ∀ a b : Byte, ∃ q : Byte, polyProduct (a.zeroExtend 16) (b.zeroExtend 16) 8 =
        polyProduct (poly.zeroExtend 16) (q.zeroExtend 16) 8 ^^^ (gfMul poly a b).zeroExtend 16) ∧
    (∀ poly ∈ Config.fieldPolys, ∀ a b c : Byte,
      gfAdd a b = a ^^^ b ∧ gfMul poly a b = gfMul poly b a ∧
        gfMul poly (gfMul poly a b) c = gfMul poly a (gfMul poly b c) ∧
        gfMul poly a (gfAdd b c) = gfAdd (gfMul poly a b) (gfMul poly a c) ∧ gfMul poly a 1 = a ∧ gfMul poly a 0 = 0) ∧
    gfMul 0x11D 0x02 0x80 = 0x1D ∧ gfMul 0x11D 0x53 0xCA = 0x8F ∧ gfMul 0x11D 0xFF 0xFF = 0xE2

/-- R233: the inverse of a nonzero element is the unique `b` with `a ⊗ b = 1`; 0 has none, and elimination inverts only nonzero pivots;
and the five inverses the rule gives for the default polynomial. -/
def Obligations.GfInverseIsUnique : Prop :=
  (∀ poly ∈ Config.fieldPolys, ∀ a b : Byte, (a ≠ 0 → (gfMul poly a b = 1 ↔ b = gfInv poly a)) ∧ gfMul poly 0 b ≠ 1) ∧
    (∀ (c : Nat) (m rest : Matrix) (pivot : List Byte), takePivot c m = some (pivot, rest) → pivot.getD c 0 ≠ 0) ∧
    gfInv 0x11D 0x01 = 0x01 ∧ gfInv 0x11D 0x02 = 0x8E ∧ gfInv 0x11D 0x03 = 0xF4 ∧ gfInv 0x11D 0x1D = 0x83 ∧
    gfInv 0x11D 0xFF = 0xFD

/-- R234: under the default polynomial `0x02` generates the nonzero elements, the tables list its powers and their exponents, and product
and inverse by the tables are those of R232 and R233. -/
def Obligations.LogTablesRealiseTheField : Prop :=
  (∀ i < 255, gfExp i = gfAlphaPow 0x11D i ∧ gfLog (gfExp i) = i) ∧
    (∀ a : Byte, a ≠ 0 → gfLog a < 255 ∧ gfExp (gfLog a) = a) ∧
    (∀ a b : Byte, a ≠ 0 → b ≠ 0 → gfMul 0x11D a b = gfExp ((gfLog a + gfLog b) % 255)) ∧
    ∀ a : Byte, a ≠ 0 → gfInv 0x11D a = gfExp ((255 - gfLog a) % 255)

/-- R237 meets R236: elimination answers `A⁻¹ · C` exactly when `A` is invertible, namely the one `X` with `A · X = C`, and reports
non-invertibility otherwise. -/
def Obligations.EliminationSolvesExactlyTheInvertible : Prop :=
  ∀ poly ∈ Config.fieldPolys, ∀ (n w : Nat) (a c : Matrix), hasShape n n a = true → hasShape n w c = true →
    (Invertible poly n a → ∃ x, solve poly n a c = some x ∧ hasShape n w x = true ∧ matMul poly n n w a x = c ∧
      ∀ y, hasShape n w y = true → matMul poly n n w a y = c → y = x) ∧
    (¬ Invertible poly n a → solve poly n a c = none)

/-- R247, selection invariance: the pages of a message, any `ms` of them with distinct ids and an invertible matrix, give the message
back. -/
def Obligations.RecoveryIsSelectionInvariant : Prop :=
  ∀ poly ∈ Config.fieldPolys, ∀ (gen : Fin 92 → Fin 32 → Byte) (ms : Nat) (message : Matrix) (pages : List (Nat × List Byte)),
    1 ≤ ms → ms ≤ 32 → hasShape ms 53 message = true → pages.length = ms → (pages.map Prod.fst).Nodup →
    (∀ p ∈ pages, 1 ≤ p.1 ∧ p.1 ≤ 92 ∧ p.2 = encodedPage poly gen ms message p.1) →
    Invertible poly ms (selectionMatrix gen ms pages) → recoveredMessage poly gen ms pages = some message

/-- R248: the order of the selected pages does not matter: permuting them changes neither whether the message is recovered nor what it
is. -/
def Obligations.RecoveryIgnoresThePageOrder : Prop :=
  ∀ poly ∈ Config.fieldPolys, ∀ (gen : Fin 92 → Fin 32 → Byte) (ms : Nat) (pages pages' : List (Nat × List Byte)),
    pages.length = ms → (∀ p ∈ pages, p.2.length = 53) → pages.Perm pages' →
    recoveredMessage poly gen ms pages = recoveredMessage poly gen ms pages'

/-- Degenerate rows (R250): a selection that holds a page whose restricted generator row is all zero, or two pages with equal restricted
rows, is not recovered. -/
def Obligations.DegenerateRowsAreNotRecovered : Prop :=
  ∀ poly ∈ Config.fieldPolys, ∀ (gen : Fin 92 → Fin 32 → Byte) (ms : Nat) (pages : List (Nat × List Byte)),
    pages.length = ms → (∀ p ∈ pages, p.2.length = 53) →
    ((∃ p ∈ pages, generatorRow gen ms p.1 = List.replicate ms 0) ∨
      (∃ i j, i < j ∧ j < ms ∧ (selectionMatrix gen ms pages).getD i [] = (selectionMatrix gen ms pages).getD j [])) →
    recoveredMessage poly gen ms pages = none

/-! ### HAS_PAGE and HAS_CLEAR (43_has_rs.md R238 to R246) -/

/-- The header fields lie where R111 and R73 put them in the bytes of PAGE_IN: PID is byte 2, MT bits 3:2 of byte 0, MID bits 1:0 of byte
0 and 7:5 of byte 1, `ms` one more than bits 4:0 of byte 1; the header is the dummy marker exactly when the bytes are AF 3B C3. -/
def Obligations.HeaderFieldsLieAsLaidOut : Prop :=
  ∀ s : State,
    headerPid (pageHeader s) = (s.pageIn.read 2).toNat ∧
      (headerMt (pageHeader s)).toNat = (s.pageIn.read 0).toNat / 4 % 4 ∧
      (headerMid (pageHeader s)).toNat = (s.pageIn.read 0).toNat % 4 * 8 + (s.pageIn.read 1).toNat / 32 ∧
      headerMs (pageHeader s) = (s.pageIn.read 1).toNat % 32 + 1 ∧
      (pageHeader s = Config.dummyMarker ↔
        s.pageIn.read 0 = 0xAF ∧ s.pageIn.read 1 = 0x3B ∧ s.pageIn.read 2 = 0xC3)

/-- R239: a dummy page is discarded with RESULT = 3 (DUMMY) and CODE = OK, and nothing else changes, whatever the page store holds. -/
def Obligations.HasPageDiscardsDummyPages : Prop :=
  ∀ s : State, pageHeader s = 0xAF3BC3#24 → exec .hasPage s = .next (endOk .hasPage { s with result := 3 })

/-- The header checks (R240): a page id of 0 or above 92 raises MALFORMED_HEADER, and then a message type other than 1 raises
UNSUPPORTED_MSG_TYPE; neither changes anything but STATUS. -/
def Obligations.HasPageRejectsBadHeaders : Prop :=
  ∀ s : State, pageHeader s ≠ 0xAF3BC3#24 →
    (headerPid (pageHeader s) = 0 ∨ 92 < headerPid (pageHeader s) →
      exec .hasPage s = .next (endError .hasPage .malformedHeader s)) ∧
    (1 ≤ headerPid (pageHeader s) → headerPid (pageHeader s) ≤ 92 → headerMt (pageHeader s) ≠ 1 →
      exec .hasPage s = .next (endError .hasPage .unsupportedMsgType s))

/-- Ignoring (R242): a valid page of the current message id that comes while STORE_EN = 0 ends with RESULT = 2 (IGNORED) and CODE = OK,
and nothing else changes. -/
def Obligations.HasPageIgnoresWhileStoringIsDisabled : Prop :=
  ∀ s : State, ValidPage s → s.midValid = true → s.lastMid = headerMid (pageHeader s) → s.storeEn = false →
    exec .hasPage s = .next (endOk .hasPage { s with result := 2 })

/-- Storing (R241, R242): a valid page that leaves COUNT below its `ms` is recorded under its id, in the emptied store when it changes the
message id, and ends with RESULT = 0 (STORED); COUNT rises by one exactly when its id is new; every other stored page stays. -/
def Obligations.HasPageStoresAValidPage : Prop :=
  ∀ s : State, Inv s → ValidPage s → StoringEnabled s → (storeAfter s).length < headerMs (pageHeader s) →
    ∃ t, exec .hasPage s = .next t ∧
      t = endOk .hasPage { s with
        result := 0, store := t.store, storeEn := true, lastMid := headerMid (pageHeader s), midValid := true,
        lastMs := BitVec.ofNat 6 (headerMs (pageHeader s)) } ∧
      (∀ q, mapGet q t.store =
        if q = headerPid (pageHeader s) then some (payloadInPageIn s) else mapGet q (storeBefore s)) ∧
      t.count = (storeBefore s).length + if (mapGet (headerPid (pageHeader s)) (storeBefore s)).isSome then 0 else 1

/-- R249: the store never exceeds 32 pages, and a valid page of another message id leaves no page of the old id: whatever is stored
afterwards is that page alone, or nothing. -/
def Obligations.MessageChangeClearsTheStore : Prop :=
  ∀ s t : State, Inv s → exec .hasPage s = .next t →
    t.count ≤ 32 ∧
      (ValidPage s → s.midValid = false ∨ s.lastMid ≠ headerMid (pageHeader s) →
        t.lastMid = headerMid (pageHeader s) ∧ t.midValid = true ∧
          (t.store = [(headerPid (pageHeader s), payloadInPageIn s)] ∨ t.store = []))

/-- Recovery (R243 to R245), for every field polynomial and generator matrix: once COUNT reaches `ms` the `ms` least page ids are
selected. If their matrix `A` is invertible, BUF receives the rows of the message `M` with `A · M = C`, the cursor is at its start with
LEN = 424·ms, the store keeps its pages with storing disabled, RESULT = 1; BUF beyond byte 53·ms is unchanged. If not, the store is
emptied and the command ends with MATRIX_NOT_INVERTIBLE. `exec` is the case of the hardware's own parameters. That LAST_MS keeps `ms`
after a success is the model's reading (log 25), that the hardware's polynomial is among the thirty its form of GF_POLY (log 9). -/
def Obligations.HasPageRecoversTheMessage : Prop :=
  (∀ poly ∈ Config.fieldPolys, ∀ (gen : Fin 92 → Fin 32 → Byte) (s : State),
    Inv s → ValidPage s → StoringEnabled s → headerMs (pageHeader s) ≤ (storeAfter s).length →
    let ms := headerMs (pageHeader s)
    let pages := (storeAfter s).take ms
    (Invertible poly ms (selectionMatrix gen ms pages) →
      ∃ b : Memory, hasPageWith poly gen s = endOk .hasPage { s with
          result := 1, buf := b, len := BitVec.ofNat 16 (424 * ms), pos := 0, mark := 0, store := storeAfter s,
          storeEn := false, lastMid := headerMid (pageHeader s), midValid := true, lastMs := BitVec.ofNat 6 ms } ∧
        (∀ i < ms, ∀ k < 53,
          gfSum (fun j => gfMul poly (entry (selectionMatrix gen ms pages) i j) (b.read (53 * j + k))) ms =
            entry (pages.map Prod.snd) i k) ∧
        ∀ a, 53 * ms ≤ a → b.read a = s.buf.read a) ∧
    (¬ Invertible poly ms (selectionMatrix gen ms pages) →
      hasPageWith poly gen s = endError .hasPage .matrixNotInvertible { s with
        store := [], storeEn := false, lastMid := headerMid (pageHeader s), midValid := true, lastMs := 0 })) ∧
    Config.gfPoly ∈ Config.fieldPolys ∧
    ∀ s : State, exec .hasPage s = .next (hasPageWith Config.gfPoly Config.genMatrix s)

/-- R246: HAS_CLEAR empties the page store: PS_STATUS reads 0x40, the next valid page counts as a message-id change, and nothing else
changes but STATUS. -/
def Obligations.HasClearEmptiesTheStore : Prop :=
  encode .hasClear = 0x21000000 ∧
    ∀ s : State, ∃ t, exec .hasClear s = .next t ∧
      t = endOk .hasClear { s with store := [], storeEn := true, midValid := false, lastMid := 0, lastMs := 0 } ∧
      psStatusWord t = 0x00000040 ∧ isMessageChange (headerMid (pageHeader t)) t = true

/-! ### The invariant (10_state.md R51) -/

/-- The state after power-on reset satisfies the invariant. -/
def Obligations.ResetSatisfiesTheInvariant : Prop := Inv State.reset

/-- Every step keeps the invariant: the cursor stays within LEN and LEN within BUF, the page store stays within its bounds and in
canonical form, the RAMs keep theirs. -/
def Obligations.EveryStepKeepsTheInvariant : Prop :=
  ∀ s t : State, Inv s → step s = .next t → Inv t

/-- R51: what holds in every state reachable from reset, for every sequence of host accesses and power-on resets. -/
def Obligations.ReachableStatesAreWithinBounds : Prop :=
  ∀ s : State, Reachable s →
    s.mark.toNat ≤ s.len.toNat ∧ s.pos.toNat ≤ s.len.toNat ∧ s.len.toNat ≤ 16384 ∧ s.count = s.store.length ∧
      (s.store.map Prod.fst).Nodup ∧ s.count ≤ 32 ∧
      (∀ p ∈ s.store, 1 ≤ p.1 ∧ p.1 ≤ 92) ∧ (s.midValid = false → s.store = []) ∧ s.code.bits.toNat ≤ 5 ∧ s.popc.toNat ≤ 64

/-! ### The host bus (20_memory.md) -/

/-- R77: a register admits only a 4-byte access at its 4-aligned offset; BUF and PAGE_IN admit 1-, 2- and 4-byte accesses at a multiple of
the size, lying wholly inside; everything else is not admitted and is rejected: an error response, data 0, REJ set, nothing else.
The form of the response is the model's choice (log 8). -/
def Obligations.AdmittedAccessesAreTheAlignedOnes : Prop :=
  (∀ off size : Nat, (target off size).isSome = true ↔
      (off % 4 = 0 ∧ off ≤ 0x2C ∧ size = 4) ∨
        ((size = 1 ∨ size = 2 ∨ size = 4) ∧ off % size = 0 ∧
          ((0x100 ≤ off ∧ off + size ≤ 0x138) ∨ (0x1000 ≤ off ∧ off + size ≤ 0x1800)))) ∧
    (∀ (s : State) (off : BitVec 13) (size : Nat) (rest : List Input), Serves s (.read off size) rest →
      target off.toNat size = none →
      step s = .next { takeInput s with rej := true, response := some ⟨List.replicate size 0, true⟩ }) ∧
    ∀ (s : State) (off : BitVec 13) (size : Nat) (v : Word) (rest : List Input), Serves s (.write off size v) rest →
      target off.toNat size = none → step s = .next { takeInput s with rej := true, response := some ⟨[], true⟩ }

/-- Writes of the read-only registers are rejected, busy or not: an error response and REJ, nothing else (R78). -/
def Obligations.ReadOnlyRegistersRejectWrites : Prop :=
  ∀ (s : State) (off : BitVec 13) (v : Word) (rest : List Input), Serves s (.write off 4 v) rest →
    off ∈ [0x000#13, 0x010#13, 0x014#13, 0x018#13, 0x01C#13, 0x024#13, 0x028#13, 0x02C#13] →
    step s = .next { takeInput s with rej := true, response := some ⟨[], true⟩ }

/-- A host read changes no state of the block but REJ, and REJ only when it is not admitted (R75, R81); the model's own response and draw
count may change. -/
def Obligations.HostReadsHaveNoSideEffect : Prop :=
  ∀ (s t : State) (off : BitVec 13) (size : Nat) (rest : List Input), Serves s (.read off size) rest → step s = .next t →
    t = { takeInput s with rej := t.rej, response := t.response, draws := t.draws } ∧
      ((target off.toNat size).isSome = true → t.rej = s.rej)

/-- An idle block answers an admitted read with the bytes that stand at the address: a RAM byte for each lane, or the register's word,
least significant byte in lane 0 (R74, R75). The twelve registers stand at the offsets of R71: RESULT_LO and RESULT_HI are the halves
of RESULT (R39), FDX shows UNAV in bit 0 and POPC in bits 14:8 (R41), POS, LEN and MARK read with zeros above their 16 bits (R36 to
R38), CTRL and CMD read 0 (R34, R35). The form of the response is the model's choice (log 8). -/
def Obligations.IdleReadsReturnTheContents : Prop :=
  ∀ (s : State) (off : BitVec 13) (size : Nat) (rest : List Input), s.inflight = none → s.inputs = .read off size :: rest →
    (∀ r : Reg, target off.toNat size = some (.reg r) → ∃ d, d.length = 4 ∧
      step s = .next { s with inputs := rest, response := some ⟨d, false⟩ } ∧
      regWord s r = d.getD 3 0 ++ d.getD 2 0 ++ d.getD 1 0 ++ d.getD 0 0) ∧
    (∀ w : Word, size = 4 →
      (off, w) ∈ [(0x000#13, 0x52534401#32), (0x004, statusWord s), (0x008, 0), (0x00C, 0), (0x010, s.result.extractLsb' 0 32),
        (0x014, s.result.extractLsb' 32 32), (0x018, 0#17 ++ s.popc ++ 0#7 ++ BitVec.ofBool s.unav), (0x01C, 0#16 ++ s.pos),
        (0x020, 0#16 ++ s.len), (0x024, 0#16 ++ s.mark), (0x028, psStatusWord s), (0x02C, 0x405C0800)] →
      step s = .next { s with
        inputs := rest,
        response := some ⟨[w.extractLsb' 0 8, w.extractLsb' 8 8, w.extractLsb' 16 8, w.extractLsb' 24 8], false⟩ }) ∧
    (∀ a : Nat, target off.toNat size = some (.buf a) → a + 0x1000 = off.toNat ∧
      step s = .next { s with
        inputs := rest, response := some ⟨(List.range size).map fun i => s.buf.read (a + i), false⟩ }) ∧
    ∀ a : Nat, target off.toNat size = some (.pageIn a) → a + 0x100 = off.toNat ∧
      step s = .next { s with
        inputs := rest, response := some ⟨(List.range size).map fun i => s.pageIn.read (a + i), false⟩ }

/-- An idle block's RAMs take the bytes of an admitted write, lane `i` at address `a + i`; every other byte, and everything else, is
unchanged (R74, R76). -/
def Obligations.IdleWritesStoreTheirBytes : Prop :=
  ∀ (s : State) (off : BitVec 13) (size : Nat) (v : Word) (rest : List Input), s.inflight = none →
    s.inputs = .write off size v :: rest →
    (∀ a : Nat, target off.toNat size = some (.buf a) → a + 0x1000 = off.toNat ∧
      ∃ b : Memory, step s = .next { s with buf := b, inputs := rest, response := some ⟨[], false⟩ } ∧
        (∀ i < size, b.read (a + i) = v.extractLsb' (8 * i) 8) ∧ ∀ x, x < a ∨ a + size ≤ x → b.read x = s.buf.read x) ∧
    ∀ a : Nat, target off.toNat size = some (.pageIn a) → a + 0x100 = off.toNat ∧
      ∃ b : Memory, step s = .next { s with pageIn := b, inputs := rest, response := some ⟨[], false⟩ } ∧
        (∀ i < size, b.read (a + i) = v.extractLsb' (8 * i) 8) ∧ ∀ x, x < a ∨ a + size ≤ x → b.read x = s.pageIn.read x

/-- Stream bits are most significant first (R72): the eight stream bits of BUF byte `j` read as one field are that byte, and a byte
written at offset `j` of BUF is what a field of 8 bits at `8 j` then reads. -/
def Obligations.StreamBitsAreMostSignificantFirst : Prop :=
  ∀ (m : Memory) (j : Nat) (b : Byte),
    streamBits m (8 * j) 8 = (m.read j).toNat ∧ streamBits (m.write j b) (8 * j) 8 = b.toNat ∧
      ∀ k n, 8 * j + 8 ≤ k ∨ k + n ≤ 8 * j → streamBits (m.write j b) k n = streamBits m k n

/-- R79: while BUSY = 1 an admitted write that is not rejected and not to CTRL is dropped: HAZ is set, no error response, nothing else
changes; a read of ID, PARAM or STATUS returns its value; any other admitted read answers some bytes, one a lane, and changes nothing.
The unspecified value is a free draw (log 5), the count the model's (log 2). -/
def Obligations.BusyAccessesAreDroppedOrAnswered : Prop :=
  ∀ (s : State) (f : InFlight) (rest : List Input), s.inflight = some f → 0 < f.wait →
    (∀ (off : BitVec 13) (size : Nat) (v : Word) (tgt : Target), s.inputs = .write off size v :: rest →
      target off.toNat size = some tgt → writeRefused v s tgt = false → tgt ≠ .reg .ctrl →
      step s = .next { s with
        haz := true, inputs := rest, inflight := some { f with wait := f.wait - 1 }, response := some ⟨[], false⟩ }) ∧
    (∀ (off : BitVec 13) (w : Word), s.inputs = .read off 4 :: rest →
      (off = 0x000#13 ∧ w = 0x52534401) ∨ (off = 0x004#13 ∧ w = statusWord s) ∨ (off = 0x02C#13 ∧ w = 0x405C0800) →
      step s = .next { s with
        inputs := rest, inflight := some { f with wait := f.wait - 1 },
        response := some ⟨[w.extractLsb' 0 8, w.extractLsb' 8 8, w.extractLsb' 16 8, w.extractLsb' 24 8], false⟩ }) ∧
    ∀ (off : BitVec 13) (size : Nat) (tgt : Target), s.inputs = .read off size :: rest →
      target off.toNat size = some tgt → readableWhileBusy tgt = false → ∃ d, d.length = size ∧
      step s = .next { s with
        inputs := rest, inflight := some { f with wait := f.wait - 1 }, response := some ⟨d, false⟩, draws := s.draws + 1 }

/-- A write of LEN while BUSY = 0 is accepted iff the value is at most BUF_BITS (so bits 31:16 are 0) and at least POS and MARK; any other
is rejected (R37). A value that R37 refuses is rejected while BUSY = 1 too: REJ is set, not HAZ, and LEN stays (R78, R79's last
sentence; log 14). The form of the response and the count of accesses are the model's choice (logs 8, 2). -/
def Obligations.LenWriteIsAcceptedWithinBounds : Prop :=
  (∀ (s : State) (v : Word) (rest : List Input), s.inflight = none → s.inputs = .write 0x020 4 v :: rest →
    (v.extractLsb' 16 16 = 0 ∧ v.toNat ≤ 16384 ∧ s.pos.toNat ≤ v.toNat ∧ s.mark.toNat ≤ v.toNat →
      ∃ l : BitVec 16, l.toNat = v.toNat ∧
        step s = .next { s with len := l, inputs := rest, response := some ⟨[], false⟩ }) ∧
    (¬ (v.extractLsb' 16 16 = 0 ∧ v.toNat ≤ 16384 ∧ s.pos.toNat ≤ v.toNat ∧ s.mark.toNat ≤ v.toNat) →
      step s = .next { s with rej := true, inputs := rest, response := some ⟨[], true⟩ })) ∧
    ∀ (s : State) (f : InFlight) (v : Word) (rest : List Input), s.inflight = some f → 0 < f.wait →
      s.inputs = .write 0x020 4 v :: rest →
      ¬ (v.extractLsb' 16 16 = 0 ∧ v.toNat ≤ 16384 ∧ s.pos.toNat ≤ v.toNat ∧ s.mark.toNat ≤ v.toNat) →
      step s = .next { s with
        rej := true, inputs := rest, inflight := some { f with wait := f.wait - 1 }, response := some ⟨[], true⟩ }

/-- STATUS (R33): its fields stand where the table puts them, reserved bits read 0; CODE is the number R280 gives the status code; and a
write while BUSY = 0 clears those of ERR, HAZ, REJ whose written bit is 1, leaves the others, and changes nothing else. The form of the
response is the model's choice (log 8). -/
def Obligations.StatusFieldsAndWriteOneToClear : Prop :=
  (∀ s : State,
    (statusWord s).getLsbD 0 = s.inflight.isSome ∧ (statusWord s).extractLsb' 1 3 = 0 ∧
      (statusWord s).extractLsb' 4 4 = s.code.bits ∧ (statusWord s).extractLsb' 8 8 = s.lastop ∧
      (statusWord s).getLsbD 16 = s.err ∧ (statusWord s).getLsbD 17 = s.haz ∧ (statusWord s).getLsbD 18 = s.rej ∧
      (statusWord s).extractLsb' 19 13 = 0) ∧
    (Code.bits .ok = 0 ∧ Code.bits .insufficientData = 1 ∧ Code.bits .illegalCommand = 2 ∧ Code.bits .malformedHeader = 3 ∧
      Code.bits .matrixNotInvertible = 4 ∧ Code.bits .unsupportedMsgType = 5) ∧
    ∀ (s : State) (v : Word) (rest : List Input), s.inflight = none → s.inputs = .write 0x004 4 v :: rest →
      step s = .next { s with
        err := s.err && !v.getLsbD 16, haz := s.haz && !v.getLsbD 17, rej := s.rej && !v.getLsbD 18,
        inputs := rest, response := some ⟨[], false⟩ }

/-- R48: the fields of PS_STATUS, its reserved bits reading 0, its reset value, and writes rejected. -/
def Obligations.PsStatusShowsThePageStore : Prop :=
  (∀ s : State,
    (psStatusWord s).extractLsb' 0 6 = BitVec.ofNat 6 s.count ∧ (psStatusWord s).getLsbD 6 = s.storeEn ∧
      (psStatusWord s).getLsbD 7 = s.midValid ∧ (psStatusWord s).extractLsb' 8 5 = s.lastMid ∧
      (psStatusWord s).extractLsb' 13 3 = 0 ∧ (psStatusWord s).extractLsb' 16 6 = s.lastMs ∧
      (psStatusWord s).extractLsb' 22 10 = 0) ∧
    psStatusWord State.reset = 0x00000040 ∧
    ∀ (s : State) (v : Word) (rest : List Input), Serves s (.write 0x028 4 v) rest →
      step s = .next { takeInput s with rej := true, response := some ⟨[], true⟩ }

/-! ### Reset (70_reset_and_hazards.md) -/

/-- Power-on reset (R53, R311): after `rst_n`, from any state, and in the model's reset state, every register reads its reset value, the
page store is empty and nothing is in flight. Power-on reset as an input is the model's form (log 16). -/
def Obligations.PowerOnGivesTheResetValues : Prop :=
  HasResetValues State.reset ∧
    ∀ (s : State) (rest : List Input), Serves s .powerOn rest → ∃ t, step s = .next t ∧ t.inputs = rest ∧ HasResetValues t

/-- Soft reset (R312): a write of CTRL with bit 0 set, busy or not, gives every register its reset value, clears the sticky bits, abandons
the command in flight and keeps the bytes of PAGE_IN; BUF keeps its bytes too, unless a HAS_PAGE that would have recovered a message was
in flight, when it may be unspecified; a write with bit 0 clear changes nothing.
When a recovery counts as being written is the model's reading (log 4). -/
def Obligations.SoftResetKeepsTheRams : Prop :=
  ∀ (s : State) (v : Word) (rest : List Input), Serves s (.write 0x008 4 v) rest →
    (v.getLsbD 0 = true → ∃ t, step s = .next t ∧ t.inputs = rest ∧ HasResetValues t ∧ t.pageIn = s.pageIn ∧
      (t.buf = s.buf ∨ ∃ f u, s.inflight = some f ∧ decode f.word = .command .hasPage ∧ exec .hasPage s = .next u ∧
        u.code = .ok ∧ u.result = 1 ∧ t.buf.cells = [])) ∧
    (v.getLsbD 0 = false → step s = .next { takeInput s with response := some ⟨[], false⟩ })

/-! ### The host's side (30_encoding.md R108, R109; 42_subtype_layouts.md) -/

/-- The assembler yields only legal words (R108): whatever command it accepts is well-formed. It accepts the operands that lie in their
ranges and no others: widths up to 64, from 0 or from 1 as R104 says, positions and counts in 0..65535, sentinels in
-32768..32767, each encoded as it stands. The eight mnemonics without operands stand for their commands, and a wrong number of operands
is refused. The four pseudo-instructions expand as R109 says. A line of each mnemonic, as R108 spells it, has its command's word; the
example FD_RDSX 13, -4096 encodes as 0x110DF000. The assembler's reading of a line is log 23. -/
def Obligations.AssembledCommandsAreLegal : Prop :=
  (∀ (m : Mnemonic) (ops : List Int) (i : Instr), assemble m ops = some i → i.wellFormed = true) ∧
    (∀ p : Int, 0 ≤ p ∧ p ≤ 65535 →
      ∃ b : BitVec 16, (b.toNat : Int) = p ∧ assemble .bcSeek [p] = some (.bcSeek b) ∧ assemble .bcReq [p] = some (.bcReq b)) ∧
    (∀ p : Int, ¬ (0 ≤ p ∧ p ≤ 65535) →
      assemble .bcSeek [p] = none ∧ assemble .bcReq [p] = none ∧ ∀ n, assemble .bcSubr [p, n] = none) ∧
    (∀ n : Int, 0 ≤ n ∧ n ≤ 64 →
      ∃ b : BitVec 8, (b.toNat : Int) = n ∧ assemble .bcRdu [n] = some (.bcRdu b) ∧ assemble .bcRdi [n] = some (.bcRdi b) ∧
        assemble .fdRdpc [n] = some (.fdRdpc b) ∧ (1 ≤ n → assemble .fdRds [n] = some (.fdRds b)) ∧
        (∀ p : Int, 0 ≤ p ∧ p ≤ 65535 → ∃ a : BitVec 16, (a.toNat : Int) = p ∧ assemble .bcSubr [p, n] = some (.bcSubr a b)) ∧
        ∀ x : Int, 1 ≤ n → -32768 ≤ x ∧ x ≤ 32767 →
          ∃ y : BitVec 16, y.toInt = x ∧ assemble .fdRdsx [n, x] = some (.fdRdsx b y)) ∧
    (∀ n : Int, ¬ (0 ≤ n ∧ n ≤ 64) →
      assemble .bcRdu [n] = none ∧ assemble .bcRdi [n] = none ∧ assemble .fdRdpc [n] = none ∧
        ∀ p, assemble .bcSubr [p, n] = none) ∧
    (∀ n : Int, ¬ (1 ≤ n ∧ n ≤ 64) → assemble .fdRds [n] = none ∧ ∀ x, assemble .fdRdsx [n, x] = none) ∧
    (∀ n x : Int, ¬ (-32768 ≤ x ∧ x ≤ 32767) → assemble .fdRdsx [n, x] = none) ∧
    (assemble .bcRdBit [] = some (.bcRdu 1) ∧ (∀ n : Int, assemble .bcRdMask [n] = assemble .fdRdpc [n]) ∧
      assemble .bcRewind0 [] = some (.bcSeek 0) ∧ ∀ p : Int, assemble .bcSkipTo [p] = assemble .bcSeek [p]) ∧
    (assemble .nop [] = some .nop ∧ assemble .bcReset [] = some .bcReset ∧ assemble .bcRem [] = some .bcRem ∧
      assemble .bcPos [] = some .bcPos ∧ assemble .bcMark [] = some .bcMark ∧ assemble .bcRewind [] = some .bcRewind ∧
      assemble .hasPage [] = some .hasPage ∧ assemble .hasClear [] = some .hasClear) ∧
    (∀ ops : List Int,
      (∀ m ∈ [Mnemonic.nop, .bcReset, .bcRem, .bcPos, .bcMark, .bcRewind, .hasPage, .hasClear, .bcRdBit, .bcRewind0],
        ops.length ≠ 0 → assemble m ops = none) ∧
      (∀ m ∈ [Mnemonic.bcRdu, .bcRdi, .fdRds, .fdRdpc, .bcSeek, .bcReq, .bcRdMask, .bcSkipTo],
        ops.length ≠ 1 → assemble m ops = none) ∧
      ∀ m ∈ [Mnemonic.bcSubr, .fdRdsx], ops.length ≠ 2 → assemble m ops = none) ∧
    (∀ line ∈ [("NOP", 0x00000000#32), ("BC_RESET", 0x01000000), ("BC_RDU 7", 0x02070000), ("BC_RDI 12", 0x030C0000),
        ("BC_REM", 0x04000000), ("BC_POS", 0x05000000), ("BC_SUBR 28, 4", 0x0604001C), ("BC_SEEK 33", 0x07000021),
        ("BC_MARK", 0x08000000), ("BC_REWIND", 0x09000000), ("BC_REQ 0x3D", 0x0A00003D), ("FD_RDS 15", 0x100F0000),
        ("FD_RDSX 13, -4096", 0x110DF000), ("FD_RDPC 40", 0x12280000), ("HAS_PAGE", 0x20000000), ("HAS_CLEAR", 0x21000000)],
      assembleLine line.1 = some line.2) ∧
    (∀ line ∈ [("BC_RDBIT", 0x02010000#32), ("BC_RDMASK 16", 0x12100000), ("BC_REWIND0", 0x07000000), ("BC_SKIPTO 33", 0x07000021),
        ("BC_REM ; bits left", 0x04000000)],
      assembleLine line.1 = some line.2) ∧
    (assemble .fdRdsx [13, -4096]).map encode = some 0x110DF000

/-- Decoded values (R174, R175). After FD_RDS or FD_RDSX of `n` bits completes with OK, the decoded value is none exactly when the raw
field is the sentinel, `-2^(n-1)` or the one given, and is otherwise the signed field; of a field of the layouts with a scale it is
then `raw × scale`. A field read by BC_RDU is never unavailable, whatever FDX holds: it is its unsigned bits, times its scale if it has
one. Scales in ten-thousandths and fields as data are the model's form (log 19). -/
def Obligations.SentinelsDecodeAsUnavailable : Prop :=
  (∀ (n : BitVec 8) (s t : State), 1 ≤ n.toNat → n.toNat ≤ 64 → exec (.fdRds n) s = .next t → t.code = .ok →
    (t.result.toInt = -(2 ^ (n.toNat - 1)) → decodedRaw t = none) ∧
      (t.result.toInt ≠ -(2 ^ (n.toNat - 1)) → decodedRaw t = some t.result.toInt)) ∧
    (∀ (n : BitVec 8) (x : BitVec 16) (s t : State), 1 ≤ n.toNat → n.toNat ≤ 64 → exec (.fdRdsx n x) s = .next t → t.code = .ok →
      (t.result.toInt = x.toInt → decodedRaw t = none) ∧ (t.result.toInt ≠ x.toInt → decodedRaw t = some t.result.toInt)) ∧
    (∀ (f : Field) (k : Nat) (s t : State), f.scale = some k → 1 ≤ f.width → f.width ≤ 64 →
      (f.reader = .rds ∨ ∃ x : Int, -32768 ≤ x ∧ x ≤ 32767 ∧ f.reader = .rdsx x) → exec f.command s = .next t → t.code = .ok →
      (f.sentinel = some t.result.toInt → decodedScaled f t = none) ∧
        (f.sentinel ≠ some t.result.toInt → decodedScaled f t = some (t.result.toInt * (k : Int)))) ∧
    ∀ (f : Field) (s t : State), f.reader = .rdu → f.width ≤ 64 → exec f.command s = .next t → t.code = .ok →
      f.sentinel = none ∧
        decodedScaled f t = some ((streamBits s.buf s.pos.toNat f.width : Int) * ((f.scale.getD 1 : Nat) : Int))

/-- Length first (R207): BC_REQ with the operand the host gives it for a list of fields completes with OK exactly when all their bits are
left, however many they are, and otherwise raises INSUFFICIENT_DATA; either way nothing but STATUS changes. The operand for more bits
than it holds is the model's (log 26). -/
def Obligations.LengthChecksAreExact : Prop :=
  ∀ (fields : List Field) (s : State), CursorInv s →
    (s.pos.toNat + (fields.map Field.width).sum ≤ s.len.toNat →
      exec (lengthCheck fields) s = .next (endOk (lengthCheck fields) s)) ∧
    (s.len.toNat < s.pos.toNat + (fields.map Field.width).sum →
      exec (lengthCheck fields) s = .next (endError (lengthCheck fields) .insufficientData s))

/-- The host window lies at BASE (R70, R291): an access of the host reaches the block, at the byte offset its address has from BASE, exactly
when the address is one of the 8192 from BASE on, wherever the platform puts BASE; the inputs of the block are those accesses in
program order. Addresses as natural numbers are the model's form (log 11). -/
def Obligations.HostWindowLiesAtBase : Prop :=
  (∀ (base address size : Nat) (v : Word),
    (∀ offset : BitVec 13, address = base + offset.toNat →
      (HostAccess.memRead address size).input base = some (.read offset size) ∧
        (HostAccess.memWrite address size v).input base = some (.write offset size v)) ∧
    (address < base ∨ base + 8192 ≤ address →
      (HostAccess.memRead address size).input base = none ∧ (HostAccess.memWrite address size v).input base = none)) ∧
    ∀ (a : HostAccess) (rest : List HostAccess),
      (∀ i, a.input Config.base = some i → arriving (a :: rest) = i :: arriving rest) ∧
        (a.input Config.base = none → arriving (a :: rest) = arriving rest)
end

