-- ==== Sys2Proof/Laws/Decode.lean ====
section
/-!
SUPPORT. The three fields of an encoded word.
-/

namespace Sys2Proof

@[simp] theorem opcField_append (o n : BitVec 8) (i : BitVec 16) : opcField (o ++ n ++ i) = o := by
  unfold opcField
  ext j hj
  rw [BitVec.getElem_extractLsb', BitVec.getLsbD_append, BitVec.getLsbD_append]
  rw [if_neg (by omega), if_neg (by omega), show 24 + j - 16 - 8 = j by omega, BitVec.getLsbD_eq_getElem hj]

@[simp] theorem nField_append (o n : BitVec 8) (i : BitVec 16) : nField (o ++ n ++ i) = n := by
  unfold nField
  ext j hj
  rw [BitVec.getElem_extractLsb', BitVec.getLsbD_append, BitVec.getLsbD_append]
  rw [if_neg (by omega), if_pos (by omega), show 16 + j - 16 = j by omega, BitVec.getLsbD_eq_getElem hj]

@[simp] theorem immField_append (o n : BitVec 8) (i : BitVec 16) : immField (o ++ n ++ i) = i := by
  unfold immField
  ext j hj
  rw [BitVec.getElem_extractLsb', BitVec.getLsbD_append, BitVec.getLsbD_append]
  rw [if_pos (by omega), Nat.zero_add, BitVec.getLsbD_eq_getElem hj]

/-- A word is its three fields. -/
theorem word_eq_fields (w : Word) : opcField w ++ nField w ++ immField w = w := by
  unfold opcField nField immField
  ext j hj
  simp only [BitVec.getElem_append, BitVec.getElem_extractLsb']
  split
  · simp [BitVec.getLsbD_eq_getElem hj]
  · split
    · rw [show 16 + (j - 16) = j by omega, BitVec.getLsbD_eq_getElem hj]
    · rw [show 24 + (j - 16 - 8) = j by omega, BitVec.getLsbD_eq_getElem hj]

/-- The width check, as inequalities. -/
theorem widthInRange_iff (lo : Nat) (n : BitVec 8) : widthInRange lo n = true ↔ lo ≤ n.toNat ∧ n.toNat ≤ 64 := by
  simp [widthInRange]

/-- A word of 32 bits is the word the host's check places for its number. -/
theorem tableWord_toNat (w : Word) : tableWord 32 w.toNat = w := by
  simp [tableWord, Nat.mod_eq_of_lt w.isLt]

end Sys2Proof
end

