-- ==== Sys2Proof/Laws/Maps.lean ====
section
/-!
SUPPORT. The maps by rising key: what is found after a put, the canonical form is kept, and what a put does to the length.
-/

namespace Sys2Proof.Machine

variable {β : Type}

theorem mapGet_mapPut (k q : Nat) (v : β) (m : List (Nat × β)) :
    mapGet q (mapPut k v m) = if q = k then some v else mapGet q m := by
  induction m with
  | nil => simp [mapPut, mapGet]
  | cons e t ih =>
    obtain ⟨x, w⟩ := e
    simp only [mapPut]
    split
    · simp [mapGet]
    · split
      · next hx => subst hx; simp only [mapGet]; split <;> rfl
      · next h1 h2 =>
        simp only [mapGet, ih]
        by_cases hq : q = x
        · subst hq; rw [if_pos rfl, if_neg (fun e => h2 e.symm), if_pos rfl]
        · simp [hq]

theorem mapWf_mono (m : List (Nat × β)) (hi lo lo' : Nat) (h : mapWf hi lo m = true) (hl : lo' ≤ lo) :
    mapWf hi lo' m = true := by
  cases m with
  | nil => rfl
  | cons e t =>
    simp only [mapWf, Bool.and_eq_true, decide_eq_true_eq] at h ⊢
    exact ⟨⟨Nat.le_trans hl h.1.1, h.1.2⟩, h.2⟩

/-- A put under a key in bounds keeps the canonical form. -/
theorem mapWf_mapPut (k : Nat) (v : β) (m : List (Nat × β)) (hi lo : Nat) (h : mapWf hi lo m = true) (hk : lo ≤ k)
    (hh : k < hi) : mapWf hi lo (mapPut k v m) = true := by
  induction m generalizing lo with
  | nil => simp [mapPut, mapWf, hk, hh]
  | cons e t ih =>
    obtain ⟨x, w⟩ := e
    have hc := h
    simp only [mapWf, Bool.and_eq_true, decide_eq_true_eq] at h
    simp only [mapPut]
    split
    · next hlt =>
      simp only [mapWf, Bool.and_eq_true, decide_eq_true_eq]
      exact ⟨⟨hk, hh⟩, ⟨hlt, h.1.2⟩, h.2⟩
    · split
      · next hx => subst hx; simp only [mapWf, Bool.and_eq_true, decide_eq_true_eq]; exact h
      · next h1 h2 =>
        simp only [mapWf, Bool.and_eq_true, decide_eq_true_eq]
        exact ⟨h.1, ih _ h.2 (by omega)⟩

/-- No key below the lower bound is found. -/
theorem mapGet_below (m : List (Nat × β)) (hi lo k : Nat) (h : mapWf hi lo m = true) (hk : k < lo) : mapGet k m = none := by
  induction m generalizing lo with
  | nil => rfl
  | cons e t ih =>
    obtain ⟨x, w⟩ := e
    simp only [mapWf, Bool.and_eq_true, decide_eq_true_eq] at h
    have hne : k ≠ x := by omega
    simp only [mapGet, hne, if_false]
    exact ih _ h.2 (by omega)

/-- A put lengthens the map by one exactly when its key is new. -/
theorem length_mapPut (k : Nat) (v : β) (m : List (Nat × β)) (hi lo : Nat) (h : mapWf hi lo m = true) :
    (mapPut k v m).length = m.length + if (mapGet k m).isSome then 0 else 1 := by
  induction m generalizing lo with
  | nil => rfl
  | cons e t ih =>
    obtain ⟨x, w⟩ := e
    have hc := h
    simp only [mapWf, Bool.and_eq_true, decide_eq_true_eq] at h
    simp only [mapPut]
    split
    · next hlt =>
      have hne : k ≠ x := by omega
      have := mapGet_below t hi (x + 1) k h.2 (by omega)
      simp [mapGet, hne, this]
    · split
      · next hx => simp [mapGet, hx]
      · next h1 h2 =>
        have hne : ¬ k = x := h2
        simp only [List.length_cons, mapGet, hne, if_false, ih _ h.2]
        omega

/-- An entry of a map after a put is the new one or was there. -/
theorem mem_mapPut (k : Nat) (v : β) (m : List (Nat × β)) (e : Nat × β) (h : e ∈ mapPut k v m) : e = (k, v) ∨ e ∈ m := by
  induction m with
  | nil => simpa [mapPut] using h
  | cons a t ih =>
    obtain ⟨x, w⟩ := a
    simp only [mapPut] at h
    split at h
    · simpa using h
    · split at h
      · rcases List.mem_cons.mp h with h | h
        · exact .inl h
        · exact .inr (List.mem_cons_of_mem _ h)
      · rcases List.mem_cons.mp h with h | h
        · exact .inr (by simp [h])
        · rcases ih h with h | h
          · exact .inl h
          · exact .inr (List.mem_cons_of_mem _ h)

/-- The keys of a map in canonical form lie within its bounds. -/
theorem mapWf_bounds (m : List (Nat × β)) (hi lo : Nat) (h : mapWf hi lo m = true) (e : Nat × β) (he : e ∈ m) :
    lo ≤ e.1 ∧ e.1 < hi := by
  induction m generalizing lo with
  | nil => simp at he
  | cons a t ih =>
    obtain ⟨x, w⟩ := a
    simp only [mapWf, Bool.and_eq_true, decide_eq_true_eq] at h
    rcases List.mem_cons.mp he with rfl | he
    · exact h.1
    · have := ih _ h.2 he
      omega

/-- Two maps in canonical form in which every key finds the same are the same list. -/
theorem map_ext (m m' : List (Nat × β)) (hi lo : Nat) (h : mapWf hi lo m = true) (h' : mapWf hi lo m' = true)
    (hget : ∀ k, mapGet k m = mapGet k m') : m = m' := by
  induction m generalizing m' lo with
  | nil =>
    cases m' with
    | nil => rfl
    | cons e t => obtain ⟨x, w⟩ := e; simpa [mapGet] using hget x
  | cons e t ih =>
    obtain ⟨x, w⟩ := e
    cases m' with
    | nil => simpa [mapGet] using hget x
    | cons e' t' =>
      obtain ⟨x', w'⟩ := e'
      simp only [mapWf, Bool.and_eq_true, decide_eq_true_eq] at h h'
      have hx : x = x' := by
        rcases Nat.lt_trichotomy x x' with hlt | heq | hgt
        · have := hget x
          rw [mapGet, if_pos rfl, mapGet, if_neg (by omega), mapGet_below t' hi (x' + 1) x h'.2 (by omega)] at this
          cases this
        · exact heq
        · have := hget x'
          rw [mapGet, if_neg (by omega), mapGet_below t hi (x + 1) x' h.2 (by omega), mapGet, if_pos rfl] at this
          cases this
      subst hx
      have hw : w = w' := by simpa [mapGet] using hget x
      subst hw
      have : t = t' := by
        refine ih t' (x + 1) h.2 h'.2 fun k => ?_
        by_cases hk : k = x
        · subst hk; rw [mapGet_below t hi (k + 1) k h.2 (by omega), mapGet_below t' hi (k + 1) k h'.2 (by omega)]
        · simpa [mapGet, hk] using hget k
      rw [this]

end Sys2Proof.Machine
end

