-- ==== Sys2Proof/Laws/Memory.lean ====
section
/-!
SUPPORT. The byte RAMs: read after write, the bytes of a longer access, and the canonical form kept by every operation; and the
stream-bit view of a RAM.
-/

namespace Sys2Proof.Machine

theorem read_write (m : Memory) (a x : Nat) (b : Byte) : (m.write a b).read x = if x = a then b else m.read x := by
  simp only [Memory.read, Memory.write, mapGet_mapPut]
  split <;> rfl

@[simp] theorem write_draw (m : Memory) (a : Nat) (b : Byte) : (m.write a b).draw = m.draw := rfl

theorem wf_write (m : Memory) (a size : Nat) (b : Byte) (h : m.wf size = true) (ha : a < size) : (m.write a b).wf size = true :=
  mapWf_mapPut a b m.cells size 0 h (Nat.zero_le _) ha

theorem wf_unspecified (d size : Nat) : (Memory.unspecified d).wf size = true := rfl

/-- Writing bytes that fit keeps the canonical form. -/
theorem wf_writeBytes (bs : List Byte) (m : Memory) (a size : Nat) (h : m.wf size = true) (ha : a + bs.length ≤ size) :
    (m.writeBytes a bs).wf size = true := by
  induction bs generalizing a with
  | nil => exact h
  | cons b bs ih =>
    simp only [List.length_cons] at ha
    exact wf_write _ _ _ _ (ih (a + 1) (by omega)) (by omega)

/-- What is read after writing bytes: the byte of that place, or what was there. -/
theorem read_writeBytes (bs : List Byte) (m : Memory) (a x : Nat) :
    (m.writeBytes a bs).read x = if a ≤ x ∧ x < a + bs.length then bs.getD (x - a) 0 else m.read x := by
  induction bs generalizing a with
  | nil =>
    have : ¬ (a ≤ x ∧ x < a + ([] : List Byte).length) := by simp only [List.length_nil]; omega
    rw [if_neg this]; rfl
  | cons b bs ih =>
    simp only [List.length_cons, Memory.writeBytes]
    rw [read_write, ih (a + 1)]
    by_cases hx : x = a
    · subst hx; simp
    · rw [if_neg hx]
      by_cases h2 : a + 1 ≤ x ∧ x < a + 1 + bs.length
      · rw [if_pos h2, if_pos (by omega)]
        obtain ⟨d, rfl⟩ : ∃ d, x = a + 1 + d := ⟨x - (a + 1), by omega⟩
        rw [Nat.add_sub_cancel_left, show a + 1 + d - a = d + 1 by omega]; rfl
      · rw [if_neg h2, if_neg (by omega)]

@[simp] theorem readBytes_length (m : Memory) (a n : Nat) : (m.readBytes a n).length = n := by
  induction n generalizing a with
  | zero => rfl
  | succ n ih => simp [Memory.readBytes, ih]

theorem readBytes_eq (m : Memory) (a n : Nat) : m.readBytes a n = (List.range n).map fun i => m.read (a + i) := by
  induction n generalizing a with
  | zero => rfl
  | succ n ih =>
    simp only [Memory.readBytes, ih, List.range_succ_eq_map, List.map_cons, List.map_map, Nat.add_zero]
    congr 1
    exact List.map_congr_left fun i _ => by simp [Nat.add_comm, Nat.add_left_comm]

@[simp] theorem leBytes_length (n : Nat) (v : Word) : (leBytes n v).length = n := by simp [leBytes]

theorem leBytes_getD (n i : Nat) (v : Word) (h : i < n) : (leBytes n v).getD i 0 = v.extractLsb' (8 * i) 8 := by
  simp [leBytes, List.getD_eq_getElem?_getD, h]

@[simp] theorem freeBytes_length (s : State) (n : Nat) : (freeBytes s n).length = n := by simp [freeBytes]

/-! ### Stream bits -/

theorem streamBits_lt (m : Memory) (a n : Nat) : streamBits m a n < 2 ^ n := by
  induction n with
  | zero => simp [streamBits]
  | succ n ih =>
    have : (bufBit m (a + n)).toNat ≤ 1 := by cases bufBit m (a + n) <;> decide
    simp only [streamBits, Nat.pow_succ]
    have := ih
    omega

/-- Bit `i` of a field is its `i`-th stream bit from the end. -/
theorem streamBits_testBit (m : Memory) (a n i : Nat) (h : i < n) :
    (streamBits m a n).testBit i = bufBit m (a + (n - 1 - i)) := by
  induction n generalizing i with
  | zero => omega
  | succ n ih =>
    simp only [streamBits]
    cases i with
    | zero =>
      rw [Nat.testBit_zero, Nat.mul_add_mod, show n + 1 - 1 - 0 = n by omega]
      cases bufBit m (a + n) <;> rfl
    | succ i =>
      have hd : (2 * streamBits m a n + (bufBit m (a + n)).toNat) / 2 = streamBits m a n := by
        have : (bufBit m (a + n)).toNat ≤ 1 := by cases bufBit m (a + n) <;> decide
        omega
      rw [Nat.testBit_succ, hd, ih i (by omega)]
      congr 2
      omega

/-- A field depends only on its own stream bits. -/
theorem streamBits_congr (m m' : Memory) (a n : Nat) (h : ∀ k, a ≤ k → k < a + n → bufBit m k = bufBit m' k) :
    streamBits m a n = streamBits m' a n := by
  induction n with
  | zero => rfl
  | succ n ih =>
    simp only [streamBits]
    rw [ih fun k h1 h2 => h k h1 (by omega), h (a + n) (by omega) (by omega)]

end Sys2Proof.Machine
end

