-- ==== Sys2Proof/Laws/State.lean ====
section
/-!
SUPPORT. One lemma per field per update of the state, each true by rfl, so that no proof unfolds a record update.
-/

namespace Sys2Proof.Machine

/-! ### finish -/

@[simp] theorem finish_code (opc : BitVec 8) (c : Code) (s : State) : (finish opc c s).code = c := rfl
@[simp] theorem finish_lastop (opc : BitVec 8) (c : Code) (s : State) : (finish opc c s).lastop = opc := rfl
@[simp] theorem finish_err (opc : BitVec 8) (c : Code) (s : State) : (finish opc c s).err = (s.err || decide (c ≠ .ok)) := rfl
@[simp] theorem finish_haz (opc : BitVec 8) (c : Code) (s : State) : (finish opc c s).haz = s.haz := rfl
@[simp] theorem finish_rej (opc : BitVec 8) (c : Code) (s : State) : (finish opc c s).rej = s.rej := rfl
@[simp] theorem finish_inflight (opc : BitVec 8) (c : Code) (s : State) : (finish opc c s).inflight = none := rfl
@[simp] theorem finish_result (opc : BitVec 8) (c : Code) (s : State) : (finish opc c s).result = s.result := rfl
@[simp] theorem finish_unav (opc : BitVec 8) (c : Code) (s : State) : (finish opc c s).unav = s.unav := rfl
@[simp] theorem finish_popc (opc : BitVec 8) (c : Code) (s : State) : (finish opc c s).popc = s.popc := rfl
@[simp] theorem finish_pos (opc : BitVec 8) (c : Code) (s : State) : (finish opc c s).pos = s.pos := rfl
@[simp] theorem finish_len (opc : BitVec 8) (c : Code) (s : State) : (finish opc c s).len = s.len := rfl
@[simp] theorem finish_mark (opc : BitVec 8) (c : Code) (s : State) : (finish opc c s).mark = s.mark := rfl
@[simp] theorem finish_buf (opc : BitVec 8) (c : Code) (s : State) : (finish opc c s).buf = s.buf := rfl
@[simp] theorem finish_pageIn (opc : BitVec 8) (c : Code) (s : State) : (finish opc c s).pageIn = s.pageIn := rfl
@[simp] theorem finish_store (opc : BitVec 8) (c : Code) (s : State) : (finish opc c s).store = s.store := rfl
@[simp] theorem finish_storeEn (opc : BitVec 8) (c : Code) (s : State) : (finish opc c s).storeEn = s.storeEn := rfl
@[simp] theorem finish_lastMid (opc : BitVec 8) (c : Code) (s : State) : (finish opc c s).lastMid = s.lastMid := rfl
@[simp] theorem finish_midValid (opc : BitVec 8) (c : Code) (s : State) : (finish opc c s).midValid = s.midValid := rfl
@[simp] theorem finish_lastMs (opc : BitVec 8) (c : Code) (s : State) : (finish opc c s).lastMs = s.lastMs := rfl
@[simp] theorem finish_inputs (opc : BitVec 8) (c : Code) (s : State) : (finish opc c s).inputs = s.inputs := rfl
@[simp] theorem finish_response (opc : BitVec 8) (c : Code) (s : State) : (finish opc c s).response = s.response := rfl
@[simp] theorem finish_draws (opc : BitVec 8) (c : Code) (s : State) : (finish opc c s).draws = s.draws := rfl

/-! ### respond -/

@[simp] theorem respond_code (data : List Byte) (s : State) : (respond data s).code = s.code := rfl
@[simp] theorem respond_lastop (data : List Byte) (s : State) : (respond data s).lastop = s.lastop := rfl
@[simp] theorem respond_err (data : List Byte) (s : State) : (respond data s).err = s.err := rfl
@[simp] theorem respond_haz (data : List Byte) (s : State) : (respond data s).haz = s.haz := rfl
@[simp] theorem respond_rej (data : List Byte) (s : State) : (respond data s).rej = s.rej := rfl
@[simp] theorem respond_inflight (data : List Byte) (s : State) : (respond data s).inflight = s.inflight := rfl
@[simp] theorem respond_result (data : List Byte) (s : State) : (respond data s).result = s.result := rfl
@[simp] theorem respond_unav (data : List Byte) (s : State) : (respond data s).unav = s.unav := rfl
@[simp] theorem respond_popc (data : List Byte) (s : State) : (respond data s).popc = s.popc := rfl
@[simp] theorem respond_pos (data : List Byte) (s : State) : (respond data s).pos = s.pos := rfl
@[simp] theorem respond_len (data : List Byte) (s : State) : (respond data s).len = s.len := rfl
@[simp] theorem respond_mark (data : List Byte) (s : State) : (respond data s).mark = s.mark := rfl
@[simp] theorem respond_buf (data : List Byte) (s : State) : (respond data s).buf = s.buf := rfl
@[simp] theorem respond_pageIn (data : List Byte) (s : State) : (respond data s).pageIn = s.pageIn := rfl
@[simp] theorem respond_store (data : List Byte) (s : State) : (respond data s).store = s.store := rfl
@[simp] theorem respond_storeEn (data : List Byte) (s : State) : (respond data s).storeEn = s.storeEn := rfl
@[simp] theorem respond_lastMid (data : List Byte) (s : State) : (respond data s).lastMid = s.lastMid := rfl
@[simp] theorem respond_midValid (data : List Byte) (s : State) : (respond data s).midValid = s.midValid := rfl
@[simp] theorem respond_lastMs (data : List Byte) (s : State) : (respond data s).lastMs = s.lastMs := rfl
@[simp] theorem respond_inputs (data : List Byte) (s : State) : (respond data s).inputs = s.inputs := rfl
@[simp] theorem respond_response (data : List Byte) (s : State) : (respond data s).response = some ⟨data, false⟩ := rfl
@[simp] theorem respond_draws (data : List Byte) (s : State) : (respond data s).draws = s.draws := rfl

/-! ### reject -/

@[simp] theorem reject_code (data : List Byte) (s : State) : (reject data s).code = s.code := rfl
@[simp] theorem reject_lastop (data : List Byte) (s : State) : (reject data s).lastop = s.lastop := rfl
@[simp] theorem reject_err (data : List Byte) (s : State) : (reject data s).err = s.err := rfl
@[simp] theorem reject_haz (data : List Byte) (s : State) : (reject data s).haz = s.haz := rfl
@[simp] theorem reject_rej (data : List Byte) (s : State) : (reject data s).rej = true := rfl
@[simp] theorem reject_inflight (data : List Byte) (s : State) : (reject data s).inflight = s.inflight := rfl
@[simp] theorem reject_result (data : List Byte) (s : State) : (reject data s).result = s.result := rfl
@[simp] theorem reject_unav (data : List Byte) (s : State) : (reject data s).unav = s.unav := rfl
@[simp] theorem reject_popc (data : List Byte) (s : State) : (reject data s).popc = s.popc := rfl
@[simp] theorem reject_pos (data : List Byte) (s : State) : (reject data s).pos = s.pos := rfl
@[simp] theorem reject_len (data : List Byte) (s : State) : (reject data s).len = s.len := rfl
@[simp] theorem reject_mark (data : List Byte) (s : State) : (reject data s).mark = s.mark := rfl
@[simp] theorem reject_buf (data : List Byte) (s : State) : (reject data s).buf = s.buf := rfl
@[simp] theorem reject_pageIn (data : List Byte) (s : State) : (reject data s).pageIn = s.pageIn := rfl
@[simp] theorem reject_store (data : List Byte) (s : State) : (reject data s).store = s.store := rfl
@[simp] theorem reject_storeEn (data : List Byte) (s : State) : (reject data s).storeEn = s.storeEn := rfl
@[simp] theorem reject_lastMid (data : List Byte) (s : State) : (reject data s).lastMid = s.lastMid := rfl
@[simp] theorem reject_midValid (data : List Byte) (s : State) : (reject data s).midValid = s.midValid := rfl
@[simp] theorem reject_lastMs (data : List Byte) (s : State) : (reject data s).lastMs = s.lastMs := rfl
@[simp] theorem reject_inputs (data : List Byte) (s : State) : (reject data s).inputs = s.inputs := rfl
@[simp] theorem reject_response (data : List Byte) (s : State) : (reject data s).response = some ⟨data, true⟩ := rfl
@[simp] theorem reject_draws (data : List Byte) (s : State) : (reject data s).draws = s.draws := rfl

/-! ### drawn -/

@[simp] theorem drawn_code (s : State) : (drawn s).code = s.code := rfl
@[simp] theorem drawn_lastop (s : State) : (drawn s).lastop = s.lastop := rfl
@[simp] theorem drawn_err (s : State) : (drawn s).err = s.err := rfl
@[simp] theorem drawn_haz (s : State) : (drawn s).haz = s.haz := rfl
@[simp] theorem drawn_rej (s : State) : (drawn s).rej = s.rej := rfl
@[simp] theorem drawn_inflight (s : State) : (drawn s).inflight = s.inflight := rfl
@[simp] theorem drawn_result (s : State) : (drawn s).result = s.result := rfl
@[simp] theorem drawn_unav (s : State) : (drawn s).unav = s.unav := rfl
@[simp] theorem drawn_popc (s : State) : (drawn s).popc = s.popc := rfl
@[simp] theorem drawn_pos (s : State) : (drawn s).pos = s.pos := rfl
@[simp] theorem drawn_len (s : State) : (drawn s).len = s.len := rfl
@[simp] theorem drawn_mark (s : State) : (drawn s).mark = s.mark := rfl
@[simp] theorem drawn_buf (s : State) : (drawn s).buf = s.buf := rfl
@[simp] theorem drawn_pageIn (s : State) : (drawn s).pageIn = s.pageIn := rfl
@[simp] theorem drawn_store (s : State) : (drawn s).store = s.store := rfl
@[simp] theorem drawn_storeEn (s : State) : (drawn s).storeEn = s.storeEn := rfl
@[simp] theorem drawn_lastMid (s : State) : (drawn s).lastMid = s.lastMid := rfl
@[simp] theorem drawn_midValid (s : State) : (drawn s).midValid = s.midValid := rfl
@[simp] theorem drawn_lastMs (s : State) : (drawn s).lastMs = s.lastMs := rfl
@[simp] theorem drawn_inputs (s : State) : (drawn s).inputs = s.inputs := rfl
@[simp] theorem drawn_response (s : State) : (drawn s).response = s.response := rfl
@[simp] theorem drawn_draws (s : State) : (drawn s).draws = s.draws + 1 := rfl

/-! ### advance -/

@[simp] theorem advance_code (s : State) (n : Nat) : (s.advance n).code = s.code := rfl
@[simp] theorem advance_lastop (s : State) (n : Nat) : (s.advance n).lastop = s.lastop := rfl
@[simp] theorem advance_err (s : State) (n : Nat) : (s.advance n).err = s.err := rfl
@[simp] theorem advance_haz (s : State) (n : Nat) : (s.advance n).haz = s.haz := rfl
@[simp] theorem advance_rej (s : State) (n : Nat) : (s.advance n).rej = s.rej := rfl
@[simp] theorem advance_inflight (s : State) (n : Nat) : (s.advance n).inflight = s.inflight := rfl
@[simp] theorem advance_result (s : State) (n : Nat) : (s.advance n).result = s.result := rfl
@[simp] theorem advance_unav (s : State) (n : Nat) : (s.advance n).unav = s.unav := rfl
@[simp] theorem advance_popc (s : State) (n : Nat) : (s.advance n).popc = s.popc := rfl
@[simp] theorem advance_pos (s : State) (n : Nat) : (s.advance n).pos = BitVec.ofNat 16 (s.pos.toNat + n) := rfl
@[simp] theorem advance_len (s : State) (n : Nat) : (s.advance n).len = s.len := rfl
@[simp] theorem advance_mark (s : State) (n : Nat) : (s.advance n).mark = s.mark := rfl
@[simp] theorem advance_buf (s : State) (n : Nat) : (s.advance n).buf = s.buf := rfl
@[simp] theorem advance_pageIn (s : State) (n : Nat) : (s.advance n).pageIn = s.pageIn := rfl
@[simp] theorem advance_store (s : State) (n : Nat) : (s.advance n).store = s.store := rfl
@[simp] theorem advance_storeEn (s : State) (n : Nat) : (s.advance n).storeEn = s.storeEn := rfl
@[simp] theorem advance_lastMid (s : State) (n : Nat) : (s.advance n).lastMid = s.lastMid := rfl
@[simp] theorem advance_midValid (s : State) (n : Nat) : (s.advance n).midValid = s.midValid := rfl
@[simp] theorem advance_lastMs (s : State) (n : Nat) : (s.advance n).lastMs = s.lastMs := rfl
@[simp] theorem advance_inputs (s : State) (n : Nat) : (s.advance n).inputs = s.inputs := rfl
@[simp] theorem advance_response (s : State) (n : Nat) : (s.advance n).response = s.response := rfl
@[simp] theorem advance_draws (s : State) (n : Nat) : (s.advance n).draws = s.draws := rfl

/-! ### setUnav -/

@[simp] theorem setUnav_code (s : State) (u : Bool) : (s.setUnav u).code = s.code := rfl
@[simp] theorem setUnav_lastop (s : State) (u : Bool) : (s.setUnav u).lastop = s.lastop := rfl
@[simp] theorem setUnav_err (s : State) (u : Bool) : (s.setUnav u).err = s.err := rfl
@[simp] theorem setUnav_haz (s : State) (u : Bool) : (s.setUnav u).haz = s.haz := rfl
@[simp] theorem setUnav_rej (s : State) (u : Bool) : (s.setUnav u).rej = s.rej := rfl
@[simp] theorem setUnav_inflight (s : State) (u : Bool) : (s.setUnav u).inflight = s.inflight := rfl
@[simp] theorem setUnav_result (s : State) (u : Bool) : (s.setUnav u).result = s.result := rfl
@[simp] theorem setUnav_unav (s : State) (u : Bool) : (s.setUnav u).unav = u := rfl
@[simp] theorem setUnav_popc (s : State) (u : Bool) : (s.setUnav u).popc = 0 := rfl
@[simp] theorem setUnav_pos (s : State) (u : Bool) : (s.setUnav u).pos = s.pos := rfl
@[simp] theorem setUnav_len (s : State) (u : Bool) : (s.setUnav u).len = s.len := rfl
@[simp] theorem setUnav_mark (s : State) (u : Bool) : (s.setUnav u).mark = s.mark := rfl
@[simp] theorem setUnav_buf (s : State) (u : Bool) : (s.setUnav u).buf = s.buf := rfl
@[simp] theorem setUnav_pageIn (s : State) (u : Bool) : (s.setUnav u).pageIn = s.pageIn := rfl
@[simp] theorem setUnav_store (s : State) (u : Bool) : (s.setUnav u).store = s.store := rfl
@[simp] theorem setUnav_storeEn (s : State) (u : Bool) : (s.setUnav u).storeEn = s.storeEn := rfl
@[simp] theorem setUnav_lastMid (s : State) (u : Bool) : (s.setUnav u).lastMid = s.lastMid := rfl
@[simp] theorem setUnav_midValid (s : State) (u : Bool) : (s.setUnav u).midValid = s.midValid := rfl
@[simp] theorem setUnav_lastMs (s : State) (u : Bool) : (s.setUnav u).lastMs = s.lastMs := rfl
@[simp] theorem setUnav_inputs (s : State) (u : Bool) : (s.setUnav u).inputs = s.inputs := rfl
@[simp] theorem setUnav_response (s : State) (u : Bool) : (s.setUnav u).response = s.response := rfl
@[simp] theorem setUnav_draws (s : State) (u : Bool) : (s.setUnav u).draws = s.draws := rfl

/-! ### setPopc -/

@[simp] theorem setPopc_code (s : State) (c : Nat) : (s.setPopc c).code = s.code := rfl
@[simp] theorem setPopc_lastop (s : State) (c : Nat) : (s.setPopc c).lastop = s.lastop := rfl
@[simp] theorem setPopc_err (s : State) (c : Nat) : (s.setPopc c).err = s.err := rfl
@[simp] theorem setPopc_haz (s : State) (c : Nat) : (s.setPopc c).haz = s.haz := rfl
@[simp] theorem setPopc_rej (s : State) (c : Nat) : (s.setPopc c).rej = s.rej := rfl
@[simp] theorem setPopc_inflight (s : State) (c : Nat) : (s.setPopc c).inflight = s.inflight := rfl
@[simp] theorem setPopc_result (s : State) (c : Nat) : (s.setPopc c).result = s.result := rfl
@[simp] theorem setPopc_unav (s : State) (c : Nat) : (s.setPopc c).unav = false := rfl
@[simp] theorem setPopc_popc (s : State) (c : Nat) : (s.setPopc c).popc = BitVec.ofNat 7 c := rfl
@[simp] theorem setPopc_pos (s : State) (c : Nat) : (s.setPopc c).pos = s.pos := rfl
@[simp] theorem setPopc_len (s : State) (c : Nat) : (s.setPopc c).len = s.len := rfl
@[simp] theorem setPopc_mark (s : State) (c : Nat) : (s.setPopc c).mark = s.mark := rfl
@[simp] theorem setPopc_buf (s : State) (c : Nat) : (s.setPopc c).buf = s.buf := rfl
@[simp] theorem setPopc_pageIn (s : State) (c : Nat) : (s.setPopc c).pageIn = s.pageIn := rfl
@[simp] theorem setPopc_store (s : State) (c : Nat) : (s.setPopc c).store = s.store := rfl
@[simp] theorem setPopc_storeEn (s : State) (c : Nat) : (s.setPopc c).storeEn = s.storeEn := rfl
@[simp] theorem setPopc_lastMid (s : State) (c : Nat) : (s.setPopc c).lastMid = s.lastMid := rfl
@[simp] theorem setPopc_midValid (s : State) (c : Nat) : (s.setPopc c).midValid = s.midValid := rfl
@[simp] theorem setPopc_lastMs (s : State) (c : Nat) : (s.setPopc c).lastMs = s.lastMs := rfl
@[simp] theorem setPopc_inputs (s : State) (c : Nat) : (s.setPopc c).inputs = s.inputs := rfl
@[simp] theorem setPopc_response (s : State) (c : Nat) : (s.setPopc c).response = s.response := rfl
@[simp] theorem setPopc_draws (s : State) (c : Nat) : (s.setPopc c).draws = s.draws := rfl

/-! ### clearSticky -/

@[simp] theorem clearSticky_code (v : Word) (s : State) : (clearSticky v s).code = s.code := rfl
@[simp] theorem clearSticky_lastop (v : Word) (s : State) : (clearSticky v s).lastop = s.lastop := rfl
@[simp] theorem clearSticky_err (v : Word) (s : State) : (clearSticky v s).err = (s.err && !v.getLsbD 16) := rfl
@[simp] theorem clearSticky_haz (v : Word) (s : State) : (clearSticky v s).haz = (s.haz && !v.getLsbD 17) := rfl
@[simp] theorem clearSticky_rej (v : Word) (s : State) : (clearSticky v s).rej = (s.rej && !v.getLsbD 18) := rfl
@[simp] theorem clearSticky_inflight (v : Word) (s : State) : (clearSticky v s).inflight = s.inflight := rfl
@[simp] theorem clearSticky_result (v : Word) (s : State) : (clearSticky v s).result = s.result := rfl
@[simp] theorem clearSticky_unav (v : Word) (s : State) : (clearSticky v s).unav = s.unav := rfl
@[simp] theorem clearSticky_popc (v : Word) (s : State) : (clearSticky v s).popc = s.popc := rfl
@[simp] theorem clearSticky_pos (v : Word) (s : State) : (clearSticky v s).pos = s.pos := rfl
@[simp] theorem clearSticky_len (v : Word) (s : State) : (clearSticky v s).len = s.len := rfl
@[simp] theorem clearSticky_mark (v : Word) (s : State) : (clearSticky v s).mark = s.mark := rfl
@[simp] theorem clearSticky_buf (v : Word) (s : State) : (clearSticky v s).buf = s.buf := rfl
@[simp] theorem clearSticky_pageIn (v : Word) (s : State) : (clearSticky v s).pageIn = s.pageIn := rfl
@[simp] theorem clearSticky_store (v : Word) (s : State) : (clearSticky v s).store = s.store := rfl
@[simp] theorem clearSticky_storeEn (v : Word) (s : State) : (clearSticky v s).storeEn = s.storeEn := rfl
@[simp] theorem clearSticky_lastMid (v : Word) (s : State) : (clearSticky v s).lastMid = s.lastMid := rfl
@[simp] theorem clearSticky_midValid (v : Word) (s : State) : (clearSticky v s).midValid = s.midValid := rfl
@[simp] theorem clearSticky_lastMs (v : Word) (s : State) : (clearSticky v s).lastMs = s.lastMs := rfl
@[simp] theorem clearSticky_inputs (v : Word) (s : State) : (clearSticky v s).inputs = s.inputs := rfl
@[simp] theorem clearSticky_response (v : Word) (s : State) : (clearSticky v s).response = s.response := rfl
@[simp] theorem clearSticky_draws (v : Word) (s : State) : (clearSticky v s).draws = s.draws := rfl

/-! ### storePage -/

@[simp] theorem storePage_code (pid ms : Nat) (s : State) : (storePage pid ms s).code = s.code := rfl
@[simp] theorem storePage_lastop (pid ms : Nat) (s : State) : (storePage pid ms s).lastop = s.lastop := rfl
@[simp] theorem storePage_err (pid ms : Nat) (s : State) : (storePage pid ms s).err = s.err := rfl
@[simp] theorem storePage_haz (pid ms : Nat) (s : State) : (storePage pid ms s).haz = s.haz := rfl
@[simp] theorem storePage_rej (pid ms : Nat) (s : State) : (storePage pid ms s).rej = s.rej := rfl
@[simp] theorem storePage_inflight (pid ms : Nat) (s : State) : (storePage pid ms s).inflight = s.inflight := rfl
@[simp] theorem storePage_result (pid ms : Nat) (s : State) : (storePage pid ms s).result = s.result := rfl
@[simp] theorem storePage_unav (pid ms : Nat) (s : State) : (storePage pid ms s).unav = s.unav := rfl
@[simp] theorem storePage_popc (pid ms : Nat) (s : State) : (storePage pid ms s).popc = s.popc := rfl
@[simp] theorem storePage_pos (pid ms : Nat) (s : State) : (storePage pid ms s).pos = s.pos := rfl
@[simp] theorem storePage_len (pid ms : Nat) (s : State) : (storePage pid ms s).len = s.len := rfl
@[simp] theorem storePage_mark (pid ms : Nat) (s : State) : (storePage pid ms s).mark = s.mark := rfl
@[simp] theorem storePage_buf (pid ms : Nat) (s : State) : (storePage pid ms s).buf = s.buf := rfl
@[simp] theorem storePage_pageIn (pid ms : Nat) (s : State) : (storePage pid ms s).pageIn = s.pageIn := rfl
@[simp] theorem storePage_store (pid ms : Nat) (s : State) : (storePage pid ms s).store = mapPut pid (pagePayload s) s.store := rfl
@[simp] theorem storePage_storeEn (pid ms : Nat) (s : State) : (storePage pid ms s).storeEn = s.storeEn := rfl
@[simp] theorem storePage_lastMid (pid ms : Nat) (s : State) : (storePage pid ms s).lastMid = s.lastMid := rfl
@[simp] theorem storePage_midValid (pid ms : Nat) (s : State) : (storePage pid ms s).midValid = s.midValid := rfl
@[simp] theorem storePage_lastMs (pid ms : Nat) (s : State) : (storePage pid ms s).lastMs = BitVec.ofNat 6 ms := rfl
@[simp] theorem storePage_inputs (pid ms : Nat) (s : State) : (storePage pid ms s).inputs = s.inputs := rfl
@[simp] theorem storePage_response (pid ms : Nat) (s : State) : (storePage pid ms s).response = s.response := rfl
@[simp] theorem storePage_draws (pid ms : Nat) (s : State) : (storePage pid ms s).draws = s.draws := rfl

/-! ### takeInput -/

@[simp] theorem takeInput_code (s : State) : (takeInput s).code = s.code := rfl
@[simp] theorem takeInput_lastop (s : State) : (takeInput s).lastop = s.lastop := rfl
@[simp] theorem takeInput_err (s : State) : (takeInput s).err = s.err := rfl
@[simp] theorem takeInput_haz (s : State) : (takeInput s).haz = s.haz := rfl
@[simp] theorem takeInput_rej (s : State) : (takeInput s).rej = s.rej := rfl
@[simp] theorem takeInput_inflight (s : State) : (takeInput s).inflight = s.inflight.map fun f => { f with wait := f.wait - 1 } := rfl
@[simp] theorem takeInput_result (s : State) : (takeInput s).result = s.result := rfl
@[simp] theorem takeInput_unav (s : State) : (takeInput s).unav = s.unav := rfl
@[simp] theorem takeInput_popc (s : State) : (takeInput s).popc = s.popc := rfl
@[simp] theorem takeInput_pos (s : State) : (takeInput s).pos = s.pos := rfl
@[simp] theorem takeInput_len (s : State) : (takeInput s).len = s.len := rfl
@[simp] theorem takeInput_mark (s : State) : (takeInput s).mark = s.mark := rfl
@[simp] theorem takeInput_buf (s : State) : (takeInput s).buf = s.buf := rfl
@[simp] theorem takeInput_pageIn (s : State) : (takeInput s).pageIn = s.pageIn := rfl
@[simp] theorem takeInput_store (s : State) : (takeInput s).store = s.store := rfl
@[simp] theorem takeInput_storeEn (s : State) : (takeInput s).storeEn = s.storeEn := rfl
@[simp] theorem takeInput_lastMid (s : State) : (takeInput s).lastMid = s.lastMid := rfl
@[simp] theorem takeInput_midValid (s : State) : (takeInput s).midValid = s.midValid := rfl
@[simp] theorem takeInput_lastMs (s : State) : (takeInput s).lastMs = s.lastMs := rfl
@[simp] theorem takeInput_inputs (s : State) : (takeInput s).inputs = s.inputs.tail := rfl
@[simp] theorem takeInput_response (s : State) : (takeInput s).response = s.response := rfl
@[simp] theorem takeInput_draws (s : State) : (takeInput s).draws = s.draws := rfl

/-! ### startCommand -/

@[simp] theorem startCommand_code (v : Word) (s : State) : (startCommand v s).code = s.code := rfl
@[simp] theorem startCommand_lastop (v : Word) (s : State) : (startCommand v s).lastop = s.lastop := rfl
@[simp] theorem startCommand_err (v : Word) (s : State) : (startCommand v s).err = s.err := rfl
@[simp] theorem startCommand_haz (v : Word) (s : State) : (startCommand v s).haz = s.haz := rfl
@[simp] theorem startCommand_rej (v : Word) (s : State) : (startCommand v s).rej = s.rej := rfl
@[simp] theorem startCommand_inflight (v : Word) (s : State) : (startCommand v s).inflight = some ⟨v, Config.busyAccesses s.draws⟩ := rfl
@[simp] theorem startCommand_result (v : Word) (s : State) : (startCommand v s).result = s.result := rfl
@[simp] theorem startCommand_unav (v : Word) (s : State) : (startCommand v s).unav = s.unav := rfl
@[simp] theorem startCommand_popc (v : Word) (s : State) : (startCommand v s).popc = s.popc := rfl
@[simp] theorem startCommand_pos (v : Word) (s : State) : (startCommand v s).pos = s.pos := rfl
@[simp] theorem startCommand_len (v : Word) (s : State) : (startCommand v s).len = s.len := rfl
@[simp] theorem startCommand_mark (v : Word) (s : State) : (startCommand v s).mark = s.mark := rfl
@[simp] theorem startCommand_buf (v : Word) (s : State) : (startCommand v s).buf = s.buf := rfl
@[simp] theorem startCommand_pageIn (v : Word) (s : State) : (startCommand v s).pageIn = s.pageIn := rfl
@[simp] theorem startCommand_store (v : Word) (s : State) : (startCommand v s).store = s.store := rfl
@[simp] theorem startCommand_storeEn (v : Word) (s : State) : (startCommand v s).storeEn = s.storeEn := rfl
@[simp] theorem startCommand_lastMid (v : Word) (s : State) : (startCommand v s).lastMid = s.lastMid := rfl
@[simp] theorem startCommand_midValid (v : Word) (s : State) : (startCommand v s).midValid = s.midValid := rfl
@[simp] theorem startCommand_lastMs (v : Word) (s : State) : (startCommand v s).lastMs = s.lastMs := rfl
@[simp] theorem startCommand_inputs (v : Word) (s : State) : (startCommand v s).inputs = s.inputs := rfl
@[simp] theorem startCommand_response (v : Word) (s : State) : (startCommand v s).response = s.response := rfl
@[simp] theorem startCommand_draws (v : Word) (s : State) : (startCommand v s).draws = s.draws + 1 := rfl

/-! ### placeCommand -/

@[simp] theorem placeCommand_code (w : Word) (s : State) : (placeCommand w s).code = s.code := rfl
@[simp] theorem placeCommand_lastop (w : Word) (s : State) : (placeCommand w s).lastop = s.lastop := rfl
@[simp] theorem placeCommand_err (w : Word) (s : State) : (placeCommand w s).err = s.err := rfl
@[simp] theorem placeCommand_haz (w : Word) (s : State) : (placeCommand w s).haz = s.haz := rfl
@[simp] theorem placeCommand_rej (w : Word) (s : State) : (placeCommand w s).rej = s.rej := rfl
@[simp] theorem placeCommand_inflight (w : Word) (s : State) : (placeCommand w s).inflight = some ⟨w, 0⟩ := rfl
@[simp] theorem placeCommand_result (w : Word) (s : State) : (placeCommand w s).result = s.result := rfl
@[simp] theorem placeCommand_unav (w : Word) (s : State) : (placeCommand w s).unav = s.unav := rfl
@[simp] theorem placeCommand_popc (w : Word) (s : State) : (placeCommand w s).popc = s.popc := rfl
@[simp] theorem placeCommand_pos (w : Word) (s : State) : (placeCommand w s).pos = s.pos := rfl
@[simp] theorem placeCommand_len (w : Word) (s : State) : (placeCommand w s).len = s.len := rfl
@[simp] theorem placeCommand_mark (w : Word) (s : State) : (placeCommand w s).mark = s.mark := rfl
@[simp] theorem placeCommand_buf (w : Word) (s : State) : (placeCommand w s).buf = s.buf := rfl
@[simp] theorem placeCommand_pageIn (w : Word) (s : State) : (placeCommand w s).pageIn = s.pageIn := rfl
@[simp] theorem placeCommand_store (w : Word) (s : State) : (placeCommand w s).store = s.store := rfl
@[simp] theorem placeCommand_storeEn (w : Word) (s : State) : (placeCommand w s).storeEn = s.storeEn := rfl
@[simp] theorem placeCommand_lastMid (w : Word) (s : State) : (placeCommand w s).lastMid = s.lastMid := rfl
@[simp] theorem placeCommand_midValid (w : Word) (s : State) : (placeCommand w s).midValid = s.midValid := rfl
@[simp] theorem placeCommand_lastMs (w : Word) (s : State) : (placeCommand w s).lastMs = s.lastMs := rfl
@[simp] theorem placeCommand_inputs (w : Word) (s : State) : (placeCommand w s).inputs = s.inputs := rfl
@[simp] theorem placeCommand_response (w : Word) (s : State) : (placeCommand w s).response = s.response := rfl
@[simp] theorem placeCommand_draws (w : Word) (s : State) : (placeCommand w s).draws = s.draws := rfl

/-! ### endOk -/

@[simp] theorem endOk_code (i : Instr) (s : State) : (endOk i s).code = .ok := rfl
@[simp] theorem endOk_lastop (i : Instr) (s : State) : (endOk i s).lastop = i.opcode := rfl
@[simp] theorem endOk_err (i : Instr) (s : State) : (endOk i s).err = s.err := rfl
@[simp] theorem endOk_haz (i : Instr) (s : State) : (endOk i s).haz = s.haz := rfl
@[simp] theorem endOk_rej (i : Instr) (s : State) : (endOk i s).rej = s.rej := rfl
@[simp] theorem endOk_inflight (i : Instr) (s : State) : (endOk i s).inflight = none := rfl
@[simp] theorem endOk_result (i : Instr) (s : State) : (endOk i s).result = s.result := rfl
@[simp] theorem endOk_unav (i : Instr) (s : State) : (endOk i s).unav = s.unav := rfl
@[simp] theorem endOk_popc (i : Instr) (s : State) : (endOk i s).popc = s.popc := rfl
@[simp] theorem endOk_pos (i : Instr) (s : State) : (endOk i s).pos = s.pos := rfl
@[simp] theorem endOk_len (i : Instr) (s : State) : (endOk i s).len = s.len := rfl
@[simp] theorem endOk_mark (i : Instr) (s : State) : (endOk i s).mark = s.mark := rfl
@[simp] theorem endOk_buf (i : Instr) (s : State) : (endOk i s).buf = s.buf := rfl
@[simp] theorem endOk_pageIn (i : Instr) (s : State) : (endOk i s).pageIn = s.pageIn := rfl
@[simp] theorem endOk_store (i : Instr) (s : State) : (endOk i s).store = s.store := rfl
@[simp] theorem endOk_storeEn (i : Instr) (s : State) : (endOk i s).storeEn = s.storeEn := rfl
@[simp] theorem endOk_lastMid (i : Instr) (s : State) : (endOk i s).lastMid = s.lastMid := rfl
@[simp] theorem endOk_midValid (i : Instr) (s : State) : (endOk i s).midValid = s.midValid := rfl
@[simp] theorem endOk_lastMs (i : Instr) (s : State) : (endOk i s).lastMs = s.lastMs := rfl
@[simp] theorem endOk_inputs (i : Instr) (s : State) : (endOk i s).inputs = s.inputs := rfl
@[simp] theorem endOk_response (i : Instr) (s : State) : (endOk i s).response = s.response := rfl
@[simp] theorem endOk_draws (i : Instr) (s : State) : (endOk i s).draws = s.draws := rfl

/-! ### endError -/

@[simp] theorem endError_code (i : Instr) (c : Code) (s : State) : (endError i c s).code = c := rfl
@[simp] theorem endError_lastop (i : Instr) (c : Code) (s : State) : (endError i c s).lastop = i.opcode := rfl
@[simp] theorem endError_err (i : Instr) (c : Code) (s : State) : (endError i c s).err = true := rfl
@[simp] theorem endError_haz (i : Instr) (c : Code) (s : State) : (endError i c s).haz = s.haz := rfl
@[simp] theorem endError_rej (i : Instr) (c : Code) (s : State) : (endError i c s).rej = s.rej := rfl
@[simp] theorem endError_inflight (i : Instr) (c : Code) (s : State) : (endError i c s).inflight = none := rfl
@[simp] theorem endError_result (i : Instr) (c : Code) (s : State) : (endError i c s).result = s.result := rfl
@[simp] theorem endError_unav (i : Instr) (c : Code) (s : State) : (endError i c s).unav = s.unav := rfl
@[simp] theorem endError_popc (i : Instr) (c : Code) (s : State) : (endError i c s).popc = s.popc := rfl
@[simp] theorem endError_pos (i : Instr) (c : Code) (s : State) : (endError i c s).pos = s.pos := rfl
@[simp] theorem endError_len (i : Instr) (c : Code) (s : State) : (endError i c s).len = s.len := rfl
@[simp] theorem endError_mark (i : Instr) (c : Code) (s : State) : (endError i c s).mark = s.mark := rfl
@[simp] theorem endError_buf (i : Instr) (c : Code) (s : State) : (endError i c s).buf = s.buf := rfl
@[simp] theorem endError_pageIn (i : Instr) (c : Code) (s : State) : (endError i c s).pageIn = s.pageIn := rfl
@[simp] theorem endError_store (i : Instr) (c : Code) (s : State) : (endError i c s).store = s.store := rfl
@[simp] theorem endError_storeEn (i : Instr) (c : Code) (s : State) : (endError i c s).storeEn = s.storeEn := rfl
@[simp] theorem endError_lastMid (i : Instr) (c : Code) (s : State) : (endError i c s).lastMid = s.lastMid := rfl
@[simp] theorem endError_midValid (i : Instr) (c : Code) (s : State) : (endError i c s).midValid = s.midValid := rfl
@[simp] theorem endError_lastMs (i : Instr) (c : Code) (s : State) : (endError i c s).lastMs = s.lastMs := rfl
@[simp] theorem endError_inputs (i : Instr) (c : Code) (s : State) : (endError i c s).inputs = s.inputs := rfl
@[simp] theorem endError_response (i : Instr) (c : Code) (s : State) : (endError i c s).response = s.response := rfl
@[simp] theorem endError_draws (i : Instr) (c : Code) (s : State) : (endError i c s).draws = s.draws := rfl

end Sys2Proof.Machine
end

