-- ==== Sys2Proof/Laws/Commands.lean ====
section
/-!
SUPPORT. What each shared operation of the commands can do, said once: how a command ends, the stream reads, the cases of HAS_PAGE.
-/

namespace Sys2Proof.Machine

/-! ### The end of a command -/

theorem finish_ok (i : Instr) (s : State) : finish i.opcode .ok s = endOk i s := by simp [finish, endOk]

theorem finish_error (i : Instr) (c : Code) (s : State) (h : c ≠ .ok) : finish i.opcode c s = endError i c s := by
  simp [finish, endError, h]

theorem raise_eq (i : Instr) (c : Code) (s : State) (h : c ≠ .ok) : raise i.opcode c s = endError i c s :=
  finish_error i c s h

theorem endPage_eq (o : BitVec 64) (s : State) : endPage o s = endOk .hasPage { s with result := o } :=
  finish_ok .hasPage _

theorem failRecovery_eq (s : State) :
    failRecovery s = endError .hasPage .matrixNotInvertible { s with storeEn := false, store := [], lastMs := 0 } :=
  finish_error .hasPage _ _ (by decide)

/-- Every meaning answers a next state. -/
theorem exec_next (i : Instr) (s : State) : ∃ t, exec i s = .next t := by
  cases i <;> exact ⟨_, rfl⟩

/-! ### Stream reads and length checks -/

/-- Everything a stream read can do (R130, R131, R170). -/
theorem readField_cases (i : Instr) (n : Nat) (use : Nat → State → State) (s : State) :
    (s.pos.toNat + n ≤ s.len.toNat ∧
        readField i.opcode n use s = endOk i ((use (streamBits s.buf s.pos.toNat n) s).advance n)) ∨
      (s.len.toNat < s.pos.toNat + n ∧ readField i.opcode n use s = endError i .insufficientData s) := by
  unfold readField
  by_cases h : s.pos.toNat + n ≤ s.len.toNat
  · exact .inl ⟨h, by rw [if_pos h, finish_ok]⟩
  · exact .inr ⟨by omega, by rw [if_neg h, raise_eq _ _ _ (by decide)]⟩

/-- Everything a command under one length condition can do (R283). -/
theorem requireBits_cases (i : Instr) (need : Bool) (go s : State) :
    (need = true ∧ requireBits i.opcode need go s = endOk i go) ∨
      (need = false ∧ requireBits i.opcode need go s = endError i .insufficientData s) := by
  cases need
  · exact .inr ⟨rfl, by simp [requireBits, raise_eq i .insufficientData s (by decide)]⟩
  · exact .inl ⟨rfl, by simp [requireBits, finish_ok]⟩

theorem readField_ok (i : Instr) (n : Nat) (use : Nat → State → State) (s : State) (h : s.pos.toNat + n ≤ s.len.toNat) :
    readField i.opcode n use s = endOk i ((use (streamBits s.buf s.pos.toNat n) s).advance n) := by
  rcases readField_cases i n use s with ⟨-, he⟩ | ⟨hs, -⟩
  · exact he
  · omega

theorem readField_short (i : Instr) (n : Nat) (use : Nat → State → State) (s : State) (h : s.len.toNat < s.pos.toNat + n) :
    readField i.opcode n use s = endError i .insufficientData s := by
  rcases readField_cases i n use s with ⟨hs, -⟩ | ⟨-, he⟩
  · omega
  · exact he

theorem requireBits_ok (i : Instr) (p : Prop) [Decidable p] (go s : State) (h : p) :
    requireBits i.opcode (decide p) go s = endOk i go := by simp [requireBits, h, finish_ok]

theorem requireBits_short (i : Instr) (p : Prop) [Decidable p] (go s : State) (h : ¬ p) :
    requireBits i.opcode (decide p) go s = endError i .insufficientData s := by
  simp [requireBits, h, raise_eq i .insufficientData s (by decide)]

/-- A zero-extended field is the field: 64 bits hold it. -/
theorem zext64_toNat (m : Memory) (a n : Nat) (h : n ≤ 64) : (zext64 (streamBits m a n)).toNat = streamBits m a n := by
  have h1 := streamBits_lt m a n
  have h2 : 2 ^ n ≤ 2 ^ 64 := Nat.pow_le_pow_right (by decide) h
  simp only [zext64, BitVec.toNat_ofNat]
  exact Nat.mod_eq_of_lt (by omega)

/-- Bit `i` of a zero-extended field (R9, R10). -/
theorem zext64_bit (m : Memory) (a n i : Nat) (hi : i < 64) :
    (zext64 (streamBits m a n)).getLsbD i = fieldBit m a n i := by
  unfold zext64 fieldBit
  rw [BitVec.getLsbD_ofNat]
  by_cases h : i < n
  · simp [h, hi, streamBits_testBit]
  · simp only [hi, decide_true, Bool.true_and, h, decide_false, Bool.false_and]
    exact Nat.testBit_lt_two_pow (lt_of_lt_of_le (streamBits_lt m a n) (Nat.pow_le_pow_right (by decide) (by omega)))

/-- The value of a field has its sign bit up exactly when its first stream bit is 1. -/
theorem streamBits_top (m : Memory) (a n : Nat) (h : 0 < n) : 2 ^ (n - 1) ≤ streamBits m a n ↔ bufBit m a = true := by
  have ht := streamBits_testBit m a n (n - 1) (by omega)
  rw [show a + (n - 1 - (n - 1)) = a by omega] at ht
  rw [← ht, Nat.testBit_eq_decide_div_mod_eq, decide_eq_true_eq]
  have hlt := streamBits_lt m a n
  have h2 : 2 ^ n = 2 * 2 ^ (n - 1) := by rw [← Nat.pow_succ']; congr 1; omega
  have h3 : 0 < 2 ^ (n - 1) := Nat.two_pow_pos _
  have h4 : streamBits m a n / 2 ^ (n - 1) < 2 := by rw [Nat.div_lt_iff_lt_mul h3]; omega
  constructor
  · intro hle; have := Nat.div_pos hle h3; omega
  · intro hd
    by_contra hc
    rw [Nat.div_eq_of_lt (by omega)] at hd
    omega

/-- Bit `i` of a sign-extended field (R9, R10). -/
theorem sext64_bit (m : Memory) (a n i : Nat) (hi : i < 64) :
    (sext64 n (streamBits m a n)).getLsbD i = signedFieldBit m a n i := by
  unfold signedFieldBit sext64 signedField
  have hlt := streamBits_lt m a n
  by_cases h0 : n = 0
  · subst h0; simp
  have htop := streamBits_top m a n (Nat.pos_of_ne_zero h0)
  rw [if_neg h0]
  have e : (BitVec.ofNat n (streamBits m a n)).signExtend 64 = BitVec.ofInt 64
      (if 2 ^ (n - 1) ≤ streamBits m a n then (streamBits m a n : Int) - 2 ^ n else streamBits m a n) := by
    rw [BitVec.signExtend]
    congr 1
    rw [BitVec.toInt_eq_msb_cond, BitVec.msb_eq_decide]
    simp [Nat.mod_eq_of_lt hlt]
  rw [← e, BitVec.getLsbD_signExtend]
  by_cases h : i < n
  · rw [if_pos h, if_pos h, BitVec.getLsbD_ofNat, streamBits_testBit _ _ _ _ h]
    simp [h, hi]
  · rw [if_neg h, if_neg h, BitVec.msb_eq_decide]
    simp only [BitVec.toNat_ofNat, Nat.mod_eq_of_lt hlt, htop, hi, decide_true, Bool.true_and, Bool.decide_eq_true,
      Nat.pos_of_ne_zero h0]

/-- The bounds of a signed field (R10). -/
theorem signedField_bounds (m : Memory) (a n : Nat) (h : 0 < n) :
    -(2 ^ (n - 1)) ≤ signedField n (streamBits m a n) ∧ signedField n (streamBits m a n) < 2 ^ (n - 1) := by
  have hlt := streamBits_lt m a n
  have h2 : (2 : Int) ^ n = 2 * 2 ^ (n - 1) := by rw [← pow_succ']; congr 1; omega
  have hlt' : (streamBits m a n : Int) < 2 ^ n := by exact_mod_cast hlt
  unfold signedField
  rw [if_neg (by omega)]
  split
  · next hc =>
    have : (2 : Int) ^ (n - 1) ≤ streamBits m a n := by exact_mod_cast hc
    omega
  · next hc =>
    have : (streamBits m a n : Int) < 2 ^ (n - 1) := by exact_mod_cast not_le.mp hc
    omega

/-- A sign-extended field is the signed field: 64 bits hold it. -/
theorem sext64_toInt (m : Memory) (a n : Nat) (h : n ≤ 64) :
    (sext64 n (streamBits m a n)).toInt = signedField n (streamBits m a n) := by
  unfold sext64
  rw [BitVec.toInt_ofInt]
  rcases Nat.eq_zero_or_pos n with rfl | hn
  · rfl
  · have hb := signedField_bounds m a n hn
    have hp : (2 : Int) ^ (n - 1) ≤ 2 ^ 63 := pow_le_pow_right₀ (by decide) (by omega)
    exact Int.bmod_eq_of_le (by simp; omega) (by simp; omega)

/-! ### HAS_PAGE -/

theorem pagePayload_eq (s : State) : pagePayload s = payloadInPageIn s := readBytes_eq _ _ _

/-- The bookkeeping of a valid page, as one update (R241). -/
theorem noteMessage_eq (s : State) (mid : BitVec 5) :
    noteMessage mid s = { s with
      store := if isMessageChange mid s then [] else s.store
      storeEn := if isMessageChange mid s then true else s.storeEn
      lastMs := if isMessageChange mid s then 0 else s.lastMs
      lastMid := mid
      midValid := true } := by
  unfold noteMessage
  split <;> rfl

/-- The state of a valid page once it is stored (R241, R242). -/
def stored (s : State) : State :=
  { s with
    store := storeAfter s
    storeEn := if isMessageChange (headerMid (pageHeader s)) s then true else s.storeEn
    lastMs := BitVec.ofNat 6 (headerMs (pageHeader s))
    lastMid := headerMid (pageHeader s)
    midValid := true }

theorem storePage_noteMessage (s : State) :
    storePage (headerPid (pageHeader s)) (headerMs (pageHeader s)) (noteMessage (headerMid (pageHeader s)) s) = stored s := by
  rw [noteMessage_eq]
  simp only [storePage, stored, storeAfter, storeBefore, ← pagePayload_eq]
  rfl

/-- Everything HAS_PAGE can do, in the order of R283. -/
theorem hasPageWith_cases (poly : BitVec 9) (gen : Fin 92 → Fin 32 → Byte) (s : State) :
    (pageHeader s = Config.dummyMarker ∧ hasPageWith poly gen s = endOk .hasPage { s with result := 3 }) ∨
    (pageHeader s ≠ Config.dummyMarker ∧ (headerPid (pageHeader s) = 0 ∨ 92 < headerPid (pageHeader s)) ∧
      hasPageWith poly gen s = endError .hasPage .malformedHeader s) ∨
    (pageHeader s ≠ Config.dummyMarker ∧ 1 ≤ headerPid (pageHeader s) ∧ headerPid (pageHeader s) ≤ 92 ∧
      headerMt (pageHeader s) ≠ 1 ∧ hasPageWith poly gen s = endError .hasPage .unsupportedMsgType s) ∨
    (ValidPage s ∧ ¬ StoringEnabled s ∧ hasPageWith poly gen s = endOk .hasPage
      { s with result := 2, lastMid := headerMid (pageHeader s), midValid := true }) ∨
    (ValidPage s ∧ StoringEnabled s ∧ (storeAfter s).length < headerMs (pageHeader s) ∧
      hasPageWith poly gen s = endOk .hasPage { stored s with result := 0 }) ∨
    (ValidPage s ∧ StoringEnabled s ∧ headerMs (pageHeader s) ≤ (storeAfter s).length ∧
      ((recoveredMessage poly gen (headerMs (pageHeader s)) ((storeAfter s).take (headerMs (pageHeader s))) = none ∧
          hasPageWith poly gen s = endError .hasPage .matrixNotInvertible
            { stored s with storeEn := false, store := [], lastMs := 0 }) ∨
        ∃ m, recoveredMessage poly gen (headerMs (pageHeader s)) ((storeAfter s).take (headerMs (pageHeader s))) = some m ∧
          hasPageWith poly gen s = endOk .hasPage { stored s with
            storeEn := false, buf := s.buf.writeBytes 0 m.flatten, len := BitVec.ofNat 16 (424 * headerMs (pageHeader s)),
            pos := 0, mark := 0, result := 1 })) := by
  unfold hasPageWith
  by_cases hd : pageHeader s = Config.dummyMarker
  · exact .inl ⟨hd, by rw [if_pos hd, endPage_eq]⟩
  refine .inr ?_
  rw [if_neg hd]
  by_cases hp : headerPid (pageHeader s) = 0 ∨ Config.pidMax < headerPid (pageHeader s)
  · exact .inl ⟨hd, hp, by rw [if_pos hp, raise_eq _ _ _ (by decide)]⟩
  refine .inr ?_
  rw [if_neg hp]
  have h1 : 1 ≤ headerPid (pageHeader s) := by omega
  have h2 : headerPid (pageHeader s) ≤ 92 := by simp only [Config.pidMax] at hp; omega
  by_cases hm : headerMt (pageHeader s) ≠ Config.mtSupported
  · exact .inl ⟨hd, h1, h2, hm, by rw [if_pos hm, raise_eq _ _ _ (by decide)]⟩
  refine .inr ?_
  rw [if_neg hm]
  have hv : ValidPage s := ⟨hd, h1, h2, not_not.mp hm⟩
  have hen : (noteMessage (headerMid (pageHeader s)) s).storeEn = false ↔ ¬ StoringEnabled s := by
    rw [noteMessage_eq]
    unfold StoringEnabled
    cases isMessageChange (headerMid (pageHeader s)) s <;> simp
  unfold acceptPage
  by_cases he : StoringEnabled s
  · rw [if_neg (by rw [hen]; exact not_not.mpr he), storePage_noteMessage]
    refine .inr ?_
    have hcount : (stored s).count = (storeAfter s).length := rfl
    by_cases hc : (stored s).count < headerMs (pageHeader s)
    · exact .inl ⟨hv, he, hcount ▸ hc, by rw [if_pos hc, endPage_eq]⟩
    · refine .inr ⟨hv, he, by omega, ?_⟩
      rw [if_neg hc]
      unfold attemptRecovery
      have hsel : selectedPages (headerMs (pageHeader s)) (stored s) = (storeAfter s).take (headerMs (pageHeader s)) := rfl
      rw [hsel]
      cases hr : recoveredMessage poly gen (headerMs (pageHeader s)) ((storeAfter s).take (headerMs (pageHeader s))) with
      | none => exact .inl ⟨rfl, failRecovery_eq _⟩
      | some m => exact .inr ⟨m, rfl, endPage_eq _ _⟩
  · refine .inl ⟨hv, he, ?_⟩
    rw [if_pos (hen.mpr he), endPage_eq, noteMessage_eq]
    have : isMessageChange (headerMid (pageHeader s)) s = false := by
      unfold StoringEnabled at he
      cases h : isMessageChange (headerMid (pageHeader s)) s
      · rfl
      · exact absurd (.inl h) he
    rw [this]
    rfl

end Sys2Proof.Machine
end

