-- ==== Sys2Proof/Laws/Bus.lean ====
section
/-!
SUPPORT. What a step can do, said once, and what each bus operation does.
-/

namespace Sys2Proof.Machine

/-- Everything a step can do (log 1). -/
theorem step_cases (s t : State) (h : step s = .next t) :
    (s.inflight = none ∧ s.inputs = [] ∧ t = s) ∨
    (∃ i rest, Serves s i rest ∧ t = serveInput i s) ∨
    (∃ f, s.inflight = some f ∧ (f.wait = 0 ∨ s.inputs = []) ∧
      ((∃ i, decode f.word = .command i ∧ exec i s = .next t) ∨
        (∃ why, decode f.word = .illegal why) ∧ t = raiseIllegal f.word s)) := by
  unfold step nextAction at h
  cases hf : s.inflight with
  | none =>
    cases hi : s.inputs with
    | nil => simp only [hf, hi] at h; cases h; exact .inl ⟨rfl, rfl, rfl⟩
    | cons i rest =>
      simp only [hf, hi] at h; cases h
      exact .inr (.inl ⟨i, rest, ⟨hi, by simp [hf]⟩, rfl⟩)
  | some f =>
    have hcomplete : (f.wait = 0 ∨ s.inputs = []) →
        (match decode f.word with
          | .command i => exec i s
          | .illegal _ => .next (raiseIllegal f.word s)) = .next t →
        ∃ g, some f = some g ∧ (g.wait = 0 ∨ s.inputs = []) ∧
          ((∃ i, decode g.word = .command i ∧ exec i s = .next t) ∨
            (∃ why, decode g.word = .illegal why) ∧ t = raiseIllegal g.word s) := by
      intro hd hm
      refine ⟨f, rfl, hd, ?_⟩
      cases hw : decode f.word with
      | command i => rw [hw] at hm; exact .inl ⟨i, rfl, hm⟩
      | illegal why => rw [hw] at hm; cases hm; exact .inr ⟨⟨why, rfl⟩, rfl⟩
    cases hi : s.inputs with
    | nil =>
      simp only [hf, hi] at h
      exact .inr (.inr (by simpa [hi] using hcomplete (.inr hi) h))
    | cons i rest =>
      simp only [hf, hi] at h
      by_cases hw : f.wait = 0
      · rw [if_pos hw] at h
        exact .inr (.inr (by simpa [hi] using hcomplete (.inl hw) h))
      · rw [if_neg hw] at h; cases h
        refine .inr (.inl ⟨i, rest, ⟨hi, ?_⟩, rfl⟩)
        intro g hg; rw [hf] at hg; cases hg; omega

/-- A state that serves an input serves it in the next step. -/
theorem step_serves (s : State) (i : Input) (rest : List Input) (h : Serves s i rest) : step s = .next (serveInput i s) := by
  obtain ⟨hi, hf⟩ := h
  unfold step nextAction
  cases hfl : s.inflight with
  | none => simp [hi]
  | some f =>
    have : ¬ f.wait = 0 := by have := hf f hfl; omega
    simp [hi, this]

/-- A command that is due completes in the next step. -/
theorem step_completes (s : State) (f : InFlight) (hf : s.inflight = some f) (hd : f.wait = 0 ∨ s.inputs = []) :
    step s = match decode f.word with
      | .command i => exec i s
      | .illegal _ => .next (raiseIllegal f.word s) := by
  unfold step nextAction
  cases hi : s.inputs with
  | nil => cases hd : decode f.word <;> simp [hf, hd]
  | cons i rest =>
    have hw : f.wait = 0 := by simpa [hi] using hd
    cases hd : decode f.word <;> simp [hf, hw, hd]

/-- Serving takes the first input. -/
theorem takeInput_serves (s : State) (i : Input) (rest : List Input) (h : Serves s i rest) : (takeInput s).inputs = rest := by
  simp [h.1]

/-- An idle block serves its first input, and nothing but that input is taken. -/
theorem takeInput_idle (s : State) (h : s.inflight = none) : takeInput s = { s with inputs := s.inputs.tail } := by
  simp [takeInput, h]

/-- The cases of a host read (R75, R78, R79). -/
theorem busRead_cases (off size : Nat) (s : State) :
    (target off size = none ∧ busRead off size s = reject (List.replicate size 0) s) ∨
    ∃ t, target off size = some t ∧
      ((s.busy = true ∧ readableWhileBusy t = false ∧ busRead off size s = drawn (respond (freeBytes s size) s)) ∨
        ((s.busy = false ∨ readableWhileBusy t = true) ∧ busRead off size s = respond (targetBytes size s t) s)) := by
  unfold busRead
  cases ht : target off size with
  | none => exact .inl ⟨rfl, rfl⟩
  | some t =>
    refine .inr ⟨t, rfl, ?_⟩
    cases hb : s.busy <;> cases hr : readableWhileBusy t <;> simp [hr]

/-- The cases of a host write (R76, R78, R79). -/
theorem busWrite_cases (off size : Nat) (v : Word) (s : State) :
    ((target off size = none ∨ ∃ t, target off size = some t ∧ writeRefused v s t = true) ∧
      busWrite off size v s = reject [] s) ∨
    ∃ t, target off size = some t ∧ writeRefused v s t = false ∧
      ((s.busy = true ∧ t ≠ .reg .ctrl ∧ busWrite off size v s = dropWrite s) ∨
        ((s.busy = false ∨ t = .reg .ctrl) ∧ busWrite off size v s = respond [] (writeTarget size v s t))) := by
  unfold busWrite
  cases ht : target off size with
  | none => exact .inl ⟨.inl rfl, rfl⟩
  | some t =>
    cases hr : writeRefused v s t with
    | true => exact .inl ⟨.inr ⟨t, rfl, hr⟩, by simp [hr]⟩
    | false =>
      refine .inr ⟨t, rfl, hr, ?_⟩
      cases hb : s.busy
      · exact .inr ⟨.inl rfl, by simp [hr]⟩
      · by_cases hc : t = .reg .ctrl
        · exact .inr ⟨.inr hc, by subst hc; simp [hr]⟩
        · exact .inl ⟨rfl, hc, by simp [hr, hc]⟩

/-- What an access reaches (R71, R77). -/
theorem target_cases (off size : Nat) (t : Target) (h : target off size = some t) :
    (∃ r, t = .reg r ∧ regAt off = some r ∧ size = 4) ∨
    (∃ a, t = .pageIn a ∧ off = a + 0x100 ∧ (size = 1 ∨ size = 2 ∨ size = 4) ∧ off % size = 0 ∧ a + size ≤ 56) ∨
    (∃ a, t = .buf a ∧ off = a + 0x1000 ∧ (size = 1 ∨ size = 2 ∨ size = 4) ∧ off % size = 0 ∧ a + size ≤ 2048) := by
  have hbases : pageInBase = 0x100 ∧ bufBase = 0x1000 ∧ Config.pageInBytes = 56 ∧ Config.bufBytes = 2048 :=
    ⟨rfl, rfl, rfl, rfl⟩
  unfold target at h
  split at h
  · next r hr =>
    split at h
    · next hs => cases h; exact .inl ⟨r, rfl, hr, hs⟩
    · cases h
  · split at h
    · next ha =>
      simp only [ramAligned, Bool.and_eq_true, Bool.or_eq_true, decide_eq_true_eq] at ha
      have hs : size = 1 ∨ size = 2 ∨ size = 4 := by omega
      split at h
      · next hp =>
        simp only [insideRam, Bool.and_eq_true, decide_eq_true_eq] at hp
        cases h; exact .inr (.inl ⟨_, rfl, by omega, hs, ha.2, by omega⟩)
      · split at h
        · next hp =>
          simp only [insideRam, Bool.and_eq_true, decide_eq_true_eq] at hp
          cases h; exact .inr (.inr ⟨_, rfl, by omega, hs, ha.2, by omega⟩)
        · cases h
    · cases h

end Sys2Proof.Machine
end

