-- ==== Sys2Proof/Laws/Host.lean ====
section
/-!
SUPPORT. The host's side: where an address falls, the operand of a length check, the selection of satellites.
-/

namespace Sys2Proof.Machine

/-- An address in the window is the base and an offset. -/
theorem windowOffset_add (base offset : Nat) (h : offset < Config.windowBytes) :
    windowOffset base (base + offset) = some (BitVec.ofNat 13 offset) := by
  simp [windowOffset, h]

/-- The operand of a length check asks for its bits, up to the greatest operand. -/
theorem lengthOperand_toNat (n : Nat) : (lengthOperand n).toNat = min n 65535 := by
  simp only [lengthOperand, BitVec.toNat_ofNat]
  exact Nat.mod_eq_of_lt (by omega)

/-- Without a sub-mask every satellite is selected. -/
theorem selectedSatellites_none (m : SystemMask) : selectedSatellites m none = m.satellites := by
  simp [selectedSatellites, satelliteSelected, List.filterMap_eq_map']

/-- The bits of two lists of fields. -/
@[simp] theorem fieldBits_append (a b : List Field) : fieldBits (a ++ b) = fieldBits a + fieldBits b := by simp [fieldBits]

/-- The pieces of a read together have its bits, where there are enough of them. -/
theorem pieceWidths_sum (fuel n : Nat) (h : n ≤ 64 * fuel) : (pieceWidths fuel n).sum = n := by
  induction fuel generalizing n with
  | zero => simp [pieceWidths]; omega
  | succ k ih =>
    unfold pieceWidths
    split
    · simp [*]
    · simp only [List.sum_cons, Config.nMax, ih (n - 64) (by omega)]
      omega

/-- A mask system takes 61 bits, and one bit a cell where its flag is set (R191). -/
theorem subtype1Block_bits (nsat nsig : Nat) (flag : Bool) (h : nsat * nsig ≤ 640) :
    fieldBits (subtype1Block nsat nsig flag) = 61 + if flag then nsat * nsig else 0 := by
  have hp := pieceWidths_sum 10 (nsat * nsig) (by omega)
  cases flag <;> simp [subtype1Block, subtype1System, subtype1Cells, fieldBits, unsignedField, maskField, Function.comp_def, hp]
  omega

/-- What stands in a message of subtype 12: each section where it is available, and the sections in their order (R204). -/
theorem subtype12_sections (type ngrid : Nat) (selector : Bool) (stec : List Field) :
    subtype12Body 0 type selector ngrid stec = stec ∧
      subtype12Body 1 type selector ngrid stec = tropoResidual selector ngrid ++ stec ∧
      subtype12Body 2 type selector ngrid stec = tropoModel type ++ stec ∧
      subtype12Body 3 type selector ngrid stec = tropoModel type ++ tropoResidual selector ngrid ++ stec := by
  refine ⟨rfl, rfl, ?_, rfl⟩
  simp [subtype12Body, show tropoAvail 2 = (true, false) from rfl]

/-- A field read by FD_RDS decodes by FDX.UNAV. -/
theorem fieldRaw_rds (f : Field) (s : State) (h : f.reader = .rds) : fieldRaw f s = decodedRaw s := by simp [fieldRaw, h]

/-- A field read by FD_RDSX decodes by FDX.UNAV. -/
theorem fieldRaw_rdsx (f : Field) (s : State) (x : Int) (h : f.reader = .rdsx x) : fieldRaw f s = decodedRaw s := by
  simp [fieldRaw, h]

/-- A field read by BC_RDU is never unavailable. -/
theorem fieldRaw_rdu (f : Field) (s : State) (h : f.reader = .rdu) : fieldRaw f s = some (s.result.toNat : Int) := by
  simp [fieldRaw, h]

end Sys2Proof.Machine
end

