-- ==== Sys2Proof/Laws/Matrix.lean ====
section
/-!
SUPPORT. The shapes of matrices through elimination.
-/

namespace Sys2Proof.Machine

theorem hasShape_iff (r c : Nat) (m : Matrix) : hasShape r c m = true ↔ m.length = r ∧ ∀ row ∈ m, row.length = c := by
  simp [hasShape]

@[simp] theorem scaleRow_length (poly : BitVec 9) (f : Byte) (row : List Byte) : (scaleRow poly f row).length = row.length := by
  simp [scaleRow]

theorem addRows_length (row row' : List Byte) (h : row.length = row'.length) : (addRows row row').length = row.length := by
  simp [addRows, h]

theorem clearWith_length (poly : BitVec 9) (c : Nat) (pivot row : List Byte) (h : row.length = pivot.length) :
    (clearWith poly c pivot row).length = row.length := by
  rw [clearWith, addRows_length]
  simp [h]

/-- A pivot row is one of the rows, and the others are the rest. -/
theorem takePivot_perm (c : Nat) (m : Matrix) (p : List Byte) (rest : Matrix) (h : takePivot c m = some (p, rest)) :
    (p :: rest).Perm m ∧ p.getD c 0 ≠ 0 := by
  induction m generalizing p rest with
  | nil => simp [takePivot] at h
  | cons row rows ih =>
    simp only [takePivot] at h
    split at h
    · next hne => cases h; exact ⟨.refl _, hne⟩
    · split at h
      · cases h
      · next q r hq =>
        cases h
        have := ih _ _ hq
        exact ⟨(List.Perm.swap row p r).trans (this.1.cons row), this.2⟩

/-- There is no pivot exactly when the column is zero. -/
theorem takePivot_none (c : Nat) (m : Matrix) : takePivot c m = none ↔ ∀ row ∈ m, row.getD c 0 = 0 := by
  induction m with
  | nil => simp [takePivot]
  | cons row rows ih =>
    simp only [takePivot]
    split
    · next hne => exact ⟨fun h => (nomatch h), fun h => absurd (h row (List.mem_cons_self ..)) hne⟩
    · next hz =>
      have hz : row.getD c 0 = 0 := not_not.mp hz
      split
      · next hn => exact ⟨fun _ => List.forall_mem_cons.mpr ⟨hz, ih.mp hn⟩, fun _ => rfl⟩
      · next p r hs =>
        constructor
        · intro h; cases h
        · intro h
          have := ih.mpr fun row hr => h row (List.mem_cons_of_mem _ hr)
          rw [this] at hs; cases hs

/-- A round of elimination keeps the shape. -/
theorem eliminateColumn_shape (poly : BitVec 9) (c r w : Nat) (m m' : Matrix) (hm : hasShape r w m = true)
    (h : eliminateColumn poly c m = some m') : hasShape r w m' = true := by
  rw [hasShape_iff] at hm ⊢
  unfold eliminateColumn at h
  split at h
  · cases h
  · next p rest hp =>
    cases h
    obtain ⟨hperm, -⟩ := takePivot_perm _ _ _ _ hp
    have hmem : ∀ row ∈ p :: rest, row.length = w := fun row hr =>
      hm.2 row (List.mem_of_mem_drop (hperm.mem_iff.mp hr))
    have hpw : p.length = w := hmem p (by simp)
    have hlen := hperm.length_eq
    simp only [List.length_cons, List.length_drop] at hlen
    refine ⟨?_, ?_⟩
    · simp only [List.length_append, List.length_map, List.length_take, List.length_cons]
      omega
    · intro row hr
      simp only [List.mem_append, List.mem_map, List.mem_cons] at hr
      rcases hr with ⟨q, hq, rfl⟩ | rfl | ⟨q, hq, rfl⟩
      · have := hm.2 q (List.mem_of_mem_take hq)
        rw [clearWith_length] <;> simp [this, hpw]
      · simp [hpw]
      · have := hmem q (by simp [hq])
        rw [clearWith_length] <;> simp [this, hpw]

theorem eliminateFrom_shape (poly : BitVec 9) (k c r w : Nat) (m m' : Matrix) (hm : hasShape r w m = true)
    (h : eliminateFrom poly k c m = some m') : hasShape r w m' = true := by
  induction k generalizing c m with
  | zero => cases h; exact hm
  | succ k ih =>
    simp only [eliminateFrom] at h
    split at h
    · cases h
    · next m1 h1 => exact ih _ _ (eliminateColumn_shape poly c r w m m1 hm h1) h

/-- The augmented matrix `[A | C]`. -/
theorem augment_shape (n r w : Nat) (a c : Matrix) (ha : hasShape r n a = true) (hc : hasShape r w c = true) :
    hasShape r (n + w) (List.zipWith (· ++ ·) a c) = true := by
  rw [hasShape_iff] at ha hc ⊢
  refine ⟨by simp [ha.1, hc.1], ?_⟩
  intro row hr
  obtain ⟨i, hi, rfl⟩ := List.mem_iff_getElem.mp hr
  simp only [List.getElem_zipWith, List.length_append]
  rw [ha.2 _ (List.getElem_mem _), hc.2 _ (List.getElem_mem _)]

/-- A solution has the shape of the right-hand side. -/
theorem solve_shape (poly : BitVec 9) (n w : Nat) (a c x : Matrix) (ha : hasShape n n a = true) (hc : hasShape n w c = true)
    (h : solve poly n a c = some x) : hasShape n w x = true := by
  unfold solve at h
  split at h
  · cases h
  · next m hm =>
    cases h
    have := eliminateFrom_shape poly n 0 n (n + w) _ m (augment_shape n n w a c ha hc) hm
    rw [hasShape_iff] at this ⊢
    refine ⟨by simp [this.1], ?_⟩
    intro row hr
    obtain ⟨q, hq, rfl⟩ := List.mem_map.mp hr
    simp [this.2 q hq]

/-- The bytes of a matrix, row after row. -/
theorem flatten_length (r c : Nat) (m : Matrix) (h : hasShape r c m = true) : m.flatten.length = r * c := by
  rw [hasShape_iff] at h
  obtain ⟨hr, hc⟩ := h
  subst hr
  induction m with
  | nil => simp
  | cons row rows ih =>
    simp only [List.flatten_cons, List.length_append, List.length_cons]
    rw [hc row (by simp), ih fun q hq => hc q (by simp [hq])]
    ring

end Sys2Proof.Machine
end

