-- ==== Sys2Proof/Laws/PerInstr.lean ====
section
/-!
SUPPORT. Families of statements about every command, one lemma per constructor. EncodedFields: the three fields of a command's word are
its OPC and its operands. WidthBounded: the width operand of a well-formed command is at most 64.
-/

namespace Sys2Proof.Laws

/-- The fields of the word of `i` are its OPC, `N` and `IMM` (30_encoding.md R100). -/
def EncodedFields.Statement (i : Instr) : Prop :=
  opcField (encode i) = i.opcode ∧ nField (encode i) = i.nOperand ∧ immField (encode i) = i.immOperand

/-- The `N` field of a well-formed command is at most 64 (R104). -/
def WidthBounded.Statement (i : Instr) : Prop := i.wellFormed = true → i.nOperand.toNat ≤ 64

theorem encodedFields_any (i : Instr) : EncodedFields.Statement i :=
  ⟨opcField_append _ _ _, nField_append _ _ _, immField_append _ _ _⟩

theorem EncodedFields.nop : EncodedFields.Statement .nop := encodedFields_any _
theorem EncodedFields.bcReset : EncodedFields.Statement .bcReset := encodedFields_any _
theorem EncodedFields.bcRdu (a : BitVec 8) : EncodedFields.Statement (.bcRdu a) := encodedFields_any _
theorem EncodedFields.bcRdi (a : BitVec 8) : EncodedFields.Statement (.bcRdi a) := encodedFields_any _
theorem EncodedFields.bcRem : EncodedFields.Statement .bcRem := encodedFields_any _
theorem EncodedFields.bcPos : EncodedFields.Statement .bcPos := encodedFields_any _
theorem EncodedFields.bcSubr (a : BitVec 16) (b : BitVec 8) : EncodedFields.Statement (.bcSubr a b) := encodedFields_any _
theorem EncodedFields.bcSeek (a : BitVec 16) : EncodedFields.Statement (.bcSeek a) := encodedFields_any _
theorem EncodedFields.bcMark : EncodedFields.Statement .bcMark := encodedFields_any _
theorem EncodedFields.bcRewind : EncodedFields.Statement .bcRewind := encodedFields_any _
theorem EncodedFields.bcReq (a : BitVec 16) : EncodedFields.Statement (.bcReq a) := encodedFields_any _
theorem EncodedFields.fdRds (a : BitVec 8) : EncodedFields.Statement (.fdRds a) := encodedFields_any _
theorem EncodedFields.fdRdsx (a : BitVec 8) (b : BitVec 16) : EncodedFields.Statement (.fdRdsx a b) := encodedFields_any _
theorem EncodedFields.fdRdpc (a : BitVec 8) : EncodedFields.Statement (.fdRdpc a) := encodedFields_any _
theorem EncodedFields.hasPage : EncodedFields.Statement .hasPage := encodedFields_any _
theorem EncodedFields.hasClear : EncodedFields.Statement .hasClear := encodedFields_any _

theorem WidthBounded.nop : WidthBounded.Statement .nop := fun _ => by decide
theorem WidthBounded.bcReset : WidthBounded.Statement .bcReset := fun _ => by decide
theorem WidthBounded.bcRdu (a : BitVec 8) : WidthBounded.Statement (.bcRdu a) := fun h => ((widthInRange_iff _ _).mp h).2
theorem WidthBounded.bcRdi (a : BitVec 8) : WidthBounded.Statement (.bcRdi a) := fun h => ((widthInRange_iff _ _).mp h).2
theorem WidthBounded.bcRem : WidthBounded.Statement .bcRem := fun _ => by decide
theorem WidthBounded.bcPos : WidthBounded.Statement .bcPos := fun _ => by decide
theorem WidthBounded.bcSubr (a : BitVec 16) (b : BitVec 8) : WidthBounded.Statement (.bcSubr a b) := fun h => ((widthInRange_iff _ _).mp h).2
theorem WidthBounded.bcSeek (a : BitVec 16) : WidthBounded.Statement (.bcSeek a) := fun _ => by simp [Instr.nOperand]
theorem WidthBounded.bcMark : WidthBounded.Statement .bcMark := fun _ => by decide
theorem WidthBounded.bcRewind : WidthBounded.Statement .bcRewind := fun _ => by decide
theorem WidthBounded.bcReq (a : BitVec 16) : WidthBounded.Statement (.bcReq a) := fun _ => by simp [Instr.nOperand]
theorem WidthBounded.fdRds (a : BitVec 8) : WidthBounded.Statement (.fdRds a) := fun h => ((widthInRange_iff _ _).mp h).2
theorem WidthBounded.fdRdsx (a : BitVec 8) (b : BitVec 16) : WidthBounded.Statement (.fdRdsx a b) := fun h => ((widthInRange_iff _ _).mp h).2
theorem WidthBounded.fdRdpc (a : BitVec 8) : WidthBounded.Statement (.fdRdpc a) := fun h => ((widthInRange_iff _ _).mp h).2
theorem WidthBounded.hasPage : WidthBounded.Statement .hasPage := fun _ => by decide
theorem WidthBounded.hasClear : WidthBounded.Statement .hasClear := fun _ => by decide

end Sys2Proof.Laws
end

