-- ==== Sys2Proof/Tests/Slice0.lean ====
section
/-!
SUPPORT. The model's own tests: ill-formed terms are refused, every constructor's word written out from 30_encoding.md R100 and R104
decodes to it, one step of each command on a small state (expected values: 95_test_vectors.md, the vector named at each test, or a
hand calculation from the rule cited), GF(256) values, the bus and the resets; and, for every statement with hypotheses, a state and
operands that meet them.
-/

namespace Sys2Proof.Tests

open Sys2Proof Sys2Proof.Machine

/-! ### Helpers -/

/-- Power-on reset, then these bytes in BUF from byte 0, LEN and POS. -/
def stream (bytes : List Byte) (len pos : BitVec 16) : State :=
  { State.reset with buf := State.reset.buf.writeBytes 0 bytes, len := len, pos := pos }

/-- Buffer E of 95_test_vectors.md §2.2, with the cursor at `pos`. -/
def bufferE (pos : BitVec 16) : State := stream [0xA5, 0x3C, 0xF0, 0x0F] 32 pos

/-- The state a command leaves. -/
def after (i : Instr) (s : State) : State :=
  match exec i s with
  | .next t => t
  | .fault _ => s
  | .refused _ => s

/-- The state a step leaves. -/
def afterStep (s : State) : State :=
  match step s with
  | .next t => t
  | .fault _ => s
  | .refused _ => s

/-- A command word in flight, and what the host does next. -/
def flying (w : Word) (wait : Nat) (inputs : List Input) : State :=
  { State.reset with inflight := some ⟨w, wait⟩, inputs := inputs }

/-- The host's next accesses, nothing in flight. -/
def given (inputs : List Input) (s : State) : State := { s with inputs := inputs }

/-- The page of a header and a payload in PAGE_IN. -/
def paged (header : List Byte) (payload : List Byte) (s : State) : State :=
  { s with pageIn := s.pageIn.writeBytes 0 (header ++ payload) }

/-- The test matrix `G_T` of 95_test_vectors.md §2.5. -/
def testGen (r : Fin 92) (j : Fin 32) : Byte :=
  if r.val < 32 then (if j.val = r.val then 1 else 0) else gfExp (((r.val - 32) * j.val) % 255)

/-- Message row `m0` of §2.5. -/
def m0 : List Byte := (List.range 53).map fun k => BitVec.ofNat 8 k

/-- After step 1 of RS-2, RS-3 and RS-7: page 33 of message 5 is stored. -/
def oneStored : State :=
  { State.reset with store := [(33, List.replicate 53 0x80)], lastMid := 5, midValid := true, lastMs := 2 }

/-- Page 33 of message 5 alone in a store with storing disabled. -/
def disabled : State := { oneStored with storeEn := false }

/-! ### WellFormed refuses -/

theorem test_illformed_bcRdu : (Instr.bcRdu 65).wellFormed = false := by decide
theorem test_illformed_bcRdi : (Instr.bcRdi 65).wellFormed = false := by decide
theorem test_illformed_bcSubr : (Instr.bcSubr 0 65).wellFormed = false := by decide
theorem test_illformed_fdRds_zero : (Instr.fdRds 0).wellFormed = false := by decide
theorem test_illformed_fdRds_wide : (Instr.fdRds 65).wellFormed = false := by decide
theorem test_illformed_fdRdsx_zero : (Instr.fdRdsx 0 0).wellFormed = false := by decide
theorem test_illformed_fdRdsx_wide : (Instr.fdRdsx 65 0).wellFormed = false := by decide
theorem test_illformed_fdRdpc : (Instr.fdRdpc 65).wellFormed = false := by decide

/-! ### Words written out from R100 and R104: OPC in bits 31:24, N in 23:16, IMM in 15:0 -/

theorem test_decode_nop : decode (0x00#8 ++ 0x00#8 ++ 0x0000#16) = .command .nop := by decide
theorem test_decode_bcReset : decode (0x01#8 ++ 0x00#8 ++ 0x0000#16) = .command .bcReset := by decide
theorem test_decode_bcRdu : decode (0x02#8 ++ 0x40#8 ++ 0x0000#16) = .command (.bcRdu 64) := by decide
theorem test_decode_bcRdi : decode (0x03#8 ++ 0x0C#8 ++ 0x0000#16) = .command (.bcRdi 12) := by decide
theorem test_decode_bcRem : decode (0x04#8 ++ 0x00#8 ++ 0x0000#16) = .command .bcRem := by decide
theorem test_decode_bcPos : decode (0x05#8 ++ 0x00#8 ++ 0x0000#16) = .command .bcPos := by decide
theorem test_decode_bcSubr : decode (0x06#8 ++ 0x04#8 ++ 0x001C#16) = .command (.bcSubr 28 4) := by decide
theorem test_decode_bcSeek : decode (0x07#8 ++ 0x00#8 ++ 0x8021#16) = .command (.bcSeek 32801) := by decide
theorem test_decode_bcMark : decode (0x08#8 ++ 0x00#8 ++ 0x0000#16) = .command .bcMark := by decide
theorem test_decode_bcRewind : decode (0x09#8 ++ 0x00#8 ++ 0x0000#16) = .command .bcRewind := by decide
theorem test_decode_bcReq : decode (0x0A#8 ++ 0x00#8 ++ 0x003D#16) = .command (.bcReq 61) := by decide
theorem test_decode_fdRds : decode (0x10#8 ++ 0x0F#8 ++ 0x0000#16) = .command (.fdRds 15) := by decide
theorem test_decode_fdRdsx : decode (0x11#8 ++ 0x0D#8 ++ 0xF000#16) = .command (.fdRdsx 13 0xF000) := by decide
theorem test_decode_fdRdpc : decode (0x12#8 ++ 0x28#8 ++ 0x0000#16) = .command (.fdRdpc 40) := by decide
theorem test_decode_hasPage : decode (0x20#8 ++ 0x00#8 ++ 0x0000#16) = .command .hasPage := by decide
theorem test_decode_hasClear : decode (0x21#8 ++ 0x00#8 ++ 0x0000#16) = .command .hasClear := by decide

/-- Vectors E-2 to E-14: illegal words. -/
theorem test_decode_illegal :
    [0x0B000000#32, 0x13000000, 0x22000000, 0xFF000000].map decode = List.replicate 4 (.illegal .opcode) ∧
      [0x00010000#32, 0x00000001, 0x02040001, 0x07010000, 0x20000001].map decode = List.replicate 5 (.illegal .reserved) ∧
      [0x02410000#32, 0x10000000, 0x11000000, 0x12410000].map decode = List.replicate 4 (.illegal .width) := by decide

/-- The host numbers the bits of a row from the least significant one. -/
theorem test_tableWord : decodeTableWord 32 0x0604001C = some (.bcSubr 28 4) := by decide

/-! ### One step of each command -/

/-- E-1. -/
theorem test_nop : statusWord (after .nop State.reset) = 0 := by decide
/-- R140, BC-28. -/
theorem test_bcReset : (after .bcReset (bufferE 12)).len = 0 ∧ (after .bcReset (bufferE 12)).pos = 0 := by decide
/-- BC-3. -/
theorem test_bcRdu : (after (.bcRdu 8) (bufferE 4)).result = 0x53 ∧ (after (.bcRdu 8) (bufferE 4)).pos = 12 := by decide
/-- BC-8. -/
theorem test_bcRdu_short :
    statusWord (after (.bcRdu 9) (bufferE 24)) = 0x00010210 ∧ (after (.bcRdu 9) (bufferE 24)).pos = 24 := by decide
/-- BC-4. -/
theorem test_bcRdi : (after (.bcRdi 12) (bufferE 12)).result = 0xFFFFFFFFFFFFFCF0 := by decide
/-- BC-32. -/
theorem test_bcRdi_bit : (after (.bcRdi 1) (bufferE 0)).result = 0xFFFFFFFFFFFFFFFF := by decide
/-- BC-5. -/
theorem test_bcRem : (after .bcRem (bufferE 24)).result = 8 := by decide
/-- BC-6. -/
theorem test_bcPos : (after .bcPos (bufferE 24)).result = 0x18 := by decide
/-- BC-12. -/
theorem test_bcSubr : (after (.bcSubr 28 4) (bufferE 24)).result = 0xF ∧ (after (.bcSubr 28 4) (bufferE 24)).pos = 24 := by decide
/-- BC-14. -/
theorem test_bcSubr_beyond : (after (.bcSubr 33 0) (bufferE 24)).code = .insufficientData := by decide
/-- BC-16. -/
theorem test_bcSeek : (after (.bcSeek 32) (bufferE 24)).pos = 32 := by decide
/-- BC-19. -/
theorem test_bcSeek_beyond : (after (.bcSeek 33) (bufferE 32)).pos = 32 := by decide
/-- BC-7. -/
theorem test_bcMark : (after .bcMark (bufferE 24)).mark = 24 := by decide
/-- BC-10. -/
theorem test_bcRewind : (after .bcRewind { bufferE 25 with mark := 24 }).pos = 24 := by decide
/-- BC-26. -/
theorem test_bcReq : (after (.bcReq 32) (bufferE 0)).code = .ok := by decide
/-- BC-27. -/
theorem test_bcReq_short : (after (.bcReq 33) (bufferE 0)).code = .insufficientData := by decide
/-- FD-5. -/
theorem test_fdRds_sentinel :
    (after (.fdRds 15) (stream [0x80, 0x00] 15 0)).result = 0xFFFFFFFFFFFFC000 ∧
      fdxWord (after (.fdRds 15) (stream [0x80, 0x00] 15 0)) = 1 := by decide
/-- FD-6. -/
theorem test_fdRds_value : fdxWord (after (.fdRds 15) (stream [0x80, 0x02] 15 0)) = 0 := by decide
/-- FD-10. -/
theorem test_fdRdsx_sentinel : fdxWord (after (.fdRdsx 13 0xF000) (stream [0x80, 0x00] 13 0)) = 1 := by decide
/-- FD-9. -/
theorem test_fdRdsx_never : fdxWord (after (.fdRdsx 13 0xC000) (stream [0x80, 0x00] 13 0)) = 0 := by decide
/-- FD-12. -/
theorem test_fdRdpc_all : fdxWord (after (.fdRdpc 64) (stream (List.replicate 8 0xFF) 64 0)) = 0x00004000 := by decide +kernel
/-- FD-15. -/
theorem test_fdRdpc : fdxWord (after (.fdRdpc 16) (stream [0xA5, 0x3C] 16 0)) = 0x00000800 := by decide
/-- RS-3, step 2. -/
theorem test_hasPage_recovers :
    let t := hasPageWith 0x11D testGen (paged [0x04, 0xA1, 0x01] m0 oneStored)
    t.result = 1 ∧ psStatusWord t = 0x00020582 ∧ t.len = 848 ∧
      [0, 1, 52, 53, 105].map t.buf.read = [0x00, 0x01, 0x34, 0x80, 0xB4] := by decide +kernel
/-- RS-4, step 2. -/
theorem test_hasPage_singular :
    let s := { bufferE 0 with store := [(3, List.replicate 53 0)], lastMid := 7, midValid := true, lastMs := 2 }
    let t := hasPageWith 0x11D testGen (paged [0x04, 0xE1, 0x04] (List.replicate 53 0) s)
    statusWord t = 0x00012040 ∧ psStatusWord t = 0x00000780 ∧ t.len = 32 ∧ t.buf.read 0 = 0xA5 := by decide +kernel
/-- RS-7, step 11. -/
theorem test_hasClear : psStatusWord (after .hasClear oneStored) = 0x00000040 := by decide

/-- R280, as the host reads it in STATUS[7:4]: a page id of 0, and message type 2. -/
theorem test_hasPage_codes :
    (statusWord (after .hasPage (paged [0x04, 0xA1, 0x00] [] State.reset))).extractLsb' 4 4 = 3 ∧
      (statusWord (after .hasPage (paged [0x08, 0xA1, 0x01] [] State.reset))).extractLsb' 4 4 = 5 := by decide +kernel

/-! ### GF(256) and matrices -/

/-- GF-3 to GF-5, GF-7. -/
theorem test_gfMul :
    gfMul 0x11D 0x02 0x80 = 0x1D ∧ gfMul 0x11D 0x53 0xCA = 0x8F ∧ gfMul 0x11D 0xFF 0xFF = 0xE2 ∧
      gfMul 0x11D 0x57 0x83 = 0x31 ∧ gfMul 0x11B 0x57 0x83 = 0xC1 := by decide +kernel
/-- GF-12. -/
theorem test_gfInv : [0x1D#8, 0x53, 0x80, 0x8E, 0xFF].map (gfInv 0x11D) = [0x83, 0x8C, 0x1B, 0x02, 0xFD] := by decide +kernel
/-- GF-18. -/
theorem test_solve :
    solve 0x11D 3 [[0x01, 0x01, 0x01], [0x01, 0x04, 0x10], [0x01, 0x80, 0x13]] (identity 3) =
      some [[0x44, 0x65, 0x20], [0xF3, 0xDB, 0x28], [0xB6, 0xBE, 0x08]] := by decide +kernel
/-- GF-16: a pivot from a lower row; GF-17: not invertible. -/
theorem test_solve_swap_and_singular :
    solve 0x11D 2 [[0x00, 0x01], [0x01, 0x00]] (identity 2) = some [[0x00, 0x01], [0x01, 0x00]] ∧
      solve 0x11D 2 [[0x03, 0x05], [0x06, 0x0A]] (identity 2) = none := by decide +kernel

/-! ### The bus, the resets, the host's side -/

/-- HB-1. -/
theorem test_read_id :
    (afterStep (given [.read 0x000 4] State.reset)).response = some ⟨[0x01, 0x44, 0x53, 0x52], false⟩ := by decide
/-- HB-6. -/
theorem test_read_buf : (afterStep (given [.read 0x1002 2] (bufferE 0))).response = some ⟨[0xF0, 0x0F], false⟩ := by decide
/-- HB-8. -/
theorem test_read_misaligned : statusWord (afterStep (given [.read 0x1002 4] State.reset)) = 0x00040000 := by decide
/-- HB-19. -/
theorem test_write_pageIn :
    [52, 53, 54, 55].map (afterStep (given [.write 0x134 4 0x44332211] State.reset)).pageIn.read = [0x11, 0x22, 0x33, 0x44] := by
  decide
/-- HB-14. -/
theorem test_write_len_below_pos : (afterStep (given [.write 0x020 4 4] (bufferE 12))).len = 32 := by decide
/-- R79: a write made while BUSY = 1 is dropped and sets HAZ. -/
theorem test_write_busy :
    statusWord (afterStep (flying 0 1 [.write 0x1000 4 0])) = 0x00020001 := by decide
/-- E-2, in flight. -/
theorem test_illegal_word : statusWord (afterStep (flying 0x0B000000 0 [])) = 0x00010B20 := by decide
/-- R108's example. -/
theorem test_assemble : assembleLine "FD_RDSX 13, -4096 ; cross-track" = some 0x110DF000 := by decide +kernel

/-- R198: the first-read bit of a sub-mask is for the first satellite of the list, and with the network flag 0 all are selected; a cell
needs its flag too. -/
theorem test_subMask :
    let m : SystemMask := { system := .gps, satellites := [1, 2, 5], signals := [0, 3], cells := [true, false, true, true, true, true] };
    selectedSatellites m (some 0b110) = [1, 2] ∧ selectedSatellites m (some 0b001) = [5] ∧ selectedSatellites m none = [1, 2, 5] ∧
      selectedCells m (some 0b110) = [(1, 0), (2, 0), (2, 3)] ∧ withSubMasks false [m] [0b110] = [(m, none)] ∧
      withSubMasks true [m] [0b110] = [(m, some 0b110)] := by decide
/-- R207: 63 grids of 64 residuals of 16 bits are 65583 bits, more than an operand holds, and the check fails with BUF full. -/
theorem test_lengthCheck :
    fieldBits (List.replicate 63 (subtype9Grid true 64)).flatten = 65583 ∧ lengthOperand 65583 = 65535 ∧
      lengthOperand 848 = 848 ∧ (after (.bcReq (lengthOperand 65583)) (stream [] 16384 0)).code = .insufficientData := by
  decide +kernel
/-- R204: tropo-avail 0b10 is the model alone, 0b01 the residual alone; with both, the model (6 + 2 + 9 + 7 + 7 bits, type 1), the
residual (1 + 4 bits and two of 8), and the STEC part of satellites 2 and 5 (types 0 and 3, residual selectors 1 and 2, two grids). -/
theorem test_subtype12 :
    let m : SystemMask := { system := .galileo, satellites := [2, 5], signals := [], cells := [] };
    let readings := fun (_ : SatelliteSystem) (slot : Nat) => if slot = 2 then (0, 1) else (3, 2);
    let widths := fun avail => (subtype12 avail 1 true 2 readings [(m, none)]).map Field.width;
    let stec := [6, 2, 14, 2, 4, 4] ++ [6, 2, 14, 12, 12, 10, 8, 8, 2, 5, 5];
    widths 0b10 = [2, 2] ++ [6, 2, 9, 7, 7] ++ stec ∧ widths 0b01 = [2, 2] ++ [1, 4, 8, 8] ++ stec ∧
      widths 0b11 = [2, 2] ++ [6, 2, 9, 7, 7] ++ [1, 4, 8, 8] ++ stec ∧ widths 0b00 = [2, 2] ++ stec := by decide
/-- R175: the tropo residual offset (R204), 4 bits with the scale 0.02, is 15 × 0.02 whatever FDX holds. -/
theorem test_unsigned_scaled :
    let f : Field := { width := 4, reader := .rdu, scale := some 200 };
    let t := after f.command { stream [0xF0] 4 0 with unav := true };
    t.unav = true ∧ decodedScaled f t = some 3000 := by decide

/-! ### The hypotheses of the statements are met: `test_hyps_<statement>`, with a state for each clause at the ends of its range -/

/-- For DecodingAnEncodedCommandGivesItBack, PlacedWordRunsItsCommand. -/
theorem test_hyps_wellFormed :
    (Instr.fdRdsx 64 0xFFFF).wellFormed = true ∧ (Instr.fdRds 1).wellFormed = true ∧ (Instr.bcRdu 0).wellFormed = true := by
  decide

/-- For DecodedWordIsTheEncodingOfItsCommand. -/
theorem test_hyps_decoded : decode 0x11400000 = .command (.fdRdsx 64 0) ∧ decode 0x02000000 = .command (.bcRdu 0) := by decide

/-- For IllegalWordsAreThoseOffTheOpcodeMap, and the last clause of RaisingChangesOnlyStatus: due because the count is 0, or because
no access is pending. -/
theorem test_hyps_illegal :
    (flying 0x0B000000 0 [.powerOn]).inflight = some ⟨0x0B000000, 0⟩ ∧
      (flying 0x02410000 3 []).inflight = some ⟨0x02410000, 3⟩ ∧ (flying 0x02410000 3 []).inputs = [] ∧
      ¬ inOpcodeMap 0x0B000000 ∧ ¬ inOpcodeMap 0x02410000 ∧ decode 0x0B000000 = .illegal .opcode := by
  unfold inOpcodeMap
  decide

/-- For the idle clause of NoConditionStopsTheBlock: after reset, and with every register at another value. -/
theorem test_hyps_quiet :
    State.reset.inflight = none ∧ State.reset.inputs = [] ∧
      (let s := { bufferE 12 with result := 7, mark := 3, err := true, storeEn := false }; s.inflight = none ∧ s.inputs = []) := by
  decide

/-- For StepRunsTheDecodedCommand, EveryCommandLeavesTheBlockIdle. -/
theorem test_hyps_stepRuns :
    (flying 0x02040000 0 [.powerOn]).inflight = some ⟨0x02040000, 0⟩ ∧ (flying 0x02040000 5 []).inputs = [] ∧
      decode 0x02040000 = .command (.bcRdu 4) := by decide

/-- For CmdWriteStartsItsCommand, LenWriteIsAcceptedWithinBounds, StatusFieldsAndWriteOneToClear, IdleWritesStoreTheirBytes (the last
bytes of each RAM), IdleReadsReturnTheContents. -/
theorem test_hyps_idle :
    State.reset.inflight = none ∧ (given [.write 0x00C 4 0x20000000] State.reset).inputs = .write 0x00C 4 0x20000000 :: [] ∧
      target 0x17FF 1 = some (.buf 2047) ∧ target 0x17FC 4 = some (.buf 2044) ∧ target 0x1000 2 = some (.buf 0) ∧
      target 0x100 4 = some (.pageIn 0) ∧ target 0x137 1 = some (.pageIn 55) ∧ target 0x000 4 = some (.reg .id) ∧
      target 0x02C 4 = some (.reg .param) := by decide

/-- For the clause of IdleReadsReturnTheContents about each register: RESULT_HI, FDX and MARK, read at their offsets
(bytes by hand from R39, R41 and R38). -/
theorem test_hyps_registers :
    (afterStep (given [.read 0x014 4] { State.reset with result := 0x0123456789ABCDEF })).response =
        some ⟨[0x67, 0x45, 0x23, 0x01], false⟩ ∧
      (afterStep (given [.read 0x018 4] { State.reset with unav := true, popc := 64 })).response =
        some ⟨[0x01, 0x40, 0x00, 0x00], false⟩ ∧
      (afterStep (given [.read 0x024 4] { State.reset with mark := 0x3FFF })).response =
        some ⟨[0xFF, 0x3F, 0x00, 0x00], false⟩ ∧
      (0x000#13, 0x52534401#32) ∈ [(0x000#13, 0x52534401#32), (0x02C, 0x405C0800)] := by decide

/-- For LenWriteIsAcceptedWithinBounds: the greatest value, the least one, and refusals just beyond each bound. -/
theorem test_hyps_len :
    (lenAccepts 16384 State.reset && lenAccepts 12 { bufferE 12 with mark := 12 } &&
      !lenAccepts 16385 State.reset && !lenAccepts 0x10000 State.reset && !lenAccepts 11 (bufferE 12) &&
      !lenAccepts 11 { bufferE 0 with mark := 12 }) = true := by decide

/-- For LenWriteIsAcceptedWithinBounds while BUSY = 1: one more than BUF_BITS, and a bit above 15 set. -/
theorem test_hyps_len_busy :
    (flying 0 1 [.write 0x020 4 16385]).inflight = some ⟨0, 1⟩ ∧ 0 < (InFlight.mk 0 1).wait ∧ ¬ (16385#32).toNat ≤ 16384 ∧
      ¬ (0x10000#32).extractLsb' 16 16 = 0 ∧
      statusWord (afterStep (flying 0 1 [.write 0x020 4 16385])) = 0x00040001 := by decide

/-- For BcRdu, BcRdi, FdRds, FdRdsx, FdRdpc, BcSubr: fields of 0, 1 and 64 bits that just fit, and one bit too few. -/
theorem test_hyps_reads :
    (bufferE 32).pos.toNat + (0#8).toNat ≤ (bufferE 32).len.toNat ∧ (bufferE 31).pos.toNat + (1#8).toNat ≤ (bufferE 31).len.toNat ∧
      (stream [] 64 0).pos.toNat + (64#8).toNat ≤ (stream [] 64 0).len.toNat ∧ (64#8).toNat ≤ 64 ∧ 1 ≤ (1#8).toNat ∧
      (stream [] 63 0).len.toNat < (stream [] 63 0).pos.toNat + (64#8).toNat ∧
      (bufferE 32).len.toNat < (bufferE 32).pos.toNat + (1#8).toNat ∧
      (32#16).toNat + (0#8).toNat ≤ (bufferE 0).len.toNat ∧ (bufferE 0).len.toNat < (33#16).toNat + (0#8).toNat := by decide

/-- For FdRdsxFlagsTheGivenSentinel with 13 bits: just below, at and above the range of the field. -/
theorem test_hyps_sentinels :
    (0xEFFF#16).toInt < -(2 ^ ((13#8).toNat - 1)) ∧ (0xF000#16).toInt = -(2 ^ ((13#8).toNat - 1)) ∧
      2 ^ ((13#8).toNat - 1) ≤ (0x1000#16).toInt := by decide

/-- For BcResetEmptiesTheBuffer. -/
theorem test_hyps_bcReset : readWidth (.bcRdu 1) = some 1 ∧ readWidth (.fdRdsx 64 0) = some 64 := by decide

/-- For BcRemAndBcPosReportTheCursor, BcSeekSetsTheCursor. -/
theorem test_hyps_cursor :
    (bufferE 32).pos.toNat ≤ (bufferE 32).len.toNat ∧ (32#16).toNat ≤ (bufferE 0).len.toNat ∧
      (bufferE 0).len.toNat < (33#16).toNat := by decide

/-- For BcMarkAndBcRewindKeepABoundary: a BC_SEEK between the two. -/
theorem test_hyps_mark :
    exec .bcMark (bufferE 24) = .next (after .bcMark (bufferE 24)) ∧
      (after (.bcSeek 3) (after .bcMark (bufferE 24))).mark = (after .bcMark (bufferE 24)).mark ∧
      exec .bcRewind (after (.bcSeek 3) (after .bcMark (bufferE 24))) =
        .next (after .bcRewind (after (.bcSeek 3) (after .bcMark (bufferE 24)))) := ⟨rfl, by decide, rfl⟩

/-- For BcReqChecksTheLength. -/
theorem test_hyps_bcReq :
    (bufferE 0).pos.toNat + (32#16).toNat ≤ (bufferE 0).len.toNat ∧ (bufferE 0).len.toNat < (bufferE 0).pos.toNat + (33#16).toNat ∧
      CursorInv (bufferE 32) ∧ (0#16).toNat = 0 ∧ 16384 < (16385#16).toNat ∧ CursorInv (stream [] 16384 0) := by decide

/-- For ShortReadsChangeNothing, the first clause of RaisingChangesOnlyStatus, CommandsLeaveOtherUnitsAlone: BC-8. -/
theorem test_hyps_short :
    familyOf (.bcRdu 9) = .bitCursor ∧ familyOf (.fdRds 9) = .fieldDecode ∧
      exec (.bcRdu 9) (bufferE 24) = .next (after (.bcRdu 9) (bufferE 24)) ∧
      (after (.bcRdu 9) (bufferE 24)).code = .insufficientData := ⟨rfl, rfl, rfl, by decide⟩

/-- For LongFieldsSplit: BC-1 and BC-3, and a field of 64 bits. -/
theorem test_hyps_split :
    (12#8).toNat = (4#8).toNat + (8#8).toNat ∧ (bufferE 0).pos.toNat + (12#8).toNat ≤ (bufferE 0).len.toNat ∧
      (64#8).toNat = (1#8).toNat + (63#8).toNat ∧ (64#8).toNat ≤ 64 ∧
      exec (.bcRdu 4) (bufferE 0) = .next (after (.bcRdu 4) (bufferE 0)) := ⟨rfl, by decide, rfl, by decide, rfl⟩

/-- For the clause of RaisingChangesOnlyStatus about MATRIX_NOT_INVERTIBLE: an all-zero matrix. -/
theorem test_hyps_notInvertible :
    (hasPageWith 0x11D (fun _ _ => 0) (paged [0x04, 0xA0, 0x01] (List.replicate 53 0) State.reset)).code = .matrixNotInvertible := by
  decide +kernel

/-- For ErrIsSticky: a completion, and the three ways ERR is cleared. -/
theorem test_hyps_err :
    step (flying 0x02010000 0 []) = .next (afterStep (flying 0x02010000 0 [])) ∧
      (after (.bcRdu 1) State.reset).code = .insufficientData ∧ (after .nop State.reset).code = .ok ∧
      (afterStep (given [.write 0x004 4 0x00010000] { State.reset with err := true })).err = false ∧
      (afterStep (given [.write 0x008 4 1] { State.reset with err := true })).err = false ∧
      (afterStep (given [.powerOn] { State.reset with err := true })).err = false :=
  ⟨rfl, by decide, by decide, by decide, rfl, rfl⟩

/-- For the statements about every field polynomial. -/
theorem test_hyps_poly : (0x11D#9) ∈ Config.fieldPolys ∧ (0x11B#9) ∈ Config.fieldPolys ∧ (0xFF#8) ≠ 0 ∧ (0x01#8) ≠ 0 ∧
      (0x11D#9).getLsbD 8 = true ∧ (0x100#9).getLsbD 8 = true ∧ (0x1FF#9).getLsbD 8 = true := by decide

/-- For EliminationSolvesExactlyTheInvertible: GF-13 and GF-16. -/
theorem test_hyps_invertible :
    Invertible 0x11D 2 [[0x01, 0x01], [0x01, 0x02]] ∧ Invertible 0x11D 2 [[0x00, 0x01], [0x01, 0x00]] ∧
      hasShape 2 2 [[0x01, 0x01], [0x01, 0x02]] = true ∧ hasShape 2 0 [[], []] = true :=
  ⟨⟨[[0xF5, 0xF4], [0xF4, 0xF4]], by decide +kernel⟩, ⟨[[0x00, 0x01], [0x01, 0x00]], by decide +kernel⟩, by decide, by decide⟩

/-- For EliminationSolvesExactlyTheInvertible and HasPageRecoversTheMessage: a matrix that is not invertible. -/
theorem test_hyps_singular : ¬ Invertible 0x11D 1 [[0x00]] := by
  rintro ⟨b, -, h, -⟩
  have h0 := congrArg (fun m => entry m 0 0) h
  have hz : ∀ x : Byte, gfAdd 0 (gfMul 0x11D 0x00 x) ≠ 1 := by decide +kernel
  exact hz (entry b 0 0) h0

/-- For RecoveryIsSelectionInvariant: RS-3's selection of the message `m0, m0`. -/
theorem test_hyps_selection :
    Invertible 0x11D 2 (selectionMatrix testGen 2 [(1, encodedPage 0x11D testGen 2 [m0, m0] 1), (33, encodedPage 0x11D testGen 2 [m0, m0] 33)]) ∧
      hasShape 2 53 [m0, m0] = true ∧ ([1, 33] : List Nat).Nodup :=
  ⟨⟨[[0x01, 0x00], [0x01, 0x01]], by decide +kernel⟩, by decide +kernel, by decide⟩

/-- For RecoveryIgnoresThePageOrder, DegenerateRowsAreNotRecovered: the pages of RS-6, and two pages with equal rows. -/
theorem test_hyps_pages :
    ([(1, m0), (3, List.replicate 53 0)] : List (Nat × List Byte)).Perm [(3, List.replicate 53 0), (1, m0)] ∧ m0.length = 53 ∧
      generatorRow testGen 2 3 = List.replicate 2 0 ∧
      (selectionMatrix testGen 2 [(3, m0), (4, m0)]).getD 0 [] = (selectionMatrix testGen 2 [(3, m0), (4, m0)]).getD 1 [] :=
  ⟨.swap .., by decide +kernel, by decide +kernel, by decide +kernel⟩

/-- For HasPageDiscardsDummyPages, HasPageRejectsBadHeaders: page ids 0 and 93, and the message type 2 with page ids 1 and 92. -/
theorem test_hyps_headers :
    pageHeader (paged [0xAF, 0x3B, 0xC3] [] State.reset) = 0xAF3BC3#24 ∧
      headerPid (pageHeader (paged [0x04, 0xA1, 0x00] [] State.reset)) = 0 ∧
      92 < headerPid (pageHeader (paged [0x04, 0xA1, 0x5D] [] State.reset)) ∧
      headerPid (pageHeader (paged [0x08, 0xA1, 0x01] [] State.reset)) = 1 ∧
      headerPid (pageHeader (paged [0x08, 0xA1, 0x5C] [] State.reset)) = 92 ∧
      headerMt (pageHeader (paged [0x08, 0xA1, 0x5C] [] State.reset)) ≠ 1 ∧
      pageHeader (paged [0x08, 0xA1, 0x5C] [] State.reset) ≠ 0xAF3BC3#24 := by decide

/-- Page 34 of message 5 after page 33 of it, storing disabled (RS-8). -/
theorem test_hyps_ignored :
    ValidPage (paged [0x04, 0xA1, 0x22] m0 disabled) ∧ (paged [0x04, 0xA1, 0x22] m0 disabled).midValid = true ∧
      (paged [0x04, 0xA1, 0x22] m0 disabled).lastMid = headerMid (pageHeader (paged [0x04, 0xA1, 0x22] m0 disabled)) ∧
      (paged [0x04, 0xA1, 0x22] m0 disabled).storeEn = false := by
  unfold ValidPage
  decide +kernel

/-- For HasPageStoresAValidPage: the second page of a message of three, the same id again, and a message-id change. -/
theorem test_hyps_stored :
    (let s := paged [0x04, 0xA2, 0x22] m0 oneStored;
      Inv s ∧ ValidPage s ∧ StoringEnabled s ∧ (storeAfter s).length + 1 = headerMs (pageHeader s)) ∧
      (let s := paged [0x04, 0xA1, 0x21] m0 oneStored;
        ValidPage s ∧ StoringEnabled s ∧ (storeAfter s).length + 1 = headerMs (pageHeader s)) ∧
      (let s := paged [0x04, 0xC1, 0x22] m0 disabled;
        ValidPage s ∧ StoringEnabled s ∧ (storeAfter s).length + 1 = headerMs (pageHeader s)) := by
  unfold ValidPage StoringEnabled
  decide +kernel

/-- For MessageChangeClearsTheStore: RS-7, step 7. -/
theorem test_hyps_change :
    Inv (paged [0x04, 0xC1, 0x22] m0 oneStored) ∧ ValidPage (paged [0x04, 0xC1, 0x22] m0 oneStored) ∧
      (paged [0x04, 0xC1, 0x22] m0 oneStored).lastMid ≠ headerMid (pageHeader (paged [0x04, 0xC1, 0x22] m0 oneStored)) := by
  unfold ValidPage
  decide +kernel

/-- For HasPageRecoversTheMessage: one page of one (with a matrix of ones, and with a matrix of zeros), and page 1 after page 33
(RS-3). -/
theorem test_hyps_recovered :
    (let s := paged [0x04, 0xA0, 0x01] m0 State.reset;
      Inv s ∧ ValidPage s ∧ StoringEnabled s ∧ headerMs (pageHeader s) = (storeAfter s).length ∧
        selectionMatrix (fun _ _ => 1) 1 ((storeAfter s).take 1) = [[0x01]] ∧
        selectionMatrix (fun _ _ => 0) 1 ((storeAfter s).take 1) = [[0x00]]) ∧
      (let s := paged [0x04, 0xA1, 0x01] m0 oneStored;
        Inv s ∧ ValidPage s ∧ StoringEnabled s ∧ headerMs (pageHeader s) = (storeAfter s).length ∧
          selectionMatrix testGen 2 ((storeAfter s).take 2) = [[0x01, 0x00], [0x01, 0x01]]) := by
  unfold ValidPage StoringEnabled
  decide +kernel

/-- For EveryStepKeepsTheInvariant, ReachableStatesAreWithinBounds. -/
theorem test_hyps_invariant :
    Inv (flying 0x01000000 0 []) ∧ step (flying 0x01000000 0 []) = .next (afterStep (flying 0x01000000 0 [])) ∧
      Reachable State.reset := ⟨by decide, rfl, [], 0, rfl⟩

/-- For the statements about an access that is served: idle, and busy for one more access. Accesses that are not admitted: just beyond
BUF and PAGE_IN, misaligned, of 3 bytes, of half a register. -/
theorem test_hyps_serves :
    Serves (given [.read 0x1002 4] State.reset) (.read 0x1002 4) [] ∧ Serves (flying 0 1 [.write 0x138 4 0]) (.write 0x138 4 0) [] ∧
      Serves (flying 0 1 [.write 0x028 4 0]) (.write 0x028 4 0) [] ∧ Serves (flying 0 1 [.powerOn]) .powerOn [] ∧
      Serves (flying 0x20000000 1 [.write 0x008 4 1]) (.write 0x008 4 1) [] ∧
      [target 0x1002 4, target 0x138 4, target 0x1800 1, target 0x1000 3, target 0x004 2, target 0x030 4] = List.replicate 6 none ∧
      (target 0x134 4).isSome = true ∧ (target 0x17FC 4).isSome = true ∧ (target 0x02C 4).isSome = true ∧
      (1#32).getLsbD 0 = true ∧ (2#32).getLsbD 0 = false := by
  refine ⟨⟨rfl, ?_⟩, ⟨rfl, ?_⟩, ⟨rfl, ?_⟩, ⟨rfl, ?_⟩, ⟨rfl, ?_⟩, by decide⟩
  all_goals intro f hf; cases hf
  all_goals decide

/-- For BusyAccessesAreDroppedOrAnswered: a dropped write of CMD, and reads that return a value or an unspecified one. -/
theorem test_hyps_busy :
    (flying 0 1 [.write 0x00C 4 0]).inflight = some ⟨0, 1⟩ ∧ 0 < (InFlight.mk 0 1).wait ∧
      target 0x00C 4 = some (.reg .cmd) ∧ writeRefused 0 (flying 0 1 []) (.reg .cmd) = false ∧
      (Target.reg .cmd) ≠ .reg .ctrl ∧ target 0x010 4 = some (.reg .resultLo) ∧ readableWhileBusy (.reg .resultLo) = false ∧
      readableWhileBusy (.reg .status) = true := by decide

/-- For AssembledCommandsAreLegal: operands one too few and one too many. -/
theorem test_hyps_operand_count :
    ([] : List Int).length ≠ 1 ∧ ([1, 2] : List Int).length ≠ 1 ∧ ([0] : List Int).length ≠ 0 ∧ ([0, 1, 2] : List Int).length ≠ 2 ∧
      [assemble .bcRdu [], assemble .bcRdu [1, 2], assemble .bcRem [0], assemble .bcSubr [0, 1, 2]] = List.replicate 4 none := by
  decide

/-- For AssembledCommandsAreLegal: operands at each end of their range, and just beyond it. -/
theorem test_hyps_assembled :
    assemble .fdRdsx [64, -32768] = some (.fdRdsx 64 0x8000) ∧ assemble .fdRdsx [1, 32767] = some (.fdRdsx 1 0x7FFF) ∧
      [assemble .fdRdsx [64, -32769], assemble .fdRdsx [1, 32768], assemble .fdRdsx [0, 0], assemble .fdRds [0], assemble .fdRds [65],
        assemble .bcRdu [65], assemble .bcRdu [-1], assemble .bcSeek [-1], assemble .bcSeek [65536],
        assemble .bcSubr [65536, 0], assemble .bcSubr [0, 65]] = List.replicate 11 none ∧
      assemble .bcRdu [0] = some (.bcRdu 0) ∧ assemble .bcSubr [65535, 64] = some (.bcSubr 65535 64) ∧
      assemble .bcSeek [0] = some (.bcSeek 0) ∧ assemble .bcReq [65535] = some (.bcReq 65535) := by decide

/-- For SentinelsDecodeAsUnavailable: FD-5 and FD-6 by FD_RDS, FD-10 and FD-9 by FD_RDSX. -/
theorem test_hyps_unavailable :
    (after (.fdRds 15) (stream [0x80, 0x00] 15 0)).code = .ok ∧
      (after (.fdRds 15) (stream [0x80, 0x00] 15 0)).result.toInt = -(2 ^ 14) ∧
      (after (.fdRds 15) (stream [0x80, 0x02] 15 0)).result.toInt = -16383 ∧
      (after (.fdRdsx 13 0xF000) (stream [0x80, 0x00] 13 0)).code = .ok ∧
      (after (.fdRdsx 13 0xF000) (stream [0x80, 0x00] 13 0)).result.toInt = (0xF000#16).toInt ∧
      (after (.fdRdsx 13 0xC000) (stream [0x80, 0x00] 13 0)).result.toInt ≠ (0xC000#16).toInt := by decide

/-- For the clauses of SentinelsDecodeAsUnavailable about fields with a scale: the wide residual of subtype 9 at its sentinel and one
below it, and the narrow one of 7 bits. -/
theorem test_hyps_scaled :
    let f := subtype9Residual true;
    f.scale = some 400 ∧ f.reader = .rdsx (-32767) ∧ (after f.command (stream [0x80, 0x01] 16 0)).code = .ok ∧
      f.sentinel = some (after f.command (stream [0x80, 0x01] 16 0)).result.toInt ∧
      (after f.command (stream [0x80, 0x00] 16 0)).result.toInt = -32768 ∧ (subtype9Residual false).reader = .rds ∧
      (subtype9Residual false).scale = some 400 ∧ (unsignedField 64).reader = .rdu ∧
      (after (unsignedField 64).command (stream [] 64 0)).code = .ok := by
  refine ⟨by decide, by decide, by decide, by decide, by decide, by decide, by decide, rfl, rfl⟩

/-- For LengthChecksAreExact: a field that fits exactly, one bit too few, and no field at all. -/
theorem test_hyps_lengthCheck :
    CursorInv (bufferE 17) ∧ CursorInv (bufferE 18) ∧
      (bufferE 17).pos.toNat + (subtype3.map Field.width).sum ≤ (bufferE 17).len.toNat ∧
      (bufferE 18).len.toNat < (bufferE 18).pos.toNat + (subtype3.map Field.width).sum ∧
      (bufferE 32).pos.toNat + (([] : List Field).map Field.width).sum ≤ (bufferE 32).len.toNat := by decide

/-- For HostWindowLiesAtBase: the first and the last address of a window at 0x4000, and the ones just outside. -/
theorem test_hyps_window :
    (0x4000 : Nat) = 0x4000 + (0#13).toNat ∧ (0x5FFF : Nat) = 0x4000 + (8191#13).toNat ∧ 0x3FFF < 0x4000 ∧ 0x4000 + 8192 ≤ 0x6000 ∧
      (HostAccess.memWrite 0x400C 4 7).input 0x4000 = some (.write 0x00C 4 7) ∧ (HostAccess.memRead 0x3FFF 1).input 0x4000 = none := by
  decide

/-- For the clause of HostWindowLiesAtBase about the accesses in order: CMD of this block, and the address behind its window. -/
theorem test_hyps_arriving :
    (HostAccess.memWrite (Config.base + 12) 4 7).input Config.base = some (.write 0x00C 4 7) ∧
      (HostAccess.memWrite (Config.base + 8192) 4 7).input Config.base = none := by
  constructor <;> simp [HostAccess.input, windowOffset, Config.windowBytes]

end Sys2Proof.Tests
end

section
/-!
PROOFS for 00_scope.md. How the stream-bit view of BUF (R9, R72) lies over its bytes, and what a write of one byte does to it.
-/

namespace Sys2Proof.Machine

/-- Stream bit `i` of byte `j` is the byte's bit of weight `2 ^ (7 - i)` (R72). -/
theorem bufBit_in_byte (m : Memory) (j i : Nat) (h : i < 8) : bufBit m (8 * j + i) = (m.read j).getLsbD (7 - i) := by
  have hbyte : (8 * j + i) / 8 = j := by omega
  have hbit : (8 * j + i) % 8 = i := by omega
  rw [bufBit, hbyte, hbit]

/-- A write of byte `j` leaves the stream bits of the other bytes. -/
theorem bufBit_write_of_ne (m : Memory) (j k : Nat) (b : Byte) (h : k / 8 ≠ j) : bufBit (m.write j b) k = bufBit m k := by
  rw [bufBit, bufBit, read_write, if_neg h]

/-- A byte-aligned field of 8 bits is the byte: bit by bit, the stream order undoes the order of the weights. -/
theorem streamBits_byte (m : Memory) (j : Nat) : streamBits m (8 * j) 8 = (m.read j).toNat := by
  apply Nat.eq_of_testBit_eq
  intro i
  by_cases hi : i < 8
  · have hpos : 7 - (8 - 1 - i) = i := by omega
    rw [streamBits_testBit _ _ _ _ hi, bufBit_in_byte _ _ _ (by omega), hpos, BitVec.testBit_toNat]
  · have hpow : 2 ^ 8 ≤ 2 ^ i := Nat.pow_le_pow_right (by decide) (by omega)
    rw [Nat.testBit_lt_two_pow (lt_of_lt_of_le (streamBits_lt m (8 * j) 8) hpow),
      Nat.testBit_lt_two_pow (lt_of_lt_of_le (m.read j).isLt hpow)]

/-- A field that lies before or behind byte `j` does not see a write of it. -/
theorem streamBits_write_of_disjoint (m : Memory) (j k n : Nat) (b : Byte) (h : 8 * j + 8 ≤ k ∨ k + n ≤ 8 * j) :
    streamBits (m.write j b) k n = streamBits m k n :=
  streamBits_congr _ _ _ _ fun q _ _ => bufBit_write_of_ne m j q b (by omega)

/-- Settles O50: an aligned field is its byte, so a written byte is read back, and no other field changes. -/
theorem streamBitsAreMostSignificantFirst : Obligations.StreamBitsAreMostSignificantFirst := by
  intro m j b
  refine ⟨streamBits_byte m j, ?_, fun k n h => streamBits_write_of_disjoint m j k n b h⟩
  rw [streamBits_byte, read_write, if_pos rfl]

end Sys2Proof.Machine
end

section
/-!
PROOFS for 10_state.md: the words the decoder accepts.
-/

namespace Sys2Proof

/-! ### Decoder and encoder (30_encoding.md R100 to R106) -/

theorem decodePlain_zero (i : Instr) : decodePlain i 0 0 = .command i := by simp [decodePlain]

theorem decodeWidth_zero (mk : BitVec 8 → Instr) (lo : Nat) (n : BitVec 8) (h : widthInRange lo n = true) :
    decodeWidth mk lo n 0 = .command (mk n) := by simp [decodeWidth, h]

theorem decodeWidthImm_inRange (mk : BitVec 8 → BitVec 16 → Instr) (lo : Nat) (n : BitVec 8) (imm : BitVec 16)
    (h : widthInRange lo n = true) : decodeWidthImm mk lo n imm = .command (mk n imm) := by simp [decodeWidthImm, h]

theorem decodeImm_zero (mk : BitVec 16 → Instr) (imm : BitVec 16) : decodeImm mk 0 imm = .command (mk imm) := by
  simp [decodeImm]

/-- A well-formed command is read back from its word: its OPC selects its own row, and its operands pass the row's checks. -/
theorem decode_encode (i : Instr) (h : i.wellFormed = true) : decode (encode i) = .command i := by
  obtain ⟨hopc, hn, himm⟩ := Laws.encodedFields_any i
  unfold decode
  rw [hopc, hn, himm]
  cases i with
  | nop => exact decodePlain_zero _
  | bcReset => exact decodePlain_zero _
  | bcRdu n => exact decodeWidth_zero _ _ n h
  | bcRdi n => exact decodeWidth_zero _ _ n h
  | bcRem => exact decodePlain_zero _
  | bcPos => exact decodePlain_zero _
  | bcSubr a n => exact decodeWidthImm_inRange (fun n a => .bcSubr a n) _ n a h
  | bcSeek p => exact decodeImm_zero _ p
  | bcMark => exact decodePlain_zero _
  | bcRewind => exact decodePlain_zero _
  | bcReq m => exact decodeImm_zero _ m
  | fdRds n => exact decodeWidth_zero _ _ n h
  | fdRdsx n x => exact decodeWidthImm_inRange _ _ n x h
  | fdRdpc n => exact decodeWidth_zero _ _ n h
  | hasPage => exact decodePlain_zero _
  | hasClear => exact decodePlain_zero _

section
variable {i : Instr} {n : BitVec 8} {imm : BitVec 16}

theorem decodePlain_wellFormed {j : Instr} (h : decodePlain j n imm = .command i) (hj : j.wellFormed = true) :
    i.wellFormed = true := by
  unfold decodePlain at h
  split at h
  · cases h; exact hj
  · cases h

theorem decodeWidth_wellFormed {mk : BitVec 8 → Instr} {lo : Nat}
    (h : decodeWidth mk lo n imm = .command i) (hmk : ∀ n, widthInRange lo n = true → (mk n).wellFormed = true) :
    i.wellFormed = true := by
  unfold decodeWidth at h
  split at h
  · cases h
  · split at h
    · next hn => cases h; exact hmk n hn
    · cases h

theorem decodeWidthImm_wellFormed {mk : BitVec 8 → BitVec 16 → Instr} {lo : Nat}
    (h : decodeWidthImm mk lo n imm = .command i)
    (hmk : ∀ n imm, widthInRange lo n = true → (mk n imm).wellFormed = true) : i.wellFormed = true := by
  unfold decodeWidthImm at h
  split at h
  · next hn => cases h; exact hmk n imm hn
  · cases h

theorem decodeImm_wellFormed {mk : BitVec 16 → Instr} (h : decodeImm mk n imm = .command i)
    (hmk : ∀ imm, (mk imm).wellFormed = true) : i.wellFormed = true := by
  unfold decodeImm at h
  split at h
  · cases h; exact hmk imm
  · cases h

end

/-- The decoder yields only well-formed commands (R106), one row of the opcode map after the other. -/
theorem decode_wellFormed (w : Word) (i : Instr) (h : decode w = .command i) : i.wellFormed = true := by
  unfold decode at h
  split at h
  · exact decodePlain_wellFormed h rfl
  · exact decodePlain_wellFormed h rfl
  · exact decodeWidth_wellFormed h fun _ hn => hn
  · exact decodeWidth_wellFormed h fun _ hn => hn
  · exact decodePlain_wellFormed h rfl
  · exact decodePlain_wellFormed h rfl
  · exact decodeWidthImm_wellFormed h fun _ _ hn => hn
  · exact decodeImm_wellFormed h fun _ => rfl
  · exact decodePlain_wellFormed h rfl
  · exact decodePlain_wellFormed h rfl
  · exact decodeImm_wellFormed h fun _ => rfl
  · exact decodeWidth_wellFormed h fun _ hn => hn
  · exact decodeWidthImm_wellFormed h fun _ _ hn => hn
  · exact decodeWidth_wellFormed h fun _ hn => hn
  · exact decodePlain_wellFormed h rfl
  · exact decodePlain_wellFormed h rfl
  · cases h

end Sys2Proof
end

section
/-!
PROOFS for 10_state.md: the invariant of R51, which every command, every host access and both resets keep.
-/

namespace Sys2Proof.Machine

/-! ### The invariant through the shared operations -/

theorem inv_reset : Inv State.reset := by decide

/-- Settles O42. -/
theorem resetSatisfiesTheInvariant : Obligations.ResetSatisfiesTheInvariant := inv_reset

theorem popcount_le (v n : Nat) : popcount v n ≤ n := by
  induction n with
  | zero => exact Nat.le_refl 0
  | succ n ih =>
    have hbit : (v.testBit n).toNat ≤ 1 := Bool.toNat_le _
    simp only [popcount]
    omega

/-- POS moved by at most what is left stays within LEN: nothing wraps, since LEN has 16 bits. -/
theorem inv_advance (s : State) (n : Nat) (hs : Inv s) (h : s.pos.toNat + n ≤ s.len.toNat) : Inv (s.advance n) := by
  obtain ⟨⟨hmark, -, hlen⟩, hrest⟩ := hs
  have hpos : (s.advance n).pos.toNat ≤ s.len.toNat := by
    have hlt := s.len.isLt
    simp only [State.advance, BitVec.toNat_ofNat]
    omega
  exact ⟨⟨hmark, hpos, hlen⟩, hrest⟩

/-- A stream read keeps the invariant when what it makes of the field does, the cursor being left to the read. -/
theorem inv_readField (i : Instr) (n : Nat) (use : Nat → State → State) (s : State) (hs : Inv s)
    (huse : ∀ v, Inv (use v s) ∧ (use v s).pos = s.pos ∧ (use v s).len = s.len) :
    Inv (readField i.opcode n use s) := by
  rcases readField_cases i n use s with ⟨hfit, he⟩ | ⟨-, he⟩
  · obtain ⟨hinv, hpos, hlen⟩ := huse (streamBits s.buf s.pos.toNat n)
    rw [he]
    exact inv_advance _ n hinv (by rw [hpos, hlen]; exact hfit)
  · rw [he]; exact hs

theorem inv_requireBits (i : Instr) (p : Prop) [Decidable p] (go s : State) (hs : Inv s) (hgo : p → Inv go) :
    Inv (requireBits i.opcode (decide p) go s) := by
  by_cases hp : p
  · rw [requireBits_ok i p go s hp]; exact hgo hp
  · rw [requireBits_short i p go s hp]; exact hs

/-- FDX.POPC of a field of at most 64 bits is at most 64 (R51). -/
theorem inv_setPopc (s : State) (v n : Nat) (hs : Inv s) (hn : n ≤ 64) : Inv (s.setPopc (popcount v n)) := by
  obtain ⟨hcur, hstore, hmem, -, hms⟩ := hs
  have hpop : (s.setPopc (popcount v n)).popc.toNat ≤ 64 := by
    have := popcount_le v n
    simp only [State.setPopc, BitVec.toNat_ofNat]
    omega
  exact ⟨hcur, hstore, hmem, hpop, hms⟩

theorem inv_setUnav (s : State) (u : Bool) (hs : Inv s) : Inv (s.setUnav u) := by
  obtain ⟨hcur, hstore, hmem, -, hms⟩ := hs
  exact ⟨hcur, hstore, hmem, Nat.zero_le 64, hms⟩

/-! ### HAS_PAGE and HAS_CLEAR -/

theorem headerMs_le (h : BitVec 24) : headerMs h ≤ 32 := by
  have := (h.extractLsb' 8 5).isLt
  unfold headerMs
  omega

theorem lastMs_stored_le (s : State) : (stored s).lastMs.toNat ≤ 32 := by
  have := headerMs_le (pageHeader s)
  simp only [stored, BitVec.toNat_ofNat]
  omega

@[simp] theorem generatorRow_length (gen : Fin 92 → Fin 32 → Byte) (ms pid : Nat) :
    (generatorRow gen ms pid).length = ms := by simp [generatorRow]

@[simp] theorem payloadInPageIn_length (s : State) : (payloadInPageIn s).length = 53 := by simp [payloadInPageIn]

/-- The store a valid page is put into is in canonical form and holds whole pages: it is the present one or empty. -/
theorem storeBefore_wf (s : State) (hs : StoreInv s) :
    mapWf (Config.pidMax + 1) 1 (storeBefore s) = true ∧ ∀ p ∈ storeBefore s, p.2.length = 53 := by
  obtain ⟨hwf, hpages, -, -, -⟩ := hs
  unfold storeBefore
  split
  · exact ⟨rfl, by simp⟩
  · exact ⟨hwf, hpages⟩

theorem storeAfter_wf (s : State) (hs : StoreInv s) (hv : ValidPage s) :
    mapWf (Config.pidMax + 1) 1 (storeAfter s) = true ∧ ∀ p ∈ storeAfter s, p.2.length = 53 := by
  obtain ⟨hwf, hpages⟩ := storeBefore_wf s hs
  obtain ⟨-, hlo, hhi, -⟩ := hv
  refine ⟨mapWf_mapPut _ _ _ _ _ hwf hlo (Nat.lt_succ_of_le hhi), fun p hp => ?_⟩
  rcases mem_mapPut _ _ _ _ hp with rfl | hold
  · exact payloadInPageIn_length s
  · exact hpages p hold

/-- While storing is enabled there is room for one more page (R51). -/
theorem storeAfter_length_le (s : State) (hs : StoreInv s) (he : StoringEnabled s) : (storeAfter s).length ≤ 32 := by
  have hroom : (storeBefore s).length < 32 := by
    obtain ⟨-, -, -, hen, -⟩ := hs
    unfold storeBefore
    split
    · exact Nat.zero_lt_succ _
    · next hsame => exact hen (he.resolve_left hsame)
  have hput := length_mapPut (headerPid (pageHeader s)) (payloadInPageIn s) _ _ _ (storeBefore_wf s hs).1
  unfold storeAfter
  rw [hput]
  split <;> omega

/-- A recovered message has a row of 53 bytes for each page selected. -/
theorem recoveredMessage_length (poly : BitVec 9) (gen : Fin 92 → Fin 32 → Byte) (ms : Nat) (pages : List (Nat × List Byte))
    (m : Matrix) (hlen : pages.length = ms) (hpages : ∀ p ∈ pages, p.2.length = 53)
    (h : recoveredMessage poly gen ms pages = some m) : m.flatten.length = 53 * ms := by
  have ha : hasShape ms ms (pages.map fun p => generatorRow gen ms p.1) = true := by
    rw [hasShape_iff]; exact ⟨by simp [hlen], List.forall_mem_map.mpr fun _ _ => generatorRow_length ..⟩
  have hc : hasShape ms 53 (pages.map fun p => p.2) = true := by
    rw [hasShape_iff]; exact ⟨by simp [hlen], List.forall_mem_map.mpr hpages⟩
  rw [flatten_length ms 53 m (solve_shape poly ms 53 _ _ m ha hc h), Nat.mul_comm]

/-- HAS_PAGE keeps the invariant for every polynomial and matrix, case by case of R283. -/
theorem inv_hasPageWith (poly : BitVec 9) (gen : Fin 92 → Fin 32 → Byte) (s : State) (hs : Inv s) :
    Inv (hasPageWith poly gen s) := by
  have hinv := hs
  obtain ⟨hcur, hstore, ⟨hbuf, hpage⟩, hpopc, hms⟩ := hs
  rcases hasPageWith_cases poly gen s with
    ⟨-, he⟩ | ⟨-, -, he⟩ | ⟨-, -, -, -, he⟩ | ⟨-, -, he⟩ | ⟨hv, -, hfew, he⟩ | ⟨hv, hen, hall, ⟨-, he⟩ | ⟨m, hm, he⟩⟩
  all_goals rw [he]
  · exact hinv
  · exact hinv
  · exact hinv
  · obtain ⟨hwf, hpages, hcount, hroom, -⟩ := hstore
    exact ⟨hcur, ⟨hwf, hpages, hcount, hroom, nofun⟩, ⟨hbuf, hpage⟩, hpopc, hms⟩
  · obtain ⟨hwf, hpages⟩ := storeAfter_wf s hstore hv
    have hlt : (storeAfter s).length < 32 := lt_of_lt_of_le hfew (headerMs_le _)
    exact ⟨hcur, ⟨hwf, hpages, hlt.le, fun _ => hlt, nofun⟩, ⟨hbuf, hpage⟩, hpopc, lastMs_stored_le s⟩
  · exact ⟨hcur, ⟨rfl, by simp, Nat.zero_le _, nofun, fun _ => rfl⟩, ⟨hbuf, hpage⟩, hpopc, Nat.zero_le 32⟩
  · obtain ⟨hwf, hpages⟩ := storeAfter_wf s hstore hv
    have hle := headerMs_le (pageHeader s)
    have hbytes : m.flatten.length = 53 * headerMs (pageHeader s) :=
      recoveredMessage_length poly gen _ _ m (List.length_take_of_le hall) (fun p hp => hpages p (List.mem_of_mem_take hp)) hm
    have hwrite : (s.buf.writeBytes 0 m.flatten).wf 2048 = true := wf_writeBytes _ _ 0 2048 hbuf (by omega)
    have hlen : (BitVec.ofNat 16 (424 * headerMs (pageHeader s))).toNat ≤ 16384 := by
      rw [BitVec.toNat_ofNat, Nat.mod_eq_of_lt (by omega)]; omega
    exact ⟨⟨Nat.zero_le _, Nat.zero_le _, hlen⟩,
      ⟨hwf, hpages, storeAfter_length_le s hstore hen, nofun, nofun⟩,
      ⟨hwrite, hpage⟩, hpopc, lastMs_stored_le s⟩

/-! ### Every command -/

/-- A well-formed command keeps the invariant. The bound on the width is needed by FD_RDPC alone, for FDX.POPC. -/
theorem inv_exec (i : Instr) (s t : State) (hwf : i.wellFormed = true) (hs : Inv s) (h : exec i s = .next t) : Inv t := by
  have hinv := hs
  obtain ⟨⟨hmark, hpos, hlen⟩, hrest⟩ := hs
  cases i with
  | nop => cases h; exact hinv
  | bcReset => cases h; exact ⟨⟨Nat.le_refl 0, Nat.le_refl 0, Nat.zero_le _⟩, hrest⟩
  | bcRdu n => cases h; exact inv_readField _ _ _ s hinv fun _ => ⟨hinv, rfl, rfl⟩
  | bcRdi n => cases h; exact inv_readField _ _ _ s hinv fun _ => ⟨hinv, rfl, rfl⟩
  | bcRem => cases h; exact hinv
  | bcPos => cases h; exact hinv
  | bcSubr a n => cases h; exact inv_requireBits _ _ _ s hinv fun _ => hinv
  | bcSeek p => cases h; exact inv_requireBits _ _ _ s hinv fun hp => ⟨⟨hmark, hp, hlen⟩, hrest⟩
  | bcMark => cases h; exact ⟨⟨hpos, hpos, hlen⟩, hrest⟩
  | bcRewind => cases h; exact ⟨⟨hmark, hmark, hlen⟩, hrest⟩
  | bcReq m => cases h; exact inv_requireBits _ _ _ s hinv fun _ => hinv
  | fdRds n => cases h; exact inv_readField _ _ _ s hinv fun v => ⟨inv_setUnav s (isMinCode (width n) v) hinv, rfl, rfl⟩
  | fdRdsx n x => cases h; exact inv_readField _ _ _ s hinv fun v => ⟨inv_setUnav s (isSentinel (width n) v x) hinv, rfl, rfl⟩
  | fdRdpc n =>
    have hn : width n ≤ 64 := Laws.WidthBounded.fdRdpc n hwf
    cases h; exact inv_readField _ _ _ s hinv fun v => ⟨inv_setPopc s v _ hinv hn, rfl, rfl⟩
  | hasPage => cases h; exact inv_hasPageWith _ _ s hinv
  | hasClear =>
    obtain ⟨-, hmem, hpopc, -⟩ := hrest
    cases h
    exact ⟨⟨hmark, hpos, hlen⟩, ⟨rfl, by simp, Nat.zero_le _, fun _ => Nat.zero_lt_succ _, fun _ => rfl⟩, hmem, hpopc, Nat.zero_le 32⟩

/-! ### Host accesses and resets -/

/-- The registers at their reset values, with RAMs in canonical form. -/
theorem inv_resetRegisters (s : State) (hmem : MemoryInv s) : Inv (resetRegisters s) := by
  obtain ⟨hcur, hstore, -, hpopc, hms⟩ := inv_reset
  exact ⟨hcur, hstore, hmem, hpopc, hms⟩

theorem inv_powerOnReset (s : State) : Inv (powerOnReset s) :=
  inv_resetRegisters { s with buf := .unspecified s.draws, pageIn := .unspecified (s.draws + 1) } ⟨rfl, rfl⟩

/-- The BUF a soft reset leaves: its bytes, or every byte unspecified (R312). -/
theorem softReset_buf (s : State) :
    (recoveryUnderWay Config.gfPoly Config.genMatrix s = true ∧ (softReset s).buf = .unspecified s.draws) ∨
      (recoveryUnderWay Config.gfPoly Config.genMatrix s = false ∧ (softReset s).buf = s.buf) := by
  cases h : recoveryUnderWay Config.gfPoly Config.genMatrix s
  · exact .inr ⟨rfl, by simp [softReset, drawn, h]⟩
  · exact .inl ⟨rfl, by simp [softReset, drawn, h]⟩

theorem inv_softReset (s : State) (hmem : MemoryInv s) : Inv (softReset s) := by
  obtain ⟨hbuf, hpage⟩ := hmem
  have hwf : (softReset s).buf.wf Config.bufBytes = true := by
    rcases softReset_buf s with ⟨-, he⟩ | ⟨-, he⟩
    · rw [he]; rfl
    · rw [he]; exact hbuf
  exact inv_resetRegisters { s with buf := (softReset s).buf } ⟨hwf, hpage⟩

/-- The values of LEN that R37 accepts. -/
theorem lenAccepts_iff (v : Word) (s : State) : lenAccepts v s = true ↔
    v.extractLsb' 16 16 = 0 ∧ v.toNat ≤ 16384 ∧ s.pos.toNat ≤ v.toNat ∧ s.mark.toNat ≤ v.toNat := by
  simp [lenAccepts, and_assoc]

/-- A value that fits in LEN is what LEN then holds. -/
theorem toNat_lenField (v : Word) (h : v.toNat ≤ 16384) : (v.extractLsb' 0 16).toNat = v.toNat := by
  rw [BitVec.extractLsb'_toNat, Nat.shiftRight_zero]
  omega

/-- A performed write keeps the invariant: LEN takes only what R37 accepts, and bytes stay inside their RAM (R77). -/
theorem inv_writeTarget (off size : Nat) (v : Word) (s : State) (t : Target) (hs : Inv s) (ht : target off size = some t)
    (hr : writeRefused v s t = false) : Inv (writeTarget size v s t) := by
  have hinv := hs
  obtain ⟨⟨hmark, hpos, hlen⟩, hstore, ⟨hbuf, hpage⟩, hrest⟩ := hs
  rcases target_cases off size t ht with ⟨r, rfl, -, -⟩ | ⟨a, rfl, -, -, -, hin⟩ | ⟨a, rfl, -, -, -, hin⟩
  · cases r with
    | ctrl =>
      simp only [writeTarget]
      split
      · exact inv_softReset s ⟨hbuf, hpage⟩
      · exact hinv
    | len =>
      have hacc : lenAccepts v s = true := by simpa [writeRefused] using hr
      obtain ⟨-, hle, hp, hm⟩ := (lenAccepts_iff v s).mp hacc
      have hv := toNat_lenField v hle
      exact ⟨⟨hm.trans hv.ge, hp.trans hv.ge, hv.le.trans hle⟩, hstore, ⟨hbuf, hpage⟩, hrest⟩
    | id | status | cmd | resultLo | resultHi | fdx | pos | mark | psStatus | param => exact hinv
  · have hw := wf_writeBytes (leBytes size v) s.pageIn a 56 hpage (by simpa using hin)
    exact ⟨⟨hmark, hpos, hlen⟩, hstore, ⟨hbuf, hw⟩, hrest⟩
  · have hw := wf_writeBytes (leBytes size v) s.buf a 2048 hbuf (by simpa using hin)
    exact ⟨⟨hmark, hpos, hlen⟩, hstore, ⟨hw, hpage⟩, hrest⟩

theorem inv_busRead (off size : Nat) (s : State) (hs : Inv s) : Inv (busRead off size s) := by
  rcases busRead_cases off size s with ⟨-, he⟩ | ⟨t, -, ⟨-, -, he⟩ | ⟨-, he⟩⟩
  all_goals rw [he]; exact hs

theorem inv_busWrite (off size : Nat) (v : Word) (s : State) (hs : Inv s) : Inv (busWrite off size v s) := by
  rcases busWrite_cases off size v s with ⟨-, he⟩ | ⟨t, ht, hr, ⟨-, -, he⟩ | ⟨-, he⟩⟩
  · rw [he]; exact hs
  · rw [he]; exact hs
  · rw [he]; exact inv_writeTarget off size v s t hs ht hr

theorem inv_serveInput (i : Input) (s : State) (hs : Inv s) : Inv (serveInput i s) := by
  cases i with
  | read off size => exact inv_busRead off.toNat size (takeInput s) hs
  | write off size v => exact inv_busWrite off.toNat size v (takeInput s) hs
  | powerOn => exact inv_powerOnReset (takeInput s)

/-! ### Every step, every run -/

/-- Settles O43, by the cases of a step: idle, an access served, a command completed, an illegal word. -/
theorem everyStepKeepsTheInvariant : Obligations.EveryStepKeepsTheInvariant := by
  intro s t hs h
  rcases step_cases s t h with ⟨-, -, rfl⟩ | ⟨i, rest, -, rfl⟩ | ⟨f, -, -, ⟨i, hdec, hexec⟩ | ⟨-, rfl⟩⟩
  · exact hs
  · exact inv_serveInput i s hs
  · exact inv_exec i s t (decode_wellFormed f.word i hdec) hs hexec
  · exact hs

/-- What every step keeps, every run keeps. -/
theorem run_keeps (P : State → Prop) (hstep : ∀ s t, P s → step s = .next t → P t) (k : Nat) (s t : State) (hs : P s)
    (h : Host.Core.run Sys2Proof.core k s = .next t) : P t := by
  induction k generalizing s with
  | zero => cases h; exact hs
  | succ k ih =>
    obtain ⟨u, hu⟩ : ∃ u, step s = .next u := by
      simp only [Host.Core.run, Sys2Proof.core] at h
      cases hst : step s with
      | next u => exact ⟨u, rfl⟩
      | fault r => cases r
      | refused r => rw [hst] at h; cases h
    have hrun : Host.Core.run Sys2Proof.core k u = .next t := by
      simpa only [Host.Core.run, Sys2Proof.core, hu] using h
    exact ih u (hstep s u hs hu) hrun

/-- The invariant holds in every state reachable from reset. -/
theorem inv_of_reachable (s : State) (h : Reachable s) : Inv s := by
  obtain ⟨inputs, k, hrun⟩ := h
  exact run_keeps Inv everyStepKeepsTheInvariant k { State.reset with inputs := inputs } s inv_reset hrun

/-- The keys of a map in canonical form are distinct. -/
theorem mapWf_keys_nodup {β : Type} (m : List (Nat × β)) (hi lo : Nat) (h : mapWf hi lo m = true) :
    (m.map Prod.fst).Nodup := by
  induction m generalizing lo with
  | nil => exact List.nodup_nil
  | cons e t ih =>
    simp only [mapWf, Bool.and_eq_true] at h
    obtain ⟨-, ht⟩ := h
    refine List.nodup_cons.mpr ⟨fun hmem => ?_, ih _ ht⟩
    obtain ⟨q, hq, hkey⟩ := List.mem_map.mp hmem
    have := (mapWf_bounds t hi _ ht q hq).1
    omega

theorem code_bits_le (c : Code) : c.bits.toNat ≤ 5 := by
  cases c <;> decide

/-- Settles O44: R51 is read off the invariant. -/
theorem reachableStatesAreWithinBounds : Obligations.ReachableStatesAreWithinBounds := by
  intro s hreach
  obtain ⟨⟨hmark, hpos, hlen⟩, ⟨hwf, -, hcount, -, hmid⟩, -, hpopc, -⟩ := inv_of_reachable s hreach
  have hids : ∀ p ∈ s.store, 1 ≤ p.1 ∧ p.1 ≤ 92 := fun p hp => by
    obtain ⟨hlo, hhi⟩ := mapWf_bounds s.store _ _ hwf p hp
    exact ⟨hlo, Nat.le_of_lt_succ hhi⟩
  exact ⟨hmark, hpos, hlen, rfl, mapWf_keys_nodup s.store _ _ hwf, hcount, hids, hmid, code_bits_le s.code, hpopc⟩

end Sys2Proof.Machine
end

section
/-!
PROOFS for 10_state.md: the command in flight, the writes of CMD, LEN and STATUS, the fields of STATUS and PS_STATUS, and the values
after reset.
-/

namespace Sys2Proof.Machine

/-! ### The command in flight (R35, R50) -/

/-- Settles O5. -/
theorem stepRunsTheDecodedCommand : Obligations.StepRunsTheDecodedCommand := by
  intro s f i hf hdue hdec
  simp only [step_completes s f hf hdue, hdec]

/-- Settles O6: the placed word is the command's own, is due at once, and decodes to the command. -/
theorem placedWordRunsItsCommand : Obligations.PlacedWordRunsItsCommand := by
  intro s i hwf
  have hdec : decode (tableWord 32 (encode i).toNat) = .command i := by rw [tableWord_toNat, decode_encode i hwf]
  exact stepRunsTheDecodedCommand _ ⟨_, 0⟩ i (placeCommand_inflight _ s) (.inl rfl) hdec

/-! ### Writes of registers (R76, R78) -/

theorem serves_of_idle (s : State) (i : Input) (rest : List Input) (hidle : s.inflight = none) (hin : s.inputs = i :: rest) :
    Serves s i rest := ⟨hin, by simp [hidle]⟩

theorem serves_of_busy (s : State) (f : InFlight) (i : Input) (rest : List Input) (hf : s.inflight = some f)
    (hwait : 0 < f.wait) (hin : s.inputs = i :: rest) : Serves s i rest :=
  ⟨hin, fun g hg => by cases hf.symm.trans hg; exact hwait⟩

/-- Whether a write is refused does not depend on the accesses still to come. -/
theorem writeRefused_takeInput (v : Word) (s : State) (t : Target) : writeRefused v (takeInput s) t = writeRefused v s t := rfl

/-- A refused write is rejected, busy or not: an error response and REJ, nothing else (R78). -/
theorem step_write_refused (s : State) (off : BitVec 13) (size : Nat) (v : Word) (rest : List Input) (t : Target)
    (h : Serves s (.write off size v) rest) (ht : target off.toNat size = some t) (hr : writeRefused v s t = true) :
    step s = .next { takeInput s with rej := true, response := some ⟨[], true⟩ } := by
  have hw : busWrite off.toNat size v (takeInput s) = reject [] (takeInput s) := by
    simp only [busWrite, ht, writeRefused_takeInput, hr, if_true]
  rw [step_serves s _ rest h]
  exact congrArg _ hw

/-- A write that is not refused is performed when the block is idle, and a write of CTRL always is (R76, R79). -/
theorem step_write_performed (s : State) (off : BitVec 13) (size : Nat) (v : Word) (rest : List Input) (t : Target)
    (h : Serves s (.write off size v) rest) (ht : target off.toNat size = some t) (hr : writeRefused v s t = false)
    (hfree : s.inflight = none ∨ t = .reg .ctrl) :
    step s = .next (respond [] (writeTarget size v (takeInput s) t)) := by
  have hw : busWrite off.toNat size v (takeInput s) = respond [] (writeTarget size v (takeInput s) t) := by
    have hkeep : ((takeInput s).busy && decide (t ≠ .reg .ctrl)) = false := by
      rcases hfree with hidle | rfl
      · simp [State.busy, hidle]
      · simp
    simp only [busWrite, ht, writeRefused_takeInput, hr, hkeep]
    rfl
  rw [step_serves s _ rest h]
  exact congrArg _ hw

/-- A performed write while nothing is in flight: the input is taken, and the write does what R76 says. -/
theorem step_write_idle (s : State) (off : BitVec 13) (size : Nat) (v : Word) (rest : List Input) (t : Target)
    (hidle : s.inflight = none) (hin : s.inputs = .write off size v :: rest) (ht : target off.toNat size = some t)
    (hr : writeRefused v s t = false) :
    step s = .next (respond [] (writeTarget size v { s with inputs := rest } t)) := by
  rw [step_write_performed s off size v rest t (serves_of_idle s _ rest hidle hin) ht hr (.inl hidle), takeInput_idle s hidle,
    hin, List.tail_cons]

/-- Settles O7. -/
theorem cmdWriteStartsItsCommand : Obligations.CmdWriteStartsItsCommand := by
  intro s w rest hidle hin
  exact ⟨_, ⟨w, Config.busyAccesses s.draws⟩, step_write_idle s _ 4 w rest (.reg .cmd) hidle hin rfl rfl, rfl, rfl⟩

/-- A write of LEN is refused exactly when R37 does not accept the value. -/
theorem writeRefused_len_iff (v : Word) (s : State) : writeRefused v s (.reg .len) = true ↔
    ¬ (v.extractLsb' 16 16 = 0 ∧ v.toNat ≤ 16384 ∧ s.pos.toNat ≤ v.toNat ∧ s.mark.toNat ≤ v.toNat) := by
  rw [← lenAccepts_iff v s]
  simp [writeRefused]

/-- Settles O52: R37's bounds are `lenAccepts`, and what it refuses is rejected whether the block is busy or not. -/
theorem lenWriteIsAcceptedWithinBounds : Obligations.LenWriteIsAcceptedWithinBounds := by
  refine ⟨fun s v rest hidle hin => ⟨fun hok => ?_, fun hbad => ?_⟩, fun s f v rest hf hwait hin hbad => ?_⟩
  · have hr : writeRefused v s (.reg .len) = false := by simp [writeRefused, (lenAccepts_iff v s).mpr hok]
    obtain ⟨-, hle, -, -⟩ := hok
    exact ⟨v.extractLsb' 0 16, toNat_lenField v hle, step_write_idle s _ 4 v rest (.reg .len) hidle hin rfl hr⟩
  · have hr := (writeRefused_len_iff v s).mpr hbad
    rw [step_write_refused s _ 4 v rest (.reg .len) (serves_of_idle s _ rest hidle hin) rfl hr, takeInput_idle s hidle, hin,
      List.tail_cons]
  · have hr := (writeRefused_len_iff v s).mpr hbad
    rw [step_write_refused s _ 4 v rest (.reg .len) (serves_of_busy s f _ rest hf hwait hin) rfl hr]
    simp only [takeInput, hin, hf, List.tail_cons, Option.map_some]

/-! ### The words of STATUS and PS_STATUS (R33, R48) -/

/-- Each field is found by taking off the fields to its right (R33). -/
theorem statusWord_fields (s : State) :
    (statusWord s).getLsbD 0 = s.inflight.isSome ∧ (statusWord s).extractLsb' 1 3 = 0 ∧
      (statusWord s).extractLsb' 4 4 = s.code.bits ∧ (statusWord s).extractLsb' 8 8 = s.lastop ∧
      (statusWord s).getLsbD 16 = s.err ∧ (statusWord s).getLsbD 17 = s.haz ∧ (statusWord s).getLsbD 18 = s.rej ∧
      (statusWord s).extractLsb' 19 13 = 0 := by
  unfold statusWord
  simp (disch := decide) only [BitVec.extractLsb'_append_eq_of_le, BitVec.extractLsb'_append_eq_of_add_le,
    BitVec.getLsbD_append, Nat.reduceSub, BitVec.extractLsb'_eq_self]
  simp [State.busy]

/-- Each field is found by taking off the fields to its right (R48). -/
theorem psStatusWord_fields (s : State) :
    (psStatusWord s).extractLsb' 0 6 = BitVec.ofNat 6 s.count ∧ (psStatusWord s).getLsbD 6 = s.storeEn ∧
      (psStatusWord s).getLsbD 7 = s.midValid ∧ (psStatusWord s).extractLsb' 8 5 = s.lastMid ∧
      (psStatusWord s).extractLsb' 13 3 = 0 ∧ (psStatusWord s).extractLsb' 16 6 = s.lastMs ∧
      (psStatusWord s).extractLsb' 22 10 = 0 := by
  unfold psStatusWord
  simp (disch := decide) only [BitVec.extractLsb'_append_eq_of_le, BitVec.extractLsb'_append_eq_of_add_le,
    BitVec.getLsbD_append, Nat.reduceSub, BitVec.extractLsb'_eq_self]
  simp

/-- Settles O53. -/
theorem statusFieldsAndWriteOneToClear : Obligations.StatusFieldsAndWriteOneToClear :=
  ⟨statusWord_fields, ⟨rfl, rfl, rfl, rfl, rfl, rfl⟩, fun s v rest hidle hin =>
    step_write_idle s _ 4 v rest (.reg .status) hidle hin rfl rfl⟩

/-- Settles O54. -/
theorem psStatusShowsThePageStore : Obligations.PsStatusShowsThePageStore :=
  ⟨psStatusWord_fields, by decide, fun s v rest h => step_write_refused s _ 4 v rest (.reg .psStatus) h rfl rfl⟩

/-! ### Resets (R53, R311, R312) -/

theorem hasResetValues_reset : HasResetValues State.reset := by
  unfold HasResetValues; decide

/-- The reset values do not depend on what the RAMs and the bus hold. -/
theorem hasResetValues_resetRegisters (s : State) : HasResetValues (resetRegisters s) := hasResetValues_reset

theorem hasResetValues_powerOnReset (s : State) : HasResetValues (powerOnReset s) := hasResetValues_resetRegisters s

theorem hasResetValues_softReset (s : State) : HasResetValues (softReset s) := hasResetValues_resetRegisters s

/-- Settles O55. -/
theorem powerOnGivesTheResetValues : Obligations.PowerOnGivesTheResetValues :=
  ⟨hasResetValues_reset, fun s rest h =>
    ⟨_, step_serves s .powerOn rest h, takeInput_serves s _ rest h, hasResetValues_powerOnReset (takeInput s)⟩⟩

/-! ### HAS_PAGE before and after an input is taken (R312) -/

theorem attemptRecovery_takeInput (poly : BitVec 9) (gen : Fin 92 → Fin 32 → Byte) (ms : Nat) (s : State) :
    attemptRecovery poly gen ms (takeInput s) = { attemptRecovery poly gen ms s with inputs := s.inputs.tail } := by
  have hsel : selectedPages ms (takeInput s) = selectedPages ms s := rfl
  unfold attemptRecovery
  rw [hsel]
  cases recoveredMessage poly gen ms (selectedPages ms s) with
  | none => rfl
  | some m => rfl

theorem acceptPage_takeInput (poly : BitVec 9) (gen : Fin 92 → Fin 32 → Byte) (pid ms : Nat) (s : State) :
    acceptPage poly gen pid ms (takeInput s) = { acceptPage poly gen pid ms s with inputs := s.inputs.tail } := by
  have hstore : storePage pid ms (takeInput s) = takeInput (storePage pid ms s) := rfl
  have hcount : (takeInput (storePage pid ms s)).count = (storePage pid ms s).count := rfl
  unfold acceptPage
  rw [takeInput_storeEn, hstore, hcount, attemptRecovery_takeInput]
  split
  · rfl
  · split <;> rfl

theorem noteMessage_takeInput (mid : BitVec 5) (s : State) : noteMessage mid (takeInput s) = takeInput (noteMessage mid s) := by
  have hchange : isMessageChange mid (takeInput s) = isMessageChange mid s := rfl
  unfold noteMessage
  rw [hchange]
  split <;> rfl

theorem noteMessage_inputs (mid : BitVec 5) (s : State) : (noteMessage mid s).inputs = s.inputs := by
  rw [noteMessage_eq]

/-- HAS_PAGE does the same before and after an input is taken, but for the input. -/
theorem hasPageWith_takeInput (poly : BitVec 9) (gen : Fin 92 → Fin 32 → Byte) (s : State) :
    hasPageWith poly gen (takeInput s) = { hasPageWith poly gen s with inputs := s.inputs.tail } := by
  have hheader : pageHeader (takeInput s) = pageHeader s := rfl
  unfold hasPageWith
  simp only [hheader, noteMessage_takeInput, acceptPage_takeInput, noteMessage_inputs]
  split
  · rfl
  · split
    · rfl
    · split <;> rfl

/-- A recovery is under way only while a HAS_PAGE is in flight that recovers a message from this state (R312). -/
theorem recoveryUnderWay_elim (poly : BitVec 9) (gen : Fin 92 → Fin 32 → Byte) (s : State)
    (h : recoveryUnderWay poly gen s = true) :
    ∃ f, s.inflight = some f ∧ decode f.word = .command .hasPage ∧ (hasPageWith poly gen s).code = .ok ∧
      (hasPageWith poly gen s).result = outcomeRecovered := by
  unfold recoveryUnderWay at h
  cases hf : s.inflight with
  | none => rw [hf] at h; cases h
  | some f =>
    simp only [hf, Bool.and_eq_true, decide_eq_true_eq] at h
    obtain ⟨⟨hdec, -⟩, hcode, hres⟩ := h
    exact ⟨f, rfl, hdec, hcode, hres⟩

/-- The same recovery is under way in the state from which the CTRL write was taken. -/
theorem recoveryUnderWay_takeInput (s : State) (h : recoveryUnderWay Config.gfPoly Config.genMatrix (takeInput s) = true) :
    ∃ f u, s.inflight = some f ∧ decode f.word = .command .hasPage ∧ exec .hasPage s = .next u ∧ u.code = .ok ∧ u.result = 1 := by
  obtain ⟨g, hg, hdec, hcode, hres⟩ := recoveryUnderWay_elim _ _ _ h
  obtain ⟨f, hf, rfl⟩ : ∃ f, s.inflight = some f ∧ { f with wait := f.wait - 1 } = g := by
    simpa [takeInput_inflight] using hg
  rw [hasPageWith_takeInput] at hcode hres
  exact ⟨f, _, hf, hdec, rfl, hcode, hres⟩

/-- Settles O56: CTRL is written busy or not; what the soft reset does to BUF depends on the recovery under way alone. -/
theorem softResetKeepsTheRams : Obligations.SoftResetKeepsTheRams := by
  intro s v rest h
  have hstep : step s = .next (respond [] (if v.getLsbD 0 then softReset (takeInput s) else takeInput s)) :=
    step_write_performed s _ 4 v rest (.reg .ctrl) h rfl rfl (.inr rfl)
  refine ⟨fun hset => ?_, fun hclear => ?_⟩
  · rw [hset, if_pos rfl] at hstep
    refine ⟨_, hstep, takeInput_serves s _ rest h, hasResetValues_softReset (takeInput s), rfl, ?_⟩
    rcases softReset_buf (takeInput s) with ⟨hrec, hbuf⟩ | ⟨-, hbuf⟩
    · obtain ⟨f, u, hf, hdec, hexec, hcode, hres⟩ := recoveryUnderWay_takeInput s hrec
      exact .inr ⟨f, u, hf, hdec, hexec, hcode, hres, congrArg Memory.cells hbuf⟩
    · exact .inl hbuf
  · rw [hstep, hclear]; rfl

end Sys2Proof.Machine
end

section
/-!
PROOFS for 20_memory.md: where the window lies, which accesses its map admits, and what the host's reads and writes do, idle and busy.
-/

namespace Sys2Proof.Machine

/-! ### Where the window lies (R70, R291) -/

theorem windowOffset_inside (base : Nat) (offset : BitVec 13) : windowOffset base (base + offset.toNat) = some offset := by
  rw [windowOffset_add base offset.toNat offset.isLt, BitVec.ofNat_toNat, BitVec.setWidth_eq]

theorem windowOffset_outside (base address : Nat) (h : address < base ∨ base + 8192 ≤ address) :
    windowOffset base address = none :=
  if_neg (by simp only [Config.windowBytes]; omega)

/-- Settles O60: an access of either kind goes where its address falls, and `arriving` keeps the order. -/
theorem hostWindowLiesAtBase : Obligations.HostWindowLiesAtBase := by
  refine ⟨fun base address size v => ⟨fun offset haddr => ?_, fun hout => ?_⟩, fun a rest => ⟨fun i hi => ?_, fun hnone => ?_⟩⟩
  · subst haddr
    simp only [HostAccess.input, windowOffset_inside, Option.map_some, and_self]
  · simp only [HostAccess.input, windowOffset_outside base address hout, Option.map_none, and_self]
  · exact List.filterMap_cons_some hi
  · exact List.filterMap_cons_none hnone

/-! ### The window map (R71, R77) -/

/-- The registers stand at the multiples of 4 up to 0x2C. -/
theorem regAt_isSome_iff (off : Nat) : (regAt off).isSome = true ↔ off % 4 = 0 ∧ off ≤ 0x2C := by
  by_cases hlow : off < 0x30
  · have hall : ∀ k < 0x30, (regAt k).isSome = true ↔ k % 4 = 0 ∧ k ≤ 0x2C := by decide
    exact hall off hlow
  · obtain ⟨k, rfl⟩ := Nat.exists_eq_add_of_le' (not_lt.mp hlow)
    have hnone : regAt (k + 0x30) = none := rfl
    simp only [hnone, Option.isSome_none, Bool.false_eq_true, false_iff]
    omega

theorem ramAligned_iff (off size : Nat) :
    ramAligned off size = true ↔ (size = 1 ∨ size = 2 ∨ size = 4) ∧ off % size = 0 := by
  simp [ramAligned, or_assoc]

theorem insideRam_iff (base bytes off size : Nat) :
    insideRam base bytes off size = true ↔ base ≤ off ∧ off + size ≤ base + bytes := by
  simp [insideRam]

/-- At a register's offset only the size counts. -/
theorem target_isSome_of_reg (off size : Nat) (r : Reg) (h : regAt off = some r) :
    (target off size).isSome = true ↔ size = 4 := by
  simp [target, h]

/-- At any other offset the access is admitted when it is aligned and lies wholly inside a RAM. -/
theorem target_isSome_of_not_reg (off size : Nat) (h : regAt off = none) :
    (target off size).isSome = true ↔ ramAligned off size = true ∧
      (insideRam pageInBase Config.pageInBytes off size = true ∨ insideRam bufBase Config.bufBytes off size = true) := by
  simp [target, h, apply_ite Option.isSome]

theorem target_isSome_iff (off size : Nat) : (target off size).isSome = true ↔
    (off % 4 = 0 ∧ off ≤ 0x2C ∧ size = 4) ∨
      ((size = 1 ∨ size = 2 ∨ size = 4) ∧ off % size = 0 ∧
        ((0x100 ≤ off ∧ off + size ≤ 0x138) ∨ (0x1000 ≤ off ∧ off + size ≤ 0x1800))) := by
  have hreg := regAt_isSome_iff off
  cases h : regAt off with
  | some r =>
    obtain ⟨halign, hle⟩ := hreg.mp (by rw [h]; rfl)
    rw [target_isSome_of_reg off size r h]
    omega
  | none =>
    have hno : ¬ (off % 4 = 0 ∧ off ≤ 0x2C) := fun hp => by simpa [h] using hreg.mpr hp
    rw [target_isSome_of_not_reg off size h, ramAligned_iff, insideRam_iff, insideRam_iff]
    simp only [pageInBase, bufBase, Config.pageInBytes, Config.bufBytes]
    tauto

/-- A register is reached by 4 bytes at its own offset. -/
theorem target_reg (off size : Nat) (r : Reg) (h : target off size = some (.reg r)) : regAt off = some r ∧ size = 4 := by
  rcases target_cases off size _ h with ⟨q, hq, hreg, hsize⟩ | ⟨b, hb, -⟩ | ⟨b, hb, -⟩
  · cases hq; exact ⟨hreg, hsize⟩
  · cases hb
  · cases hb

theorem target_buf_offset (off size a : Nat) (h : target off size = some (.buf a)) : a + 0x1000 = off := by
  rcases target_cases off size _ h with ⟨r, hr, -⟩ | ⟨b, hb, -⟩ | ⟨b, hb, hoff, -⟩
  · cases hr
  · cases hb
  · cases hb; exact hoff.symm

theorem target_pageIn_offset (off size a : Nat) (h : target off size = some (.pageIn a)) : a + 0x100 = off := by
  rcases target_cases off size _ h with ⟨r, hr, -⟩ | ⟨b, hb, hoff, -⟩ | ⟨b, hb, -⟩
  · cases hr
  · cases hb; exact hoff.symm
  · cases hb

/-! ### What a step that serves an access does -/

/-- An idle block takes its first access and is otherwise as it was. -/
theorem takeInput_of_idle (s : State) (i : Input) (rest : List Input) (hidle : s.inflight = none) (hin : s.inputs = i :: rest) :
    takeInput s = { s with inputs := rest } := by
  rw [takeInput_idle s hidle, hin, List.tail_cons]

/-- A busy block takes its first access and has one fewer to be busy for (log 2). -/
theorem takeInput_of_busy (s : State) (f : InFlight) (i : Input) (rest : List Input) (hf : s.inflight = some f)
    (hin : s.inputs = i :: rest) :
    takeInput s = { s with inputs := rest, inflight := some { f with wait := f.wait - 1 } } := by
  simp only [takeInput, hf, hin, List.tail_cons, Option.map_some]

/-- Whether the block is busy does not depend on how long it will be. -/
theorem takeInput_busy (s : State) : (takeInput s).busy = s.busy := by
  simp only [State.busy, takeInput_inflight, Option.isSome_map]

theorem statusWord_takeInput (s : State) : statusWord (takeInput s) = statusWord s := by
  simp only [statusWord, takeInput_busy, takeInput_rej, takeInput_haz, takeInput_err, takeInput_lastop, takeInput_code]

/-- Taking the access changes nothing that a read returns. -/
theorem targetBytes_takeInput (size : Nat) (s : State) (t : Target) :
    targetBytes size (takeInput s) t = targetBytes size s t := by
  cases t with
  | pageIn a => rfl
  | buf a => rfl
  | reg r =>
    cases r with
    | status => exact congrArg (leBytes size) (statusWord_takeInput s)
    | id | ctrl | cmd | resultLo | resultHi | fdx | pos | len | mark | psStatus | param => rfl

theorem step_read (s : State) (off : BitVec 13) (size : Nat) (rest : List Input) (h : Serves s (.read off size) rest) :
    step s = .next (busRead off.toNat size (takeInput s)) := step_serves s _ rest h

/-- A read that is not admitted is rejected, busy or not (R78). -/
theorem step_read_rejected (s : State) (off : BitVec 13) (size : Nat) (rest : List Input) (h : Serves s (.read off size) rest)
    (ht : target off.toNat size = none) : step s = .next (reject (List.replicate size 0) (takeInput s)) := by
  rw [step_read s off size rest h, busRead, ht]

/-- An admitted read answers the bytes at its address when the block is idle, or the target one that R79 names. -/
theorem step_read_answered (s : State) (off : BitVec 13) (size : Nat) (rest : List Input) (t : Target)
    (h : Serves s (.read off size) rest) (ht : target off.toNat size = some t)
    (hr : s.inflight = none ∨ readableWhileBusy t = true) :
    step s = .next (respond (targetBytes size s t) (takeInput s)) := by
  have hanswer : ((takeInput s).busy && !readableWhileBusy t) = false := by
    rw [takeInput_busy]
    rcases hr with hidle | hread
    · simp [State.busy, hidle]
    · simp [hread]
  rw [step_read s off size rest h, ← targetBytes_takeInput]
  simp only [busRead, ht, hanswer, Bool.false_eq_true, if_false]

/-- Any other admitted read while BUSY = 1 answers bytes of a fresh draw (R79; log 5). -/
theorem step_read_unspecified (s : State) (off : BitVec 13) (size : Nat) (rest : List Input) (t : Target)
    (h : Serves s (.read off size) rest) (ht : target off.toNat size = some t) (hbusy : s.busy = true)
    (hr : readableWhileBusy t = false) :
    step s = .next (drawn (respond (freeBytes (takeInput s) size) (takeInput s))) := by
  rw [step_read s off size rest h]
  simp only [busRead, ht, takeInput_busy, hbusy, hr, Bool.not_false, Bool.and_self, if_true]

/-- A write that is not admitted is rejected, busy or not (R78). -/
theorem step_write_rejected (s : State) (off : BitVec 13) (size : Nat) (v : Word) (rest : List Input)
    (h : Serves s (.write off size v) rest) (ht : target off.toNat size = none) : step s = .next (reject [] (takeInput s)) := by
  have hw : busWrite off.toNat size v (takeInput s) = reject [] (takeInput s) := by simp only [busWrite, ht]
  rw [step_serves s _ rest h]
  exact congrArg _ hw

/-- An admitted write while BUSY = 1, neither rejected nor to CTRL, is dropped (R79). -/
theorem step_write_dropped (s : State) (off : BitVec 13) (size : Nat) (v : Word) (rest : List Input) (t : Target)
    (h : Serves s (.write off size v) rest) (ht : target off.toNat size = some t) (hr : writeRefused v s t = false)
    (hbusy : s.busy = true) (hctrl : t ≠ .reg .ctrl) : step s = .next (dropWrite (takeInput s)) := by
  have hw : busWrite off.toNat size v (takeInput s) = dropWrite (takeInput s) := by
    simp [busWrite, ht, writeRefused_takeInput, hr, takeInput_busy, hbusy, hctrl]
  rw [step_serves s _ rest h]
  exact congrArg _ hw

/-! ### Rejected accesses (R77, R78) -/

/-- Settles O45. -/
theorem admittedAccessesAreTheAlignedOnes : Obligations.AdmittedAccessesAreTheAlignedOnes :=
  ⟨target_isSome_iff, step_read_rejected, step_write_rejected⟩

/-- The registers of R71 that the host only reads, each refusing every write. -/
theorem readOnly_refused (off : BitVec 13)
    (h : off ∈ [0x000#13, 0x010#13, 0x014#13, 0x018#13, 0x01C#13, 0x024#13, 0x028#13, 0x02C#13]) :
    ∃ r, target off.toNat 4 = some (.reg r) ∧ ∀ v s, writeRefused v s (.reg r) = true := by
  simp only [List.mem_cons, List.not_mem_nil, or_false] at h
  rcases h with rfl | rfl | rfl | rfl | rfl | rfl | rfl | rfl
  all_goals exact ⟨_, rfl, fun _ _ => rfl⟩

/-- Settles O46. -/
theorem readOnlyRegistersRejectWrites : Obligations.ReadOnlyRegistersRejectWrites := by
  intro s off v rest h hoff
  obtain ⟨r, ht, hr⟩ := readOnly_refused off hoff
  exact step_write_refused s off 4 v rest (.reg r) h ht (hr v s)

/-! ### Reads (R74, R75, R81) -/

/-- Settles O47, by the cases of a read: rejected, answered with free bytes, answered with the contents. -/
theorem hostReadsHaveNoSideEffect : Obligations.HostReadsHaveNoSideEffect := by
  intro s t off size rest h hstep
  rw [step_read s off size rest h] at hstep
  cases hstep
  rcases busRead_cases off.toNat size (takeInput s) with ⟨hnone, he⟩ | ⟨tgt, -, ⟨-, -, he⟩ | ⟨-, he⟩⟩
  all_goals rw [he]
  · exact ⟨rfl, fun hsome => by rw [hnone] at hsome; cases hsome⟩
  · exact ⟨rfl, fun _ => rfl⟩
  · exact ⟨rfl, fun _ => rfl⟩

/-- A word is its four lanes, lane 0 least significant (R74). -/
theorem word_eq_lanes (w : Word) : w =
    (leBytes 4 w).getD 3 0 ++ (leBytes 4 w).getD 2 0 ++ (leBytes 4 w).getD 1 0 ++ (leBytes 4 w).getD 0 0 := by
  simp (disch := decide) only [leBytes_getD]
  rw [BitVec.extractLsb'_append_extractLsb'_eq_extractLsb' (by decide),
    BitVec.extractLsb'_append_extractLsb'_eq_extractLsb' (by decide),
    BitVec.extractLsb'_append_extractLsb'_eq_extractLsb' (by decide)]
  exact BitVec.extractLsb'_eq_self.symm

/-- A register of 16 bits reads with zeros above them. -/
theorem zeroExtend_eq_zeros_append (x : BitVec 16) : x.zeroExtend 32 = 0#16 ++ x :=
  BitVec.setWidth_eq_append (by decide)

/-- Each register at its offset, with the word it is read as (R71). -/
theorem register_contents (s : State) (off : BitVec 13) (w : Word)
    (h : (off, w) ∈ [(0x000#13, 0x52534401#32), (0x004, statusWord s), (0x008, 0), (0x00C, 0),
      (0x010, s.result.extractLsb' 0 32), (0x014, s.result.extractLsb' 32 32),
      (0x018, 0#17 ++ s.popc ++ 0#7 ++ BitVec.ofBool s.unav), (0x01C, 0#16 ++ s.pos), (0x020, 0#16 ++ s.len),
      (0x024, 0#16 ++ s.mark), (0x028, psStatusWord s), (0x02C, 0x405C0800)]) :
    ∃ r, target off.toNat 4 = some (.reg r) ∧ regWord s r = w := by
  simp only [List.mem_cons, List.not_mem_nil, or_false, Prod.mk.injEq, ← zeroExtend_eq_zeros_append] at h
  rcases h with ⟨rfl, rfl⟩ | ⟨rfl, rfl⟩ | ⟨rfl, rfl⟩ | ⟨rfl, rfl⟩ | ⟨rfl, rfl⟩ | ⟨rfl, rfl⟩ | ⟨rfl, rfl⟩ | ⟨rfl, rfl⟩ |
    ⟨rfl, rfl⟩ | ⟨rfl, rfl⟩ | ⟨rfl, rfl⟩ | ⟨rfl, rfl⟩
  all_goals exact ⟨_, rfl, rfl⟩

/-- An admitted read while nothing is in flight: the input is taken, and the bytes at the address are answered (R75). -/
theorem step_read_idle (s : State) (off : BitVec 13) (size : Nat) (rest : List Input) (t : Target) (hidle : s.inflight = none)
    (hin : s.inputs = .read off size :: rest) (ht : target off.toNat size = some t) :
    step s = .next { s with inputs := rest, response := some ⟨targetBytes size s t, false⟩ } := by
  rw [step_read_answered s off size rest t (serves_of_idle s _ rest hidle hin) ht (.inl hidle),
    takeInput_of_idle s _ rest hidle hin]
  rfl

/-- Settles O48: a register answers the four lanes of its word, a RAM its bytes one by one. -/
theorem idleReadsReturnTheContents : Obligations.IdleReadsReturnTheContents := by
  intro s off size rest hidle hin
  refine ⟨fun r ht => ?_, fun w hsize hmem => ?_, fun a ht => ?_, fun a ht => ?_⟩
  · obtain ⟨-, rfl⟩ := target_reg _ _ _ ht
    exact ⟨_, leBytes_length 4 _, step_read_idle s off 4 rest _ hidle hin ht, word_eq_lanes _⟩
  · subst hsize
    obtain ⟨r, ht, rfl⟩ := register_contents s off w hmem
    exact step_read_idle s off 4 rest _ hidle hin ht
  · rw [← readBytes_eq]
    exact ⟨target_buf_offset _ _ _ ht, step_read_idle s off size rest _ hidle hin ht⟩
  · rw [← readBytes_eq]
    exact ⟨target_pageIn_offset _ _ _ ht, step_read_idle s off size rest _ hidle hin ht⟩

/-! ### Writes (R74, R76) -/

/-- A byte of a write lands at its lane's address. -/
theorem read_writeBytes_lane (m : Memory) (a size i : Nat) (v : Word) (h : i < size) :
    (m.writeBytes a (leBytes size v)).read (a + i) = v.extractLsb' (8 * i) 8 := by
  rw [read_writeBytes, leBytes_length, if_pos (by omega), Nat.add_sub_cancel_left, leBytes_getD size i v h]

/-- The bytes outside a write stay. -/
theorem read_writeBytes_outside (m : Memory) (a size x : Nat) (v : Word) (h : x < a ∨ a + size ≤ x) :
    (m.writeBytes a (leBytes size v)).read x = m.read x := by
  rw [read_writeBytes, leBytes_length, if_neg (by omega)]

/-- Settles O49. -/
theorem idleWritesStoreTheirBytes : Obligations.IdleWritesStoreTheirBytes := by
  intro s off size v rest hidle hin
  refine ⟨fun a ht => ⟨target_buf_offset _ _ _ ht, s.buf.writeBytes a (leBytes size v), ?_⟩,
    fun a ht => ⟨target_pageIn_offset _ _ _ ht, s.pageIn.writeBytes a (leBytes size v), ?_⟩⟩
  · exact ⟨step_write_idle s off size v rest _ hidle hin ht rfl, fun i hi => read_writeBytes_lane _ a size i v hi,
      fun x hx => read_writeBytes_outside _ a size x v hx⟩
  · exact ⟨step_write_idle s off size v rest _ hidle hin ht rfl, fun i hi => read_writeBytes_lane _ a size i v hi,
      fun x hx => read_writeBytes_outside _ a size x v hx⟩

/-! ### Accesses while BUSY = 1 (R79) -/

/-- ID, STATUS and PARAM at their offsets, each read with its value even while BUSY = 1. -/
theorem readableWhileBusy_contents (s : State) (off : BitVec 13) (w : Word)
    (h : (off = 0x000#13 ∧ w = 0x52534401) ∨ (off = 0x004#13 ∧ w = statusWord s) ∨ (off = 0x02C#13 ∧ w = 0x405C0800)) :
    ∃ r, target off.toNat 4 = some (.reg r) ∧ readableWhileBusy (.reg r) = true ∧ regWord s r = w := by
  rcases h with ⟨rfl, rfl⟩ | ⟨rfl, rfl⟩ | ⟨rfl, rfl⟩
  · exact ⟨.id, rfl, rfl, rfl⟩
  · exact ⟨.status, rfl, rfl, rfl⟩
  · exact ⟨.param, rfl, rfl, rfl⟩

/-- Settles O51. -/
theorem busyAccessesAreDroppedOrAnswered : Obligations.BusyAccessesAreDroppedOrAnswered := by
  intro s f rest hf hwait
  have hbusy : s.busy = true := by rw [State.busy, hf]; rfl
  refine ⟨fun off size v tgt hin ht hr hctrl => ?_, fun off w hin hmem => ?_, fun off size tgt hin ht hr => ?_⟩
  · have hserves := serves_of_busy s f _ rest hf hwait hin
    rw [step_write_dropped s off size v rest tgt hserves ht hr hbusy hctrl, takeInput_of_busy s f _ rest hf hin]
    rfl
  · have hserves := serves_of_busy s f _ rest hf hwait hin
    obtain ⟨r, ht, hr, rfl⟩ := readableWhileBusy_contents s off w hmem
    rw [step_read_answered s off 4 rest _ hserves ht (.inr hr), takeInput_of_busy s f _ rest hf hin]
    rfl
  · have hserves := serves_of_busy s f _ rest hf hwait hin
    refine ⟨_, freeBytes_length (takeInput s) size, ?_⟩
    rw [step_read_unspecified s off size rest tgt hserves ht hbusy hr, takeInput_of_busy s f _ rest hf hin]
    rfl

end Sys2Proof.Machine
end

section
/-!
PROOFS for 30_encoding.md: the decoder against the encoder and against the opcode map, and the header of a page.
-/

namespace Sys2Proof.Machine

/-! ### Each word has one meaning (30_encoding.md R100, R106) -/

/-- A command whose OPC and operands are the fields of a word has that word. -/
theorem encode_eq_of_fields (i : Instr) (w : Word) (hopc : (opcField w).toNat = i.opcode.toNat) (hn : i.nOperand = nField w)
    (himm : i.immOperand = immField w) : encode i = w := by
  rw [encode, ← BitVec.eq_of_toNat_eq hopc, hn, himm, word_eq_fields]

section
variable {w : Word} {i : Instr}

theorem encode_of_decodePlain {j : Instr} (h : decodePlain j (nField w) (immField w) = .command i)
    (hopc : (opcField w).toNat = j.opcode.toNat) (hn : j.nOperand = 0) (himm : j.immOperand = 0) : encode i = w := by
  unfold decodePlain at h
  split at h
  · next hz =>
    obtain ⟨hn0, himm0⟩ := hz
    cases h
    exact encode_eq_of_fields _ w hopc (hn.trans hn0.symm) (himm.trans himm0.symm)
  · cases h

theorem encode_of_decodeWidth {mk : BitVec 8 → Instr} {lo : Nat}
    (h : decodeWidth mk lo (nField w) (immField w) = .command i) (hopc : ∀ n, (opcField w).toNat = (mk n).opcode.toNat)
    (hn : ∀ n, (mk n).nOperand = n) (himm : ∀ n, (mk n).immOperand = 0) : encode i = w := by
  unfold decodeWidth at h
  split at h
  · cases h
  · next hz =>
    split at h
    · cases h
      exact encode_eq_of_fields _ w (hopc _) (hn _) ((himm _).trans (not_not.mp hz).symm)
    · cases h

theorem encode_of_decodeWidthImm {mk : BitVec 8 → BitVec 16 → Instr} {lo : Nat}
    (h : decodeWidthImm mk lo (nField w) (immField w) = .command i)
    (hopc : ∀ n x, (opcField w).toNat = (mk n x).opcode.toNat) (hn : ∀ n x, (mk n x).nOperand = n)
    (himm : ∀ n x, (mk n x).immOperand = x) : encode i = w := by
  unfold decodeWidthImm at h
  split at h
  · cases h
    exact encode_eq_of_fields _ w (hopc _ _) (hn _ _) (himm _ _)
  · cases h

theorem encode_of_decodeImm {mk : BitVec 16 → Instr} (h : decodeImm mk (nField w) (immField w) = .command i)
    (hopc : ∀ x, (opcField w).toNat = (mk x).opcode.toNat) (hn : ∀ x, (mk x).nOperand = 0)
    (himm : ∀ x, (mk x).immOperand = x) : encode i = w := by
  unfold decodeImm at h
  split at h
  · next hz =>
    cases h
    exact encode_eq_of_fields _ w (hopc _) ((hn _).trans hz.symm) (himm _)
  · cases h

end

/-- A word that decodes is its command's own, one row of the opcode map after the other. -/
theorem encode_of_decode (w : Word) (i : Instr) (h : decode w = .command i) : encode i = w := by
  unfold decode at h
  split at h
  · next hopc => exact encode_of_decodePlain h hopc rfl rfl
  · next hopc => exact encode_of_decodePlain h hopc rfl rfl
  · next hopc => exact encode_of_decodeWidth h (fun _ => hopc) (fun _ => rfl) fun _ => rfl
  · next hopc => exact encode_of_decodeWidth h (fun _ => hopc) (fun _ => rfl) fun _ => rfl
  · next hopc => exact encode_of_decodePlain h hopc rfl rfl
  · next hopc => exact encode_of_decodePlain h hopc rfl rfl
  · next hopc => exact encode_of_decodeWidthImm h (fun _ _ => hopc) (fun _ _ => rfl) fun _ _ => rfl
  · next hopc => exact encode_of_decodeImm h (fun _ => hopc) (fun _ => rfl) fun _ => rfl
  · next hopc => exact encode_of_decodePlain h hopc rfl rfl
  · next hopc => exact encode_of_decodePlain h hopc rfl rfl
  · next hopc => exact encode_of_decodeImm h (fun _ => hopc) (fun _ => rfl) fun _ => rfl
  · next hopc => exact encode_of_decodeWidth h (fun _ => hopc) (fun _ => rfl) fun _ => rfl
  · next hopc => exact encode_of_decodeWidthImm h (fun _ _ => hopc) (fun _ _ => rfl) fun _ _ => rfl
  · next hopc => exact encode_of_decodeWidth h (fun _ => hopc) (fun _ => rfl) fun _ => rfl
  · next hopc => exact encode_of_decodePlain h hopc rfl rfl
  · next hopc => exact encode_of_decodePlain h hopc rfl rfl
  · cases h

/-! ### The opcode map (R104) -/

/-- A command's word is on the map when a row has its OPC, its width in range and its immediate. -/
theorem inOpcodeMap_encode_of_row (i : Instr) (row : OpcodeRow) (hrow : row ∈ opcodeMap) (hopc : i.opcode.toNat = row.opc)
    (hn : row.nLo ≤ i.nOperand.toNat ∧ i.nOperand.toNat ≤ row.nHi) (himm : row.immZero = true → i.immOperand = 0) :
    inOpcodeMap (encode i) := by
  obtain ⟨fopc, fn, fimm⟩ := Laws.encodedFields_any i
  refine ⟨row, hrow, ?_, ?_, ?_, ?_⟩
  · rw [fopc, hopc]
  · rw [fn]; exact hn.1
  · rw [fn]; exact hn.2
  · rw [fimm]; exact himm

/-- A well-formed command's word is on the map, in the row of its mnemonic. -/
theorem inOpcodeMap_encode (i : Instr) (h : i.wellFormed = true) : inOpcodeMap (encode i) := by
  have hzero : 0 ≤ (0#8).toNat ∧ (0#8).toNat ≤ 0 := ⟨le_rfl, le_rfl⟩
  cases i with
  | nop => exact inOpcodeMap_encode_of_row _ ⟨0x00, 0, 0, true⟩ (by decide) rfl hzero fun _ => rfl
  | bcReset => exact inOpcodeMap_encode_of_row _ ⟨0x01, 0, 0, true⟩ (by decide) rfl hzero fun _ => rfl
  | bcRdu n => exact inOpcodeMap_encode_of_row _ ⟨0x02, 0, 64, true⟩ (by decide) rfl ((widthInRange_iff 0 n).mp h) fun _ => rfl
  | bcRdi n => exact inOpcodeMap_encode_of_row _ ⟨0x03, 0, 64, true⟩ (by decide) rfl ((widthInRange_iff 0 n).mp h) fun _ => rfl
  | bcRem => exact inOpcodeMap_encode_of_row _ ⟨0x04, 0, 0, true⟩ (by decide) rfl hzero fun _ => rfl
  | bcPos => exact inOpcodeMap_encode_of_row _ ⟨0x05, 0, 0, true⟩ (by decide) rfl hzero fun _ => rfl
  | bcSubr a n => exact inOpcodeMap_encode_of_row _ ⟨0x06, 0, 64, false⟩ (by decide) rfl ((widthInRange_iff 0 n).mp h) nofun
  | bcSeek p => exact inOpcodeMap_encode_of_row _ ⟨0x07, 0, 0, false⟩ (by decide) rfl hzero nofun
  | bcMark => exact inOpcodeMap_encode_of_row _ ⟨0x08, 0, 0, true⟩ (by decide) rfl hzero fun _ => rfl
  | bcRewind => exact inOpcodeMap_encode_of_row _ ⟨0x09, 0, 0, true⟩ (by decide) rfl hzero fun _ => rfl
  | bcReq m => exact inOpcodeMap_encode_of_row _ ⟨0x0A, 0, 0, false⟩ (by decide) rfl hzero nofun
  | fdRds n => exact inOpcodeMap_encode_of_row _ ⟨0x10, 1, 64, true⟩ (by decide) rfl ((widthInRange_iff 1 n).mp h) fun _ => rfl
  | fdRdsx n x => exact inOpcodeMap_encode_of_row _ ⟨0x11, 1, 64, false⟩ (by decide) rfl ((widthInRange_iff 1 n).mp h) nofun
  | fdRdpc n => exact inOpcodeMap_encode_of_row _ ⟨0x12, 0, 64, true⟩ (by decide) rfl ((widthInRange_iff 0 n).mp h) fun _ => rfl
  | hasPage => exact inOpcodeMap_encode_of_row _ ⟨0x20, 0, 0, true⟩ (by decide) rfl hzero fun _ => rfl
  | hasClear => exact inOpcodeMap_encode_of_row _ ⟨0x21, 0, 0, true⟩ (by decide) rfl hzero fun _ => rfl

section
variable {n : BitVec 8} {imm : BitVec 16}

theorem decodePlain_of_row (i : Instr) (hn : n.toNat ≤ 0) (himm : imm = 0) : ∃ j, decodePlain i n imm = .command j := by
  have hzero : n = 0 := BitVec.eq_of_toNat_eq (Nat.le_zero.mp hn)
  exact ⟨i, by rw [hzero, himm, decodePlain_zero]⟩

theorem decodeWidth_of_row (mk : BitVec 8 → Instr) (lo : Nat) (hlo : lo ≤ n.toNat) (hhi : n.toNat ≤ 64) (himm : imm = 0) :
    ∃ j, decodeWidth mk lo n imm = .command j :=
  ⟨mk n, by rw [himm, decodeWidth_zero mk lo n ((widthInRange_iff lo n).mpr ⟨hlo, hhi⟩)]⟩

theorem decodeWidthImm_of_row (mk : BitVec 8 → BitVec 16 → Instr) (lo : Nat) (hlo : lo ≤ n.toNat) (hhi : n.toNat ≤ 64) :
    ∃ j, decodeWidthImm mk lo n imm = .command j :=
  ⟨mk n imm, decodeWidthImm_inRange mk lo n imm ((widthInRange_iff lo n).mpr ⟨hlo, hhi⟩)⟩

theorem decodeImm_of_row (mk : BitVec 16 → Instr) (hn : n.toNat ≤ 0) : ∃ j, decodeImm mk n imm = .command j := by
  have hzero : n = 0 := BitVec.eq_of_toNat_eq (Nat.le_zero.mp hn)
  exact ⟨mk imm, by rw [hzero, decodeImm_zero]⟩

end

/-- The decoder accepts what a row of the map asks, row by row. -/
theorem decode_of_inOpcodeMap (w : Word) (h : inOpcodeMap w) : ∃ i, decode w = .command i := by
  obtain ⟨row, hrow, hopc, hlo, hhi, himm⟩ := h
  simp only [opcodeMap, List.mem_cons, List.not_mem_nil, or_false] at hrow
  unfold decode
  rcases hrow with rfl | rfl | rfl | rfl | rfl | rfl | rfl | rfl | rfl | rfl | rfl | rfl | rfl | rfl | rfl | rfl
  all_goals rw [hopc]
  · exact decodePlain_of_row _ hhi (himm rfl)
  · exact decodePlain_of_row _ hhi (himm rfl)
  · exact decodeWidth_of_row _ 0 hlo hhi (himm rfl)
  · exact decodeWidth_of_row _ 0 hlo hhi (himm rfl)
  · exact decodePlain_of_row _ hhi (himm rfl)
  · exact decodePlain_of_row _ hhi (himm rfl)
  · exact decodeWidthImm_of_row _ 0 hlo hhi
  · exact decodeImm_of_row _ hhi
  · exact decodePlain_of_row _ hhi (himm rfl)
  · exact decodePlain_of_row _ hhi (himm rfl)
  · exact decodeImm_of_row _ hhi
  · exact decodeWidth_of_row _ 1 hlo hhi (himm rfl)
  · exact decodeWidthImm_of_row _ 1 hlo hhi
  · exact decodeWidth_of_row _ 0 hlo hhi (himm rfl)
  · exact decodePlain_of_row _ hhi (himm rfl)
  · exact decodePlain_of_row _ hhi (himm rfl)

/-- The decoder and the map R104 agree on the legal words. -/
theorem decode_command_iff (w : Word) : (∃ i, decode w = .command i) ↔ inOpcodeMap w := by
  refine ⟨fun ⟨i, h⟩ => ?_, decode_of_inOpcodeMap w⟩
  rw [← encode_of_decode w i h]
  exact inOpcodeMap_encode i (decode_wellFormed w i h)

theorem decode_illegal_of_not_inOpcodeMap (w : Word) (h : ¬ inOpcodeMap w) : ∃ why, decode w = .illegal why := by
  cases hd : decode w with
  | command i => exact absurd ((decode_command_iff w).mp ⟨i, hd⟩) h
  | illegal why => exact ⟨why, rfl⟩

/-- An illegal word that is due completes with ILLEGAL_COMMAND, LASTOP its OPC and ERR set, nothing else changing (R105). -/
theorem step_illegal (s : State) (f : InFlight) (why : Illegal) (hf : s.inflight = some f) (hdue : f.wait = 0 ∨ s.inputs = [])
    (hill : decode f.word = .illegal why) :
    step s = .next { s with code := .illegalCommand, lastop := opcField f.word, err := true, inflight := none } := by
  simp only [step_completes s f hf hdue, hill]
  simp [raiseIllegal, raise, finish]

/-- Settles O1: the fields of the word select the command's row and pass its checks. -/
theorem decodingAnEncodedCommandGivesItBack : Obligations.DecodingAnEncodedCommandGivesItBack := decode_encode

/-- Settles O2: what the decoder reads from the three fields is what the encoder writes there. -/
theorem decodedWordIsTheEncodingOfItsCommand : Obligations.DecodedWordIsTheEncodingOfItsCommand :=
  fun w i h => ⟨decode_wellFormed w i h, encode_of_decode w i h⟩

/-- Settles O3: a word off the map has no command, so its step is that of an illegal word. -/
theorem illegalWordsAreThoseOffTheOpcodeMap : Obligations.IllegalWordsAreThoseOffTheOpcodeMap := by
  refine ⟨decode_command_iff, fun s f hf hdue hoff => ?_⟩
  obtain ⟨why, hill⟩ := decode_illegal_of_not_inOpcodeMap f.word hoff
  exact step_illegal s f why hf hdue hill

/-- Settles O4: each word has its three fields written out. -/
theorem sampleWordsDecode : Obligations.SampleWordsDecode := by
  unfold Obligations.SampleWordsDecode
  decide

/-! ### The page header (R111; 20_memory.md R73) -/

/-- Three bytes as a number, the first the most significant. -/
theorem threeBytes_toNat (a b c : Byte) : (a ++ b ++ c).toNat = a.toNat * 65536 + b.toNat * 256 + c.toNat := by
  have hb := b.isLt
  have hc := c.isLt
  rw [BitVec.toNat_append, BitVec.toNat_append, ← Nat.shiftLeft_add_eq_or_of_lt hc, ← Nat.shiftLeft_add_eq_or_of_lt hb,
    Nat.shiftLeft_eq, Nat.shiftLeft_eq]
  omega

/-- A field of the header, as a number. -/
theorem headerField_toNat (h : BitVec 24) (start len : Nat) :
    (h.extractLsb' start len).toNat = h.toNat / 2 ^ start % 2 ^ len := by
  rw [BitVec.extractLsb'_toNat, Nat.shiftRight_eq_div_pow]

/-- Three bytes are determined by their word. -/
theorem threeBytes_inj (a b c a' b' c' : Byte) : a ++ b ++ c = a' ++ b' ++ c' ↔ a = a' ∧ b = b' ∧ c = c' := by
  simp only [← BitVec.toNat_inj, threeBytes_toNat]
  omega

/-- Settles O34: the fields are read off the header as a number. -/
theorem headerFieldsLieAsLaidOut : Obligations.HeaderFieldsLieAsLaidOut := by
  intro s
  have h0 := (s.pageIn.read 0).isLt
  have h1 := (s.pageIn.read 1).isLt
  have h2 := (s.pageIn.read 2).isLt
  have hhdr : (pageHeader s).toNat = _ := threeBytes_toNat _ _ _
  refine ⟨?_, ?_, ?_, ?_, threeBytes_inj _ _ _ 0xAF 0x3B 0xC3⟩
  · rw [headerPid, headerField_toNat]; omega
  · rw [headerMt, headerField_toNat]; omega
  · rw [headerMid, headerField_toNat]; omega
  · rw [headerMs, headerField_toNat]; omega

end Sys2Proof.Machine
end

section
/-!
PROOFS for 30_encoding.md: the assembler's operands, the commands it yields and its lines (R108, R109; log 23).
-/

namespace Sys2Proof.Machine

/-! ### The assembler's operands (R108) -/

theorem operandIn_of_mem (lo hi : Int) (bits : Nat) (x : Int) (hlo : lo ≤ x) (hhi : x ≤ hi) :
    operandIn lo hi bits x = some (BitVec.ofInt bits x) := if_pos ⟨hlo, hhi⟩

theorem operandIn_of_not_mem (lo hi : Int) (bits : Nat) (x : Int) (h : ¬ (lo ≤ x ∧ x ≤ hi)) :
    operandIn lo hi bits x = none := if_neg h

/-- An operand without a sign that fits its field is encoded as it stands. -/
theorem toNat_ofInt_of_fits (w : Nat) (x : Int) (h0 : 0 ≤ x) (h : x < 2 ^ w) : ((BitVec.ofInt w x).toNat : Int) = x := by
  rw [BitVec.toNat_ofInt, Nat.cast_pow, Nat.cast_ofNat, Int.emod_eq_of_lt h0 h, Int.toNat_of_nonneg h0]

theorem positionOperand_of_mem (p : Int) (h : 0 ≤ p ∧ p ≤ 65535) :
    ∃ b : BitVec 16, (b.toNat : Int) = p ∧ positionOperand p = some b :=
  ⟨BitVec.ofInt 16 p, toNat_ofInt_of_fits 16 p h.1 (by omega), operandIn_of_mem 0 65535 16 p h.1 h.2⟩

theorem sentinelOperand_of_mem (x : Int) (hlo : -32768 ≤ x) (hhi : x ≤ 32767) :
    ∃ y : BitVec 16, y.toInt = x ∧ sentinelOperand x = some y :=
  ⟨BitVec.ofInt 16 x, BitVec.toInt_ofInt_eq_self (by decide) hlo (by omega), operandIn_of_mem (-32768) 32767 16 x hlo hhi⟩

/-- A width up to 64 is encoded alike whichever its least value. -/
theorem widthOperand_of_mem (n : Int) (h : 0 ≤ n ∧ n ≤ 64) :
    ∃ b : BitVec 8, (b.toNat : Int) = n ∧ ∀ lo ≤ n, widthOperand lo n = some b :=
  ⟨BitVec.ofInt 8 n, toNat_ofInt_of_fits 8 n h.1 (by omega), fun lo hlo => operandIn_of_mem lo 64 8 n hlo h.2⟩

theorem widthOperand_of_not_mem (lo n : Int) (h : ¬ (lo ≤ n ∧ n ≤ 64)) : widthOperand lo n = none :=
  operandIn_of_not_mem lo 64 8 n h

theorem positionOperand_of_not_mem (p : Int) (h : ¬ (0 ≤ p ∧ p ≤ 65535)) : positionOperand p = none :=
  operandIn_of_not_mem 0 65535 16 p h

theorem sentinelOperand_of_not_mem (x : Int) (h : ¬ (-32768 ≤ x ∧ x ≤ 32767)) : sentinelOperand x = none :=
  operandIn_of_not_mem (-32768) 32767 16 x h

/-- A width the assembler accepts is one the decoder accepts (R104, R108). -/
theorem widthInRange_of_widthOperand (lo : Nat) (x : Int) (b : BitVec 8) (h : widthOperand lo x = some b) :
    widthInRange lo b = true := by
  by_cases hx : (lo : Int) ≤ x ∧ x ≤ 64
  · obtain ⟨hlo, hhi⟩ := hx
    obtain ⟨c, hc, hw⟩ := widthOperand_of_mem x ⟨by omega, hhi⟩
    obtain rfl : c = b := Option.some.inj ((hw lo hlo).symm.trans h)
    rw [widthInRange_iff]
    omega
  · rw [widthOperand_of_not_mem lo x hx] at h
    cases h

/-! ### The assembler (R108, R109) -/

/-- How many operands a mnemonic takes (R108). -/
def Mnemonic.operandCount : Mnemonic → Nat
  | .nop | .bcReset | .bcRem | .bcPos | .bcMark | .bcRewind | .hasPage | .hasClear | .bcRdBit | .bcRewind0 => 0
  | .bcRdu | .bcRdi | .fdRds | .fdRdpc | .bcSeek | .bcReq | .bcRdMask | .bcSkipTo => 1
  | .bcSubr | .fdRdsx => 2

/-- What the assembler accepts has its mnemonic's number of operands: only its last row takes any other, and it refuses. -/
theorem length_of_assemble (m : Mnemonic) (ops : List Int) (i : Instr) (h : assemble m ops = some i) :
    ops.length = m.operandCount := by
  unfold assemble at h
  split at h
  case h_21 => cases h
  all_goals rfl

theorem assemble_none_of_length (m : Mnemonic) (ops : List Int) (h : ops.length ≠ m.operandCount) : assemble m ops = none :=
  Option.eq_none_iff_forall_ne_some.mpr fun i hi => h (length_of_assemble m ops i hi)

/-- A command with a width and nothing else is assembled as a well-formed one. -/
theorem wellFormed_of_map_width {mk : BitVec 8 → Instr} {lo : Nat} {n : Int} {i : Instr}
    (h : (widthOperand lo n).map mk = some i) (hmk : ∀ b, widthInRange lo b = true → (mk b).wellFormed = true) :
    i.wellFormed = true := by
  obtain ⟨b, hb, rfl⟩ := Option.map_eq_some_iff.mp h
  exact hmk b (widthInRange_of_widthOperand lo n b hb)

theorem wellFormed_of_map_position {mk : BitVec 16 → Instr} {p : Int} {i : Instr}
    (h : (positionOperand p).map mk = some i) (hmk : ∀ b, (mk b).wellFormed = true) : i.wellFormed = true := by
  obtain ⟨b, -, rfl⟩ := Option.map_eq_some_iff.mp h
  exact hmk b

/-- The assembler yields well-formed commands only, mnemonic by mnemonic. -/
theorem assemble_wellFormed (m : Mnemonic) (ops : List Int) (i : Instr) (h : assemble m ops = some i) : i.wellFormed = true := by
  unfold assemble at h
  split at h
  · cases h; rfl
  · cases h; rfl
  · exact wellFormed_of_map_width (lo := 0) h fun _ hb => hb
  · exact wellFormed_of_map_width (lo := 0) h fun _ hb => hb
  · cases h; rfl
  · cases h; rfl
  · obtain ⟨a, -, hn⟩ := Option.bind_eq_some_iff.mp h
    exact wellFormed_of_map_width (lo := 0) hn fun _ hb => hb
  · exact wellFormed_of_map_position h fun _ => rfl
  · cases h; rfl
  · cases h; rfl
  · exact wellFormed_of_map_position h fun _ => rfl
  · exact wellFormed_of_map_width (lo := 1) h fun _ hb => hb
  · obtain ⟨b, hb, hx⟩ := Option.bind_eq_some_iff.mp h
    obtain ⟨y, -, rfl⟩ := Option.map_eq_some_iff.mp hx
    exact widthInRange_of_widthOperand 1 _ b hb
  · exact wellFormed_of_map_width (lo := 0) h fun _ hb => hb
  · cases h; rfl
  · cases h; rfl
  · cases h; rfl
  · exact wellFormed_of_map_width (lo := 0) h fun _ hb => hb
  · cases h; rfl
  · exact wellFormed_of_map_position h fun _ => rfl
  · cases h

theorem assemble_position_of_mem (p : Int) (h : 0 ≤ p ∧ p ≤ 65535) :
    ∃ b : BitVec 16, (b.toNat : Int) = p ∧ assemble .bcSeek [p] = some (.bcSeek b) ∧ assemble .bcReq [p] = some (.bcReq b) := by
  obtain ⟨b, hb, hp⟩ := positionOperand_of_mem p h
  exact ⟨b, hb, congrArg (Option.map Instr.bcSeek) hp, congrArg (Option.map Instr.bcReq) hp⟩

theorem assemble_position_of_not_mem (p : Int) (h : ¬ (0 ≤ p ∧ p ≤ 65535)) :
    assemble .bcSeek [p] = none ∧ assemble .bcReq [p] = none ∧ ∀ n, assemble .bcSubr [p, n] = none := by
  have hp := positionOperand_of_not_mem p h
  simp only [assemble, hp, Option.map_none, Option.bind_none, implies_true, and_self]

/-- `BC_SUBR` with both operands accepted. -/
theorem assemble_bcSubr_of_some {p n : Int} {a : BitVec 16} {b : BitVec 8} (hp : positionOperand p = some a)
    (hn : widthOperand 0 n = some b) : assemble .bcSubr [p, n] = some (.bcSubr a b) := by
  simp only [assemble, hp, hn, Option.bind_some, Option.map_some]

/-- `FD_RDSX` with both operands accepted. -/
theorem assemble_fdRdsx_of_some {n x : Int} {b : BitVec 8} {y : BitVec 16} (hn : widthOperand 1 n = some b)
    (hx : sentinelOperand x = some y) : assemble .fdRdsx [n, x] = some (.fdRdsx b y) := by
  simp only [assemble, hn, hx, Option.bind_some, Option.map_some]

theorem assemble_width_of_mem (n : Int) (h : 0 ≤ n ∧ n ≤ 64) :
    ∃ b : BitVec 8, (b.toNat : Int) = n ∧ assemble .bcRdu [n] = some (.bcRdu b) ∧ assemble .bcRdi [n] = some (.bcRdi b) ∧
      assemble .fdRdpc [n] = some (.fdRdpc b) ∧ (1 ≤ n → assemble .fdRds [n] = some (.fdRds b)) ∧
      (∀ p : Int, 0 ≤ p ∧ p ≤ 65535 → ∃ a : BitVec 16, (a.toNat : Int) = p ∧ assemble .bcSubr [p, n] = some (.bcSubr a b)) ∧
      ∀ x : Int, 1 ≤ n → -32768 ≤ x ∧ x ≤ 32767 →
        ∃ y : BitVec 16, y.toInt = x ∧ assemble .fdRdsx [n, x] = some (.fdRdsx b y) := by
  obtain ⟨b, hb, hw⟩ := widthOperand_of_mem n h
  have h0 := hw 0 h.1
  refine ⟨b, hb, congrArg (Option.map Instr.bcRdu) h0, congrArg (Option.map Instr.bcRdi) h0,
    congrArg (Option.map Instr.fdRdpc) h0, fun h1 => congrArg (Option.map Instr.fdRds) (hw 1 h1), fun p hp => ?_,
    fun x h1 hx => ?_⟩
  · obtain ⟨a, ha, hpos⟩ := positionOperand_of_mem p hp
    exact ⟨a, ha, assemble_bcSubr_of_some hpos h0⟩
  · obtain ⟨y, hy, hsent⟩ := sentinelOperand_of_mem x hx.1 hx.2
    exact ⟨y, hy, assemble_fdRdsx_of_some (hw 1 h1) hsent⟩

theorem assemble_width_of_not_mem (n : Int) (h : ¬ (0 ≤ n ∧ n ≤ 64)) :
    assemble .bcRdu [n] = none ∧ assemble .bcRdi [n] = none ∧ assemble .fdRdpc [n] = none ∧
      ∀ p, assemble .bcSubr [p, n] = none := by
  have hn := widthOperand_of_not_mem 0 n h
  simp only [assemble, hn, Option.map_none, Option.bind_fun_none, implies_true, and_self]

theorem assemble_signedWidth_of_not_mem (n : Int) (h : ¬ (1 ≤ n ∧ n ≤ 64)) :
    assemble .fdRds [n] = none ∧ ∀ x, assemble .fdRdsx [n, x] = none := by
  have hn := widthOperand_of_not_mem 1 n h
  simp only [assemble, hn, Option.map_none, Option.bind_none, implies_true, and_self]

theorem assemble_sentinel_of_not_mem (n x : Int) (h : ¬ (-32768 ≤ x ∧ x ≤ 32767)) : assemble .fdRdsx [n, x] = none := by
  simp only [assemble, sentinelOperand_of_not_mem x h, Option.map_none, Option.bind_fun_none]

/-- A wrong number of operands is refused, for the mnemonics of each number. -/
theorem assemble_operandCount (ops : List Int) :
    (∀ m ∈ [Mnemonic.nop, .bcReset, .bcRem, .bcPos, .bcMark, .bcRewind, .hasPage, .hasClear, .bcRdBit, .bcRewind0],
      ops.length ≠ 0 → assemble m ops = none) ∧
    (∀ m ∈ [Mnemonic.bcRdu, .bcRdi, .fdRds, .fdRdpc, .bcSeek, .bcReq, .bcRdMask, .bcSkipTo],
      ops.length ≠ 1 → assemble m ops = none) ∧
    ∀ m ∈ [Mnemonic.bcSubr, .fdRdsx], ops.length ≠ 2 → assemble m ops = none := by
  have hcount : ∀ (k : Nat) (ms : List Mnemonic), (∀ m ∈ ms, m.operandCount = k) →
      ∀ m ∈ ms, ops.length ≠ k → assemble m ops = none :=
    fun k ms hms m hm hk => assemble_none_of_length m ops (by rwa [hms m hm])
  exact ⟨hcount 0 _ (by decide), hcount 1 _ (by decide), hcount 2 _ (by decide)⟩

/-- Settles O57, clause by clause; the lines are read character by character. -/
theorem assembledCommandsAreLegal : Obligations.AssembledCommandsAreLegal :=
  ⟨assemble_wellFormed, assemble_position_of_mem, assemble_position_of_not_mem, assemble_width_of_mem,
    assemble_width_of_not_mem, assemble_signedWidth_of_not_mem, assemble_sentinel_of_not_mem,
    ⟨rfl, fun _ => rfl, rfl, fun _ => rfl⟩, ⟨rfl, rfl, rfl, rfl, rfl, rfl, rfl, rfl⟩, assemble_operandCount,
    by decide, by decide, by decide⟩

end Sys2Proof.Machine
end

section
/-!
PROOFS for 40_bitcursor.md: how each command that reads the stream or moves the cursor ends, which units it can write, and the
all-or-nothing and splitting laws (R143, R144).
-/

namespace Sys2Proof.Machine

/-! ### The stream reads that find enough bits (R131, R132, R135) -/

theorem exec_bcRdu_ok (n : BitVec 8) (s : State) (h : s.pos.toNat + n.toNat ≤ s.len.toNat) :
    exec (.bcRdu n) s = .next (endOk (.bcRdu n)
      { s with
        result := zext64 (streamBits s.buf s.pos.toNat n.toNat), pos := BitVec.ofNat 16 (s.pos.toNat + n.toNat) }) :=
  congrArg Host.Outcome.next (readField_ok (.bcRdu n) n.toNat _ s h)

theorem exec_bcRdi_ok (n : BitVec 8) (s : State) (h : s.pos.toNat + n.toNat ≤ s.len.toNat) :
    exec (.bcRdi n) s = .next (endOk (.bcRdi n)
      { s with
        result := sext64 n.toNat (streamBits s.buf s.pos.toNat n.toNat)
        pos := BitVec.ofNat 16 (s.pos.toNat + n.toNat) }) :=
  congrArg Host.Outcome.next (readField_ok (.bcRdi n) n.toNat _ s h)

theorem exec_bcSubr_ok (a : BitVec 16) (n : BitVec 8) (s : State) (h : a.toNat + n.toNat ≤ s.len.toNat) :
    exec (.bcSubr a n) s = .next (endOk (.bcSubr a n) { s with result := zext64 (streamBits s.buf a.toNat n.toNat) }) :=
  congrArg Host.Outcome.next (requireBits_ok (.bcSubr a n) (a.toNat + n.toNat ≤ s.len.toNat) _ s h)

/-! ### The stream reads that do not (R130, R135, R170) -/

/-- The stream position a read starts from: BC_SUBR names it, the other reads take POS (R131, R135, R170). -/
def readStart (i : Instr) (s : State) : Nat :=
  match i with
  | .bcSubr a _ => a.toNat
  | _ => s.pos.toNat

/-- Every stream read whose field ends beyond LEN raises INSUFFICIENT_DATA. -/
theorem exec_read_short (i : Instr) (n : Nat) (s : State) (hread : readWidth i = some n)
    (h : s.len.toNat < readStart i s + n) : exec i s = .next (endError i .insufficientData s) := by
  cases i with
  | bcSubr a k =>
    cases hread
    exact congrArg Host.Outcome.next (requireBits_short (.bcSubr a k) (a.toNat + k.toNat ≤ s.len.toNat) _ s (Nat.not_le_of_lt h))
  | bcRdu k => cases hread; exact congrArg Host.Outcome.next (readField_short (.bcRdu k) k.toNat _ s h)
  | bcRdi k => cases hread; exact congrArg Host.Outcome.next (readField_short (.bcRdi k) k.toNat _ s h)
  | fdRds k => cases hread; exact congrArg Host.Outcome.next (readField_short (.fdRds k) k.toNat _ s h)
  | fdRdsx k x => cases hread; exact congrArg Host.Outcome.next (readField_short (.fdRdsx k x) k.toNat _ s h)
  | fdRdpc k => cases hread; exact congrArg Host.Outcome.next (readField_short (.fdRdpc k) k.toNat _ s h)
  | nop | bcReset | bcRem | bcPos | bcSeek | bcMark | bcRewind | bcReq | hasPage | hasClear => cases hread

/-! ### The commands that only check or set the cursor (R136, R139) -/

theorem exec_bcSeek_ok (p : BitVec 16) (s : State) (h : p.toNat ≤ s.len.toNat) :
    exec (.bcSeek p) s = .next (endOk (.bcSeek p) { s with pos := p }) :=
  congrArg Host.Outcome.next (requireBits_ok (.bcSeek p) (p.toNat ≤ s.len.toNat) _ s h)

theorem exec_bcSeek_beyond (p : BitVec 16) (s : State) (h : s.len.toNat < p.toNat) :
    exec (.bcSeek p) s = .next (endError (.bcSeek p) .insufficientData s) :=
  congrArg Host.Outcome.next (requireBits_short (.bcSeek p) (p.toNat ≤ s.len.toNat) _ s h.not_ge)

theorem exec_bcReq_ok (m : BitVec 16) (s : State) (h : s.pos.toNat + m.toNat ≤ s.len.toNat) :
    exec (.bcReq m) s = .next (endOk (.bcReq m) s) :=
  congrArg Host.Outcome.next (requireBits_ok (.bcReq m) (s.pos.toNat + m.toNat ≤ s.len.toNat) _ s h)

theorem exec_bcReq_short (m : BitVec 16) (s : State) (h : s.len.toNat < s.pos.toNat + m.toNat) :
    exec (.bcReq m) s = .next (endError (.bcReq m) .insufficientData s) :=
  congrArg Host.Outcome.next (requireBits_short (.bcReq m) (s.pos.toNat + m.toNat ≤ s.len.toNat) _ s h.not_ge)

/-! ### The commands that always end with OK (R133, R134, R137, R138, R140, R141) -/

theorem exec_nop (s : State) : exec .nop s = .next (endOk .nop s) := congrArg Host.Outcome.next (finish_ok .nop s)

theorem exec_bcReset (s : State) : exec .bcReset s = .next (endOk .bcReset { s with pos := 0, len := 0, mark := 0 }) :=
  congrArg Host.Outcome.next (finish_ok .bcReset _)

theorem exec_bcRem (s : State) : exec .bcRem s = .next (endOk .bcRem { s with result := zext64 s.remaining }) :=
  congrArg Host.Outcome.next (finish_ok .bcRem _)

theorem exec_bcPos (s : State) : exec .bcPos s = .next (endOk .bcPos { s with result := zext64 s.pos.toNat }) :=
  congrArg Host.Outcome.next (finish_ok .bcPos _)

theorem exec_bcMark (s : State) : exec .bcMark s = .next (endOk .bcMark { s with mark := s.pos }) :=
  congrArg Host.Outcome.next (finish_ok .bcMark _)

theorem exec_bcRewind (s : State) : exec .bcRewind s = .next (endOk .bcRewind { s with pos := s.mark }) :=
  congrArg Host.Outcome.next (finish_ok .bcRewind _)

theorem exec_hasClear (s : State) : exec .hasClear s = .next (endOk .hasClear
    { s with store := [], storeEn := true, midValid := false, lastMid := 0, lastMs := 0 }) :=
  congrArg Host.Outcome.next (finish_ok .hasClear _)

/-- The upper half of a command's word is its OPC and `N`, the lower half its immediate (R100). -/
theorem encode_of_halves (i : Instr) (high : BitVec 16) (h : i.opcode ++ i.nOperand = high) :
    encode i = high ++ i.immOperand := congrArg (· ++ i.immOperand) h

/-- The registers POS and LEN fit RESULT. -/
theorem zext64_toNat_of_lt (v : Nat) (h : v < 2 ^ 16) : (zext64 v).toNat = v := by
  rw [zext64, BitVec.toNat_ofNat, Nat.mod_eq_of_lt (by omega)]

/-! ### Settled: the reads -/

/-- Settles O11: with LEN = 0 every field of a bit or more ends beyond it. -/
theorem bcResetEmptiesTheBuffer : Obligations.BcResetEmptiesTheBuffer := by
  refine ⟨rfl, fun s => ⟨_, exec_bcReset s, rfl, fun u i n hlen hread hn => ?_⟩⟩
  have hempty : u.len.toNat = 0 := congrArg BitVec.toNat hlen
  exact exec_read_short i n u hread (by omega)

/-- Settles O12. -/
theorem bcRduReadsAnUnsignedField : Obligations.BcRduReadsAnUnsignedField := fun n s _ =>
  ⟨rfl, fun h => ⟨_, exec_bcRdu_ok n s h, zext64_bit s.buf s.pos.toNat n.toNat⟩, exec_read_short (.bcRdu n) n.toNat s rfl⟩

/-- Settles O13. -/
theorem bcRdiReadsASignedField : Obligations.BcRdiReadsASignedField := fun n s _ =>
  ⟨rfl, fun h => ⟨_, exec_bcRdi_ok n s h, sext64_bit s.buf s.pos.toNat n.toNat⟩, exec_read_short (.bcRdi n) n.toNat s rfl⟩

/-- Settles O15. -/
theorem bcSubrPeeksAtASubRange : Obligations.BcSubrPeeksAtASubRange := fun a n s _ =>
  ⟨rfl, fun h => ⟨_, exec_bcSubr_ok a n s h, zext64_bit s.buf a.toNat n.toNat⟩,
    exec_read_short (.bcSubr a n) n.toNat s rfl⟩

/-! ### Settled: the other commands of the family -/

/-- Settles O10. -/
theorem nopWritesOnlyStatus : Obligations.NopWritesOnlyStatus := ⟨rfl, rfl, exec_nop⟩

/-- Settles O14: REM and POS fit RESULT, and the difference is exact while POS is within LEN. -/
theorem bcRemAndBcPosReportTheCursor : Obligations.BcRemAndBcPosReportTheCursor := by
  refine ⟨rfl, rfl, fun s h => ⟨_, exec_bcRem s, ?_⟩, fun s => ⟨_, exec_bcPos s, zext64_toNat_of_lt _ s.pos.isLt⟩⟩
  have hrem : s.remaining < 2 ^ 16 := lt_of_le_of_lt (Nat.sub_le _ _) s.len.isLt
  rw [zext64_toNat_of_lt _ hrem, State.remaining, Nat.sub_add_cancel h]

/-- Settles O16. -/
theorem bcSeekSetsTheCursor : Obligations.BcSeekSetsTheCursor := fun p s =>
  ⟨encode_of_halves (.bcSeek p) 0x0700#16 (show 0x07#8 ++ 0x00#8 = 0x0700#16 by decide), exec_bcSeek_ok p s,
    exec_bcSeek_beyond p s⟩

/-- Settles O17: what BC_REWIND returns to is MARK, which BC_MARK took from POS. -/
theorem bcMarkAndBcRewindKeepABoundary : Obligations.BcMarkAndBcRewindKeepABoundary := by
  refine ⟨rfl, rfl, exec_bcMark, exec_bcRewind, fun s t u v hmark hkept hrewind => ?_⟩
  cases (exec_bcMark s).symm.trans hmark
  cases (exec_bcRewind u).symm.trans hrewind
  exact hkept

/-- Settles O18: within R51 no more than BUF_BITS bits can be left. -/
theorem bcReqChecksTheLength : Obligations.BcReqChecksTheLength := by
  intro m s
  refine ⟨encode_of_halves (.bcReq m) 0x0A00#16 (show 0x0A#8 ++ 0x00#8 = 0x0A00#16 by decide), exec_bcReq_ok m s,
    exec_bcReq_short m s, fun hcur hzero => ?_, fun hcur hbig => ?_⟩
  · obtain ⟨-, hpos, -⟩ := hcur
    exact exec_bcReq_ok m s (by omega)
  · obtain ⟨-, -, hlen⟩ := hcur
    have hroom : s.len.toNat ≤ 16384 := hlen
    exact exec_bcReq_short m s (by omega)

/-! ### The splitting law (R144) -/

/-- A field is its first part shifted by its second, by induction on the second part's bits. -/
theorem streamBits_add (b : Memory) (a n m : Nat) :
    streamBits b a (n + m) = streamBits b a n * 2 ^ m + streamBits b (a + n) m := by
  induction m with
  | zero => simp [streamBits]
  | succ m ih =>
    rw [← Nat.add_assoc, streamBits, ih, streamBits, Nat.pow_succ, Nat.add_assoc a n m]
    ring

/-- A cursor that stays within LEN does not wrap. -/
theorem toNat_cursor_of_le (s : State) (k : Nat) (h : s.pos.toNat + k ≤ s.len.toNat) :
    (BitVec.ofNat 16 (s.pos.toNat + k)).toNat = s.pos.toNat + k := by
  rw [BitVec.toNat_ofNat, Nat.mod_eq_of_lt (lt_of_le_of_lt h s.len.isLt)]

/-- Settles O20: the second read starts where the first one ended. -/
theorem longFieldsSplit : Obligations.LongFieldsSplit := by
  refine ⟨streamBits_add, fun s t u v n m k hk hwide hfit ht hu hv => ?_⟩
  have hn : s.pos.toNat + n.toNat ≤ s.len.toNat := by omega
  have hpos := toNat_cursor_of_le s n.toNat hn
  cases (exec_bcRdu_ok n s hn).symm.trans ht
  cases (exec_bcRdu_ok k s hfit).symm.trans hv
  cases (exec_bcRdu_ok m _ (by simp only [endOk_pos, endOk_len, hpos]; omega)).symm.trans hu
  refine ⟨?_, ?_, rfl, rfl⟩
  · simp only [endOk_result, endOk_pos, endOk_buf, hpos]
    rw [zext64_toNat _ _ _ hwide, zext64_toNat _ _ _ (by omega), zext64_toNat _ _ _ (by omega), hk, streamBits_add]
  · simp only [endOk_pos, hpos, hk, Nat.add_assoc]

/-! ### How a command outside the HAS family ends (R130, R143, R170) -/

/-- The two ends of a command outside the HAS family: with OK, having written at most RESULT, FDX and the cursor (FDX only by FD_*,
LEN only by BC_RESET, MARK only by BC_MARK and BC_RESET); or with INSUFFICIENT_DATA, having written STATUS alone. -/
inductive StreamEnd (i : Instr) (s : State) : State → Prop
  | ok (result : BitVec 64) (unav : Bool) (popc : BitVec 7) (pos len mark : BitVec 16)
      (hfdx : familyOf i ≠ .fieldDecode → unav = s.unav ∧ popc = s.popc)
      (hlen : i ≠ .bcReset → len = s.len)
      (hmark : i ≠ .bcMark → i ≠ .bcReset → mark = s.mark) :
      StreamEnd i s (endOk i { s with result, unav, popc, pos, len, mark })
  | short : StreamEnd i s (endError i .insufficientData s)

/-- A command that ends with OK and writes only RESULT and POS. -/
theorem StreamEnd.ok_result_pos (i : Instr) (s : State) (result : BitVec 64) (pos : BitVec 16) :
    StreamEnd i s (endOk i { s with result, pos }) :=
  .ok _ _ _ _ _ _ (fun _ => ⟨rfl, rfl⟩) (fun _ => rfl) (fun _ _ => rfl)

/-- A stream read ends in one of the two ways when it makes of its field a RESULT and, in the FD_* family, an FDX. -/
theorem streamEnd_readField (i : Instr) (n : Nat) (use : Nat → State → State) (s : State)
    (huse : ∀ v, ∃ result unav popc, use v s = { s with result, unav, popc } ∧
      (familyOf i ≠ .fieldDecode → unav = s.unav ∧ popc = s.popc)) :
    StreamEnd i s (readField i.opcode n use s) := by
  rcases readField_cases i n use s with ⟨-, he⟩ | ⟨-, he⟩ <;> rw [he]
  · obtain ⟨r, u, c, hv, hfdx⟩ := huse (streamBits s.buf s.pos.toNat n)
    rw [hv]
    exact .ok r u c _ _ _ hfdx (fun _ => rfl) (fun _ _ => rfl)
  · exact .short

theorem streamEnd_requireBits (i : Instr) (need : Bool) (s : State) (result : BitVec 64) (pos : BitVec 16) :
    StreamEnd i s (requireBits i.opcode need { s with result, pos } s) := by
  rcases requireBits_cases i need { s with result, pos } s with ⟨-, he⟩ | ⟨-, he⟩ <;> rw [he]
  · exact .ok_result_pos i s result pos
  · exact .short

/-- Every command outside the HAS family ends in one of the two ways. -/
theorem exec_streamEnd (i : Instr) (s t : State) (hfam : familyOf i ≠ .has) (h : exec i s = .next t) : StreamEnd i s t := by
  cases i with
  | nop => cases (exec_nop s).symm.trans h; exact .ok_result_pos ..
  | bcReset =>
    cases (exec_bcReset s).symm.trans h
    exact .ok _ _ _ _ _ _ (fun _ => ⟨rfl, rfl⟩) (absurd rfl) (fun _ hreset => absurd rfl hreset)
  | bcRdu n => cases h; exact streamEnd_readField _ _ _ s fun _ => ⟨_, _, _, rfl, fun _ => ⟨rfl, rfl⟩⟩
  | bcRdi n => cases h; exact streamEnd_readField _ _ _ s fun _ => ⟨_, _, _, rfl, fun _ => ⟨rfl, rfl⟩⟩
  | bcRem => cases (exec_bcRem s).symm.trans h; exact .ok_result_pos ..
  | bcPos => cases (exec_bcPos s).symm.trans h; exact .ok_result_pos ..
  | bcSubr a n => cases h; exact streamEnd_requireBits ..
  | bcSeek p => cases h; exact streamEnd_requireBits ..
  | bcMark =>
    cases (exec_bcMark s).symm.trans h
    exact .ok _ _ _ _ _ _ (fun _ => ⟨rfl, rfl⟩) (fun _ => rfl) (fun hmark _ => absurd rfl hmark)
  | bcRewind => cases (exec_bcRewind s).symm.trans h; exact .ok_result_pos ..
  | bcReq m => cases h; exact streamEnd_requireBits ..
  | fdRds n => cases h; exact streamEnd_readField _ _ _ s fun _ => ⟨_, _, _, rfl, absurd rfl⟩
  | fdRdsx n x => cases h; exact streamEnd_readField _ _ _ s fun _ => ⟨_, _, _, rfl, absurd rfl⟩
  | fdRdpc n => cases h; exact streamEnd_readField _ _ _ s fun _ => ⟨_, _, _, rfl, absurd rfl⟩
  | hasPage => exact absurd rfl hfam
  | hasClear => exact absurd rfl hfam

/-! ### What a command leaves unchanged (R130, R170, R246) -/

/-- What no command writes: PAGE_IN, the sticky bits of the bus, and the host's accesses; at its end nothing is in flight. -/
def SharedFrame (s t : State) : Prop :=
  t.pageIn = s.pageIn ∧ t.haz = s.haz ∧ t.rej = s.rej ∧ t.inputs = s.inputs ∧ t.response = s.response ∧ t.draws = s.draws ∧
    t.inflight = none

theorem sharedFrame_of_streamEnd {i : Instr} {s t : State} (h : StreamEnd i s t) : SharedFrame s t := by
  cases h with
  | ok => exact ⟨rfl, rfl, rfl, rfl, rfl, rfl, rfl⟩
  | short => exact ⟨rfl, rfl, rfl, rfl, rfl, rfl, rfl⟩

/-- HAS_PAGE keeps the shared frame and FDX, for every polynomial and matrix. -/
theorem hasPageWith_frame (poly : BitVec 9) (gen : Fin 92 → Fin 32 → Byte) (s : State) :
    SharedFrame s (hasPageWith poly gen s) ∧ (hasPageWith poly gen s).unav = s.unav ∧ (hasPageWith poly gen s).popc = s.popc := by
  rcases hasPageWith_cases poly gen s with
    ⟨-, he⟩ | ⟨-, -, he⟩ | ⟨-, -, -, -, he⟩ | ⟨-, -, he⟩ | ⟨-, -, -, he⟩ | ⟨-, -, -, ⟨-, he⟩ | ⟨_, -, he⟩⟩
  all_goals rw [he]; exact ⟨⟨rfl, rfl, rfl, rfl, rfl, rfl, rfl⟩, rfl, rfl⟩

theorem storeAndBuf_of_streamEnd {i : Instr} {s t : State} (h : StreamEnd i s t) :
    t.buf = s.buf ∧ t.store = s.store ∧ t.storeEn = s.storeEn ∧ t.lastMid = s.lastMid ∧ t.midValid = s.midValid ∧
      t.lastMs = s.lastMs := by
  cases h with
  | ok => exact ⟨rfl, rfl, rfl, rfl, rfl, rfl⟩
  | short => exact ⟨rfl, rfl, rfl, rfl, rfl, rfl⟩

theorem fdx_of_streamEnd {i : Instr} {s t : State} (h : StreamEnd i s t) (hfam : familyOf i ≠ .fieldDecode) :
    t.unav = s.unav ∧ t.popc = s.popc := by
  cases h with
  | ok _ _ _ _ _ _ hfdx => exact hfdx hfam
  | short => exact ⟨rfl, rfl⟩

theorem markAndLen_of_streamEnd {i : Instr} {s t : State} (h : StreamEnd i s t) (hfam : familyOf i = .fieldDecode) :
    t.mark = s.mark ∧ t.len = s.len := by
  have hm : i ≠ .bcMark := by rintro rfl; cases hfam
  have hr : i ≠ .bcReset := by rintro rfl; cases hfam
  cases h with
  | ok _ _ _ _ _ _ _ hlen hmark => exact ⟨hmark hm hr, hlen hr⟩
  | short => exact ⟨rfl, rfl⟩

/-! ### Settled: the all-or-nothing law and the frame -/

/-- A command of the BC_* or FD_* family is not of the HAS family. -/
theorem ne_has_of_stream {i : Instr} (h : familyOf i = .bitCursor ∨ familyOf i = .fieldDecode) : familyOf i ≠ .has := by
  rcases h with h | h <;> rw [h] <;> decide

/-- Settles O19: INSUFFICIENT_DATA is the end that writes STATUS alone, and only BC_MARK and BC_RESET write MARK. -/
theorem shortReadsChangeNothing : Obligations.ShortReadsChangeNothing := by
  refine ⟨fun i s t hfam h hcode => ?_, fun s t h => ?_, fun i s t hfam hm hr h => ?_⟩
  · cases exec_streamEnd i s t (ne_has_of_stream hfam) h with
    | ok => cases hcode
    | short => exact ⟨rfl, _, exec_bcRewind _, rfl⟩
  · cases (exec_bcMark s).symm.trans h
    rfl
  · cases exec_streamEnd i s t (ne_has_of_stream hfam) h with
    | ok _ _ _ _ _ _ _ _ hmark => exact hmark hm hr
    | short => rfl

/-- Settles O26: HAS_PAGE and HAS_CLEAR each by what they write, every other command by how it ends. -/
theorem commandsLeaveOtherUnitsAlone : Obligations.CommandsLeaveOtherUnitsAlone := by
  intro i s t h
  by_cases hfam : familyOf i = .has
  · cases i with
    | hasPage =>
      cases h
      obtain ⟨hshared, hfdx⟩ := hasPageWith_frame Config.gfPoly Config.genMatrix s
      exact ⟨hshared, absurd rfl, fun _ => hfdx, nofun, nofun⟩
    | hasClear =>
      cases (exec_hasClear s).symm.trans h
      exact ⟨⟨rfl, rfl, rfl, rfl, rfl, rfl, rfl⟩, absurd rfl, fun _ => ⟨rfl, rfl⟩, nofun, fun _ => ⟨rfl, rfl, rfl, rfl, rfl⟩⟩
    | _ => cases hfam
  · have hend := exec_streamEnd i s t hfam h
    exact ⟨sharedFrame_of_streamEnd hend, fun _ => storeAndBuf_of_streamEnd hend, fdx_of_streamEnd hend,
      markAndLen_of_streamEnd hend, fun hclear => absurd (hclear ▸ rfl) hfam⟩

end Sys2Proof.Machine
end

section
/-!
PROOFS for 41_field_decode.md: what FD_RDS, FD_RDSX and FD_RDPC write when the field is there (R171 to R173), and how the host decodes
the field from it (R174, R175).
-/

namespace Sys2Proof.Machine

/-! ### The two tests of FDX.UNAV, as statements about RESULT (R171, R172) -/

/-- The min code is the one raw code whose signed value is `-2^(n-1)` (R10). -/
theorem signedField_eq_min_iff (n v : Nat) (hn : 0 < n) (hv : v < 2 ^ n) :
    signedField n v = -(2 ^ (n - 1)) ↔ v = 2 ^ (n - 1) := by
  have hdouble : 2 ^ n = 2 * 2 ^ (n - 1) := (Nat.two_pow_pred_mul_two hn).symm.trans (Nat.mul_comm _ _)
  have hpow : ((2 ^ (n - 1) : Nat) : Int) = 2 ^ (n - 1) := Nat.cast_pow 2 (n - 1)
  have hpow' : ((2 ^ n : Nat) : Int) = 2 ^ n := Nat.cast_pow 2 n
  rw [signedField, if_neg hn.ne', ← hpow, ← hpow']
  split <;> omega

theorem isMinCode_iff (m : Memory) (a n : Nat) (hn : 0 < n) (hwide : n ≤ 64) :
    isMinCode n (streamBits m a n) = true ↔ (sext64 n (streamBits m a n)).toInt = -(2 ^ (n - 1)) := by
  rw [isMinCode, decide_eq_true_iff, sext64_toInt m a n hwide, signedField_eq_min_iff n _ hn (streamBits_lt m a n)]

/-- Patterns of 64 bits are equal exactly when their signed values are, and the sentinel keeps its value when it is extended (R102). -/
theorem isSentinel_iff (n v : Nat) (x : BitVec 16) : isSentinel n v x = true ↔ (sext64 n v).toInt = x.toInt := by
  rw [isSentinel, decide_eq_true_iff, immSigned, ← BitVec.toInt_inj, BitVec.toInt_signExtend_of_le (by decide)]

/-- A sentinel outside the range of the field never matches (R172). -/
theorem isSentinel_eq_false_of_outside (m : Memory) (a n : Nat) (x : BitVec 16) (hn : 0 < n) (hwide : n ≤ 64)
    (hout : x.toInt < -(2 ^ (n - 1)) ∨ 2 ^ (n - 1) ≤ x.toInt) : isSentinel n (streamBits m a n) x = false := by
  rw [← Bool.not_eq_true, isSentinel_iff, sext64_toInt m a n hwide]
  obtain ⟨hlo, hhi⟩ := signedField_bounds m a n hn
  intro hmatch
  omega

/-- With the min code as its sentinel FD_RDSX tests what FD_RDS tests (R172). -/
theorem isSentinel_eq_isMinCode (m : Memory) (a n : Nat) (x : BitVec 16) (hn : 0 < n) (hwide : n ≤ 64)
    (hmin : x.toInt = -(2 ^ (n - 1))) : isSentinel n (streamBits m a n) x = isMinCode n (streamBits m a n) := by
  rw [Bool.eq_iff_iff, isSentinel_iff, isMinCode_iff m a n hn hwide, hmin]

/-! ### The count of FDX.POPC, over the stream bits (R173) -/

/-- The 1 bits of a code with one more bit behind it. -/
theorem popcount_append_bit (v n : Nat) (b : Bool) : popcount (2 * v + b.toNat) (n + 1) = popcount v n + b.toNat := by
  rw [← Nat.bit_val]
  induction n with
  | zero => simp only [popcount, Nat.testBit_bit_zero]
  | succ n ih =>
    rw [popcount, ih, Nat.testBit_bit_succ, popcount]
    omega

/-- The 1 bits of a field are the stream bits of it that are set, by induction on the field's bits: each further stream bit comes last
in the list and least in the value. -/
theorem popcount_streamBits (m : Memory) (a n : Nat) :
    popcount (streamBits m a n) n = ((List.range n).filter fun k => bufBit m (a + k)).length := by
  induction n with
  | zero => rfl
  | succ n ih =>
    rw [streamBits, popcount_append_bit, ih, List.range_succ, List.filter_append, List.length_append]
    cases hbit : bufBit m (a + n) <;> simp [hbit]

/-- POPC holds every count of a field of at most 64 bits (R41). -/
theorem popc_toNat (v n : Nat) (h : n ≤ 64) : (BitVec.ofNat 7 (popcount v n)).toNat = popcount v n := by
  have hle := popcount_le v n
  rw [BitVec.toNat_ofNat, Nat.mod_eq_of_lt (by omega)]

/-! ### The reads that find enough bits (R171, R172, R173) -/

theorem exec_fdRds_ok (n : BitVec 8) (s : State) (h : s.pos.toNat + n.toNat ≤ s.len.toNat) :
    exec (.fdRds n) s = .next (endOk (.fdRds n)
      { s with
        result := sext64 n.toNat (streamBits s.buf s.pos.toNat n.toNat)
        unav := isMinCode n.toNat (streamBits s.buf s.pos.toNat n.toNat)
        popc := 0
        pos := BitVec.ofNat 16 (s.pos.toNat + n.toNat) }) :=
  congrArg Host.Outcome.next (readField_ok (.fdRds n) n.toNat _ s h)

theorem exec_fdRdsx_ok (n : BitVec 8) (x : BitVec 16) (s : State) (h : s.pos.toNat + n.toNat ≤ s.len.toNat) :
    exec (.fdRdsx n x) s = .next (endOk (.fdRdsx n x)
      { s with
        result := sext64 n.toNat (streamBits s.buf s.pos.toNat n.toNat)
        unav := isSentinel n.toNat (streamBits s.buf s.pos.toNat n.toNat) x
        popc := 0
        pos := BitVec.ofNat 16 (s.pos.toNat + n.toNat) }) :=
  congrArg Host.Outcome.next (readField_ok (.fdRdsx n x) n.toNat _ s h)

theorem exec_fdRdpc_ok (n : BitVec 8) (s : State) (h : s.pos.toNat + n.toNat ≤ s.len.toNat) :
    exec (.fdRdpc n) s = .next (endOk (.fdRdpc n)
      { s with
        result := zext64 (streamBits s.buf s.pos.toNat n.toNat)
        unav := false
        popc := BitVec.ofNat 7 (popcount (streamBits s.buf s.pos.toNat n.toNat) n.toNat)
        pos := BitVec.ofNat 16 (s.pos.toNat + n.toNat) }) :=
  congrArg Host.Outcome.next (readField_ok (.fdRdpc n) n.toNat _ s h)

/-! ### Settled: the three reads -/

/-- Settles O21. -/
theorem fdRdsFlagsTheMinCode : Obligations.FdRdsFlagsTheMinCode := fun n s hn hwide =>
  ⟨rfl, rfl,
    fun h => ⟨_, _, exec_fdRds_ok n s h, sext64_bit s.buf s.pos.toNat n.toNat, isMinCode_iff s.buf s.pos.toNat n.toNat hn hwide⟩,
    exec_read_short (.fdRds n) n.toNat s rfl⟩

/-- Settles O22: the match is one of signed values, those of the field lie in its range, and the min code's is `-2^(n-1)`. -/
theorem fdRdsxFlagsTheGivenSentinel : Obligations.FdRdsxFlagsTheGivenSentinel := by
  refine fun n x s hn hwide => ⟨rfl, fun h => ⟨_, _, exec_fdRdsx_ok n x s h, sext64_bit s.buf s.pos.toNat n.toNat,
    isSentinel_iff n.toNat _ x, isSentinel_eq_false_of_outside s.buf s.pos.toNat n.toNat x hn hwide, fun hmin => ?_⟩,
    exec_read_short (.fdRdsx n x) n.toNat s rfl⟩
  rw [isSentinel_eq_isMinCode s.buf s.pos.toNat n.toNat x hn hwide hmin]
  exact exec_fdRds_ok n s h

/-- Settles O23. -/
theorem fdRdpcCountsTheSetBits : Obligations.FdRdpcCountsTheSetBits := fun n s hwide =>
  ⟨rfl,
    fun h => ⟨_, _, exec_fdRdpc_ok n s h, zext64_bit s.buf s.pos.toNat n.toNat,
      (popc_toNat _ n.toNat hwide).trans (popcount_streamBits s.buf s.pos.toNat n.toNat)⟩,
    exec_read_short (.fdRdpc n) n.toNat s rfl⟩

/-! ### Reads that completed with OK -/

/-- A stream read that completed with OK found its bits. -/
theorem fits_of_read_ok {i : Instr} {n : Nat} {s t : State} (hread : readWidth i = some n) (h : exec i s = .next t)
    (hcode : t.code = .ok) : readStart i s + n ≤ s.len.toNat := by
  by_contra hshort
  cases (exec_read_short i n s hread (Nat.lt_of_not_le hshort)).symm.trans h
  cases hcode

theorem unav_iff_of_fdRds {n : BitVec 8} {s t : State} (hn : 1 ≤ n.toNat) (hwide : n.toNat ≤ 64)
    (h : exec (.fdRds n) s = .next t) (hcode : t.code = .ok) : t.unav = true ↔ t.result.toInt = -(2 ^ (n.toNat - 1)) := by
  cases (exec_fdRds_ok n s (fits_of_read_ok rfl h hcode)).symm.trans h
  exact isMinCode_iff s.buf s.pos.toNat n.toNat hn hwide

theorem unav_iff_of_fdRdsx {n : BitVec 8} {x : BitVec 16} {s t : State} (h : exec (.fdRdsx n x) s = .next t)
    (hcode : t.code = .ok) : t.unav = true ↔ t.result.toInt = x.toInt := by
  cases (exec_fdRdsx_ok n x s (fits_of_read_ok rfl h hcode)).symm.trans h
  exact isSentinel_iff n.toNat _ x

theorem result_of_bcRdu {n : BitVec 8} {s t : State} (hwide : n.toNat ≤ 64) (h : exec (.bcRdu n) s = .next t)
    (hcode : t.code = .ok) : t.result.toNat = streamBits s.buf s.pos.toNat n.toNat := by
  cases (exec_bcRdu_ok n s (fits_of_read_ok rfl h hcode)).symm.trans h
  exact zext64_toNat s.buf s.pos.toNat n.toNat hwide

/-! ### The decoded value (R174, R175) -/

theorem decodedRaw_of_unav {t : State} (h : t.unav = true) : decodedRaw t = none := if_pos h

theorem decodedRaw_of_available {t : State} (h : ¬ t.unav = true) : decodedRaw t = some t.result.toInt := if_neg h

/-- Where FDX.UNAV tells whether RESULT is the sentinel `x`, so does the decoded value. -/
theorem decodedRaw_cases {t : State} {x : Int} (h : t.unav = true ↔ t.result.toInt = x) :
    (t.result.toInt = x → decodedRaw t = none) ∧ (t.result.toInt ≠ x → decodedRaw t = some t.result.toInt) :=
  ⟨fun heq => decodedRaw_of_unav (h.mpr heq), fun hne => decodedRaw_of_available (mt h.mp hne)⟩

/-- A width of at most 64 fits the operand `N` of its command (R101). -/
theorem toNat_commandWidth {w : Nat} (h : w ≤ 64) : (BitVec.ofNat 8 w).toNat = w := by
  rw [BitVec.toNat_ofNat, Nat.mod_eq_of_lt (by omega)]

/-- The fields of the layouts that may be unavailable: those read by FD_RDS, or by FD_RDSX with a sentinel its operand holds. -/
def Field.HasSentinel (f : Field) : Prop := f.reader = .rds ∨ ∃ x : Int, -32768 ≤ x ∧ x ≤ 32767 ∧ f.reader = .rdsx x

theorem fieldRaw_of_hasSentinel {f : Field} (hf : f.HasSentinel) (t : State) : fieldRaw f t = decodedRaw t := by
  rcases hf with hrds | ⟨x, -, -, hrdsx⟩
  · exact fieldRaw_rds f t hrds
  · exact fieldRaw_rdsx f t x hrdsx

/-- The command of such a field sets FDX.UNAV exactly when RESULT is the field's sentinel. -/
theorem unav_iff_sentinel {f : Field} {s t : State} (hf : f.HasSentinel) (hw : 1 ≤ f.width) (hwide : f.width ≤ 64)
    (h : exec f.command s = .next t) (hcode : t.code = .ok) : t.unav = true ↔ f.sentinel = some t.result.toInt := by
  have hwidth := toNat_commandWidth hwide
  rcases hf with hrds | ⟨x, hlo, hhi, hrdsx⟩
  · simp only [Field.command, hrds] at h
    have hunav := unav_iff_of_fdRds (by omega) (by omega) h hcode
    rw [hunav, hwidth, Field.sentinel, hrds, Option.some_inj, eq_comm]
  · simp only [Field.command, hrdsx] at h
    have hx : (BitVec.ofInt 16 x).toInt = x := BitVec.toInt_ofInt_eq_self (by decide) hlo (by omega)
    rw [unav_iff_of_fdRdsx h hcode, hx, Field.sentinel, hrdsx, Option.some_inj, eq_comm]

/-- The value of a field with a scale, from its raw value. -/
theorem decodedScaled_of_scale {f : Field} {k : Nat} (hk : f.scale = some k) (t : State) :
    decodedScaled f t = (fieldRaw f t).map (· * (k : Int)) := by simp only [decodedScaled, hk]

/-- The value of a field that always has one: a field without a scale counts as scaled by one. -/
theorem decodedScaled_of_fieldRaw {f : Field} {raw : Int} {t : State} (h : fieldRaw f t = some raw) :
    decodedScaled f t = some (raw * ((f.scale.getD 1 : Nat) : Int)) := by
  rw [decodedScaled, h]
  cases f.scale with
  | none => exact congrArg some (mul_one raw).symm
  | some k => rfl

theorem decodedScaled_cases {f : Field} {k : Nat} {s t : State} (hk : f.scale = some k) (hf : f.HasSentinel) (hw : 1 ≤ f.width)
    (hwide : f.width ≤ 64) (h : exec f.command s = .next t) (hcode : t.code = .ok) :
    (f.sentinel = some t.result.toInt → decodedScaled f t = none) ∧
      (f.sentinel ≠ some t.result.toInt → decodedScaled f t = some (t.result.toInt * (k : Int))) := by
  have hunav := unav_iff_sentinel hf hw hwide h hcode
  rw [decodedScaled_of_scale hk, fieldRaw_of_hasSentinel hf]
  exact ⟨fun heq => by rw [decodedRaw_of_unav (hunav.mpr heq)]; rfl,
    fun hne => by rw [decodedRaw_of_available (mt hunav.mp hne)]; rfl⟩

/-- A field read by BC_RDU has no sentinel and decodes to its unsigned bits (R175). -/
theorem decodedScaled_of_rdu {f : Field} {s t : State} (hf : f.reader = .rdu) (hwide : f.width ≤ 64)
    (h : exec f.command s = .next t) (hcode : t.code = .ok) :
    f.sentinel = none ∧
      decodedScaled f t = some ((streamBits s.buf s.pos.toNat f.width : Int) * ((f.scale.getD 1 : Nat) : Int)) := by
  have hwidth := toNat_commandWidth hwide
  simp only [Field.command, hf] at h
  have hresult := result_of_bcRdu (by omega) h hcode
  rw [hwidth] at hresult
  refine ⟨by rw [Field.sentinel, hf], ?_⟩
  rw [decodedScaled_of_fieldRaw (fieldRaw_rdu f t hf), hresult]

/-- Settles O58: FDX.UNAV answers for the fields with a sentinel, and is not asked for the unsigned ones. -/
theorem sentinelsDecodeAsUnavailable : Obligations.SentinelsDecodeAsUnavailable :=
  ⟨fun _ _ _ hn hwide h hcode => decodedRaw_cases (unav_iff_of_fdRds hn hwide h hcode),
    fun _ _ _ _ _ _ h hcode => decodedRaw_cases (unav_iff_of_fdRdsx h hcode),
    fun _ _ _ _ hk hw hwide hf h hcode => decodedScaled_cases hk hf hw hwide h hcode,
    fun _ _ _ hf hwide h hcode => decodedScaled_of_rdu hf hwide h hcode⟩

end Sys2Proof.Machine
end

section
/-!
PROOFS for 42_subtype_layouts.md: the length check the host makes before it reads a list of fields (R207).
-/

namespace Sys2Proof.Machine

/-- The operand of the length check asks for what is left exactly when the fields do, also where their bits exceed the 16-bit operand
(log 26): more than BUF_BITS bits are never left (R51). -/
theorem lengthOperand_fits_iff {s : State} (hcur : CursorInv s) (n : Nat) :
    s.pos.toNat + (lengthOperand n).toNat ≤ s.len.toNat ↔ s.pos.toNat + n ≤ s.len.toNat := by
  obtain ⟨-, -, hlen⟩ := hcur
  have hroom : s.len.toNat ≤ 16384 := hlen
  rw [lengthOperand_toNat]
  rcases Nat.le_total n 65535 with hholds | hexceeds
  · rw [Nat.min_eq_left hholds]
  · rw [Nat.min_eq_right hexceeds]
    omega

/-- Settles O59: BC_REQ is exact in its operand (R139), and the operand stands for the bits of the fields. -/
theorem lengthChecksAreExact : Obligations.LengthChecksAreExact := by
  intro fields s hcur
  have hfits := lengthOperand_fits_iff hcur (fieldBits fields)
  exact ⟨fun hleft => exec_bcReq_ok _ s (hfits.mpr hleft),
    fun hshort => exec_bcReq_short _ s (not_le.mp (mt hfits.mp hshort.not_ge))⟩

end Sys2Proof.Machine
end

section
/-!
PROOFS for 43_has_rs.md R230 to R232: sum and product of GF(256). The product is a sum of doublings of one factor, which makes it a
commutative and bilinear operation for every polynomial, and the polynomial product reduced where bit 8 of the polynomial is set.
-/

namespace Sys2Proof.Machine

/-! ### Sums of bytes (R231) -/

theorem gfAdd_zero (a : Byte) : gfAdd a 0 = a := BitVec.xor_zero

theorem zero_gfAdd (a : Byte) : gfAdd 0 a = a := BitVec.zero_xor

theorem gfAdd_self (a : Byte) : gfAdd a a = 0 := BitVec.xor_self

theorem gfAdd_comm (a b : Byte) : gfAdd a b = gfAdd b a := BitVec.xor_comm a b

theorem gfAdd_assoc (a b c : Byte) : gfAdd (gfAdd a b) c = gfAdd a (gfAdd b c) := BitVec.xor_assoc a b c

theorem gfAdd_add_add_comm (a b c d : Byte) : gfAdd (gfAdd a b) (gfAdd c d) = gfAdd (gfAdd a c) (gfAdd b d) := by
  unfold gfAdd
  ac_rfl

/-- A map of bytes that keeps sums. -/
def GfAdditive (F : Byte → Byte) : Prop := ∀ a b, F (gfAdd a b) = gfAdd (F a) (F b)

theorem GfAdditive.map_zero {F : Byte → Byte} (hF : GfAdditive F) : F 0 = 0 := by
  have h := hF 0 0
  rwa [gfAdd_self, gfAdd_self] at h

theorem GfAdditive.iterate {F : Byte → Byte} (hF : GfAdditive F) (i : Nat) : GfAdditive F^[i] := by
  induction i with
  | zero => exact fun _ _ => rfl
  | succ i ih => intro a b; simp only [Function.iterate_succ_apply', ih a b, hF _ _]

theorem gfSum_congr {f g : Nat → Byte} {n : Nat} (h : ∀ j < n, f j = g j) : gfSum f n = gfSum g n := by
  induction n with
  | zero => rfl
  | succ n ih => rw [gfSum, gfSum, ih fun j hj => h j (by omega), h n (by omega)]

theorem gfSum_add (f g : Nat → Byte) (n : Nat) :
    gfSum (fun j => gfAdd (f j) (g j)) n = gfAdd (gfSum f n) (gfSum g n) := by
  induction n with
  | zero => exact (gfAdd_self 0).symm
  | succ n ih => simp only [gfSum, ih, gfAdd_add_add_comm]

theorem GfAdditive.map_gfSum {F : Byte → Byte} (hF : GfAdditive F) (f : Nat → Byte) (n : Nat) :
    F (gfSum f n) = gfSum (fun j => F (f j)) n := by
  induction n with
  | zero => exact hF.map_zero
  | succ n ih => simp only [gfSum, hF _ _, ih]

theorem gfSum_zero (n : Nat) : gfSum (fun _ => 0) n = 0 := by
  induction n with
  | zero => rfl
  | succ n ih => rw [gfSum, ih, gfAdd_zero]

/-- A sum of which one term is not 0. -/
theorem gfSum_single (f : Nat → Byte) (i n : Nat) (h : i < n) : gfSum (fun j => if i = j then f j else 0) n = f i := by
  induction n with
  | zero => omega
  | succ n ih =>
    rw [gfSum]
    by_cases hi : i = n
    · subst hi
      have hzero : gfSum (fun j => if i = j then f j else 0) i = gfSum (fun _ => 0) i :=
        gfSum_congr fun j hj => if_neg (by omega)
      rw [hzero, if_pos rfl, gfSum_zero, zero_gfAdd]
    · rw [ih (by omega), if_neg hi, gfAdd_zero]

/-- A sum from its first term on. -/
theorem gfSum_succ_left (f : Nat → Byte) (n : Nat) : gfSum f (n + 1) = gfAdd (f 0) (gfSum (fun j => f (j + 1)) n) := by
  induction n with
  | zero => exact gfAdd_comm _ _
  | succ n ih => rw [gfSum, ih, gfAdd_assoc]; rfl

/-- A term selected by the sum of two bits is the sum of the terms selected by each. -/
theorem ite_xor_eq_xor {w : Nat} (x y : Bool) (d : BitVec w) :
    (if x ^^ y then d else 0) = (if x then d else 0) ^^^ (if y then d else 0) := by
  cases x <;> cases y <;> simp

theorem ite_xor_eq_gfAdd (x y : Bool) (d : Byte) :
    (if x ^^ y then d else 0) = gfAdd (if x then d else 0) (if y then d else 0) := ite_xor_eq_xor x y d

/-! ### Doubling -/

/-- The doubling step as a shift, less the low bits of the polynomial when bit 7 was up (R232). -/
theorem gfDouble_eq (poly : BitVec 9) (a : Byte) :
    gfDouble poly a = (a <<< 1) ^^^ (if a.getLsbD 7 then poly.truncate 8 else 0) := by
  have hbit : (a.zeroExtend 9 <<< 1).getLsbD 8 = a.getLsbD 7 := by simp
  unfold gfDouble
  simp only [hbit]
  split <;> ext i hi <;> simp

theorem gfDouble_additive (poly : BitVec 9) : GfAdditive (gfDouble poly) := by
  intro a b
  rw [gfDouble_eq, gfDouble_eq, gfDouble_eq, gfAdd, BitVec.getLsbD_xor, ite_xor_eq_gfAdd, BitVec.shiftLeft_xor_distrib]
  exact gfAdd_add_add_comm _ _ _ _

/-- Below bit 7 doubling only shifts: the power `x^i` is bit `i`, for every polynomial. -/
theorem gfDouble_iterate_one (poly : BitVec 9) (i : Nat) (h : i < 8) : (gfDouble poly)^[i] 1 = BitVec.twoPow 8 i := by
  induction i with
  | zero => rfl
  | succ i ih =>
    have htop : (BitVec.twoPow 8 i).getLsbD 7 = false := by
      rw [BitVec.getLsbD_twoPow, Bool.and_eq_false_iff, decide_eq_false_iff_not, decide_eq_false_iff_not]
      omega
    rw [Function.iterate_succ_apply', ih (by omega), gfDouble_eq, htop]
    simp [BitVec.twoPow, BitVec.shiftLeft_add]

/-- A byte is the sum of its bits. -/
theorem gfSum_bits (a : Byte) : gfSum (fun i => if a.getLsbD i then BitVec.twoPow 8 i else 0) 8 = a := by
  revert a
  decide

/-- Additive maps that agree on the powers `x^0` to `x^7` are equal. -/
theorem GfAdditive.ext {F G : Byte → Byte} (hF : GfAdditive F) (hG : GfAdditive G)
    (h : ∀ i < 8, F (BitVec.twoPow 8 i) = G (BitVec.twoPow 8 i)) (a : Byte) : F a = G a := by
  rw [← gfSum_bits a, hF.map_gfSum, hG.map_gfSum]
  refine gfSum_congr fun i hi => ?_
  split
  · exact h i hi
  · rw [hF.map_zero, hG.map_zero]

/-! ### The product -/

/-- The loop of R232 adds the doublings of `a` that the bits of `b` select. -/
theorem gfMulLoop_eq (poly : BitVec 9) (b : Byte) (k i : Nat) (a r : Byte) :
    gfMulLoop poly b k i a r =
      gfAdd r (gfSum (fun j => if b.getLsbD (i + j) then (gfDouble poly)^[j] a else 0) k) := by
  induction k generalizing i a r with
  | zero => exact (gfAdd_zero r).symm
  | succ k ih =>
    rw [gfMulLoop, ih, gfSum_succ_left]
    simp only [Nat.add_zero, Function.iterate_zero, id, Function.iterate_succ_apply, Nat.add_assoc, Nat.add_comm 1]
    split
    · rw [gfAdd_assoc]
    · rw [zero_gfAdd]

theorem gfMul_eq_gfSum (poly : BitVec 9) (a b : Byte) :
    gfMul poly a b = gfSum (fun j => if b.getLsbD j then (gfDouble poly)^[j] a else 0) 8 := by
  rw [gfMul, gfMulLoop_eq, zero_gfAdd]
  simp only [Nat.zero_add]

section
variable (poly : BitVec 9)

theorem gfMul_additive_right (a : Byte) : GfAdditive (gfMul poly a) := by
  intro b c
  simp only [gfMul_eq_gfSum, ← gfSum_add]
  refine gfSum_congr fun j _ => ?_
  rw [gfAdd, BitVec.getLsbD_xor, ite_xor_eq_gfAdd]

theorem gfMul_additive_left (b : Byte) : GfAdditive (gfMul poly · b) := by
  intro a c
  simp only [gfMul_eq_gfSum, ← gfSum_add]
  refine gfSum_congr fun j _ => ?_
  split
  · exact (gfDouble_additive poly).iterate j a c
  · exact (gfAdd_zero 0).symm

theorem gfDouble_iterate_gfMul (i : Nat) (a b : Byte) :
    gfMul poly ((gfDouble poly)^[i] a) b = (gfDouble poly)^[i] (gfMul poly a b) := by
  have hD := (gfDouble_additive poly).iterate i
  simp only [gfMul_eq_gfSum, hD.map_gfSum]
  refine gfSum_congr fun j _ => ?_
  split
  · exact Function.Commute.iterate_iterate_self _ j i a
  · exact hD.map_zero.symm

theorem gfMul_twoPow (a : Byte) (i : Nat) (h : i < 8) : gfMul poly a (BitVec.twoPow 8 i) = (gfDouble poly)^[i] a := by
  rw [gfMul_eq_gfSum]
  simp only [BitVec.getLsbD_twoPow, h, decide_true, Bool.true_and, decide_eq_true_eq]
  exact gfSum_single _ i 8 h

theorem gfMul_one (a : Byte) : gfMul poly a 1 = a := gfMul_twoPow poly a 0 (by decide)

theorem gfMul_zero (a : Byte) : gfMul poly a 0 = 0 := (gfMul_additive_right poly a).map_zero

theorem one_gfMul (b : Byte) : gfMul poly 1 b = b := by
  rw [gfMul_eq_gfSum]
  conv_rhs => rw [← gfSum_bits b]
  exact gfSum_congr fun j hj => by rw [gfDouble_iterate_one poly j hj]

theorem zero_gfMul (b : Byte) : gfMul poly 0 b = 0 := (gfMul_additive_left poly b).map_zero

theorem gfMul_add (a b c : Byte) : gfMul poly a (gfAdd b c) = gfAdd (gfMul poly a b) (gfMul poly a c) :=
  gfMul_additive_right poly a b c

/-- Both sides are additive in `a`, and for the power `x^i` both are `b` doubled `i` times. -/
theorem gfMul_comm (a b : Byte) : gfMul poly a b = gfMul poly b a := by
  refine GfAdditive.ext (gfMul_additive_left poly b) (gfMul_additive_right poly b) (fun i hi => ?_) a
  rw [gfMul_twoPow poly b i hi, ← gfDouble_iterate_one poly i hi, gfDouble_iterate_gfMul, one_gfMul]

/-- Both sides are additive in `a`, and for the power `x^i` both are `b ⊗ c` doubled `i` times. -/
theorem gfMul_assoc (a b c : Byte) : gfMul poly (gfMul poly a b) c = gfMul poly a (gfMul poly b c) := by
  have hleft : GfAdditive fun a => gfMul poly (gfMul poly a b) c := fun a d =>
    (congrArg (gfMul poly · c) (gfMul_additive_left poly b a d)).trans (gfMul_additive_left poly c _ _)
  refine GfAdditive.ext hleft (gfMul_additive_left poly _) (fun i hi => ?_) a
  rw [← gfDouble_iterate_one poly i hi, gfDouble_iterate_gfMul, one_gfMul, gfDouble_iterate_gfMul, gfDouble_iterate_gfMul,
    one_gfMul]

end

/-! ### Reduction modulo the polynomial (R232) -/

section
variable (p : BitVec 16)

theorem polyProduct_zero (n : Nat) : polyProduct p 0#16 n = 0#16 := by
  induction n with
  | zero => rfl
  | succ n ih => simp [polyProduct, ih]

theorem polyProduct_one (n : Nat) : polyProduct p 1#16 (n + 1) = p := by
  induction n with
  | zero => simp [polyProduct]
  | succ n ih => rw [polyProduct, ih]; simp

theorem polyProduct_xor (q q' : BitVec 16) (n : Nat) :
    polyProduct p (q ^^^ q') n = polyProduct p q n ^^^ polyProduct p q' n := by
  induction n with
  | zero => simp [polyProduct]
  | succ n ih =>
    rw [polyProduct, polyProduct, polyProduct, ih, BitVec.getLsbD_xor]
    rw [ite_xor_eq_xor]
    ac_rfl

theorem polyProduct_shiftLeft_one (q : BitVec 16) (n : Nat) (h : n < 15) :
    polyProduct p (q <<< 1) (n + 1) = polyProduct p q n <<< 1 := by
  induction n with
  | zero => simp [polyProduct]
  | succ n ih =>
    have hbit : (q <<< 1).getLsbD (n + 1) = q.getLsbD n := by simp; omega
    rw [polyProduct, ih (by omega), hbit, polyProduct, BitVec.shiftLeft_xor_distrib]
    split
    · rw [BitVec.shiftLeft_add]
    · simp

end

/-- `x` is `r` plus a multiple of the polynomial, the factor having at most `n` bits. -/
def ReducesTo (poly : BitVec 9) (n : Nat) (x : BitVec 16) (r : Byte) : Prop :=
  ∃ q : BitVec 16, (∀ i, n ≤ i → q.getLsbD i = false) ∧
    x = polyProduct (poly.zeroExtend 16) q 8 ^^^ r.zeroExtend 16

theorem ReducesTo.refl (poly : BitVec 9) (n : Nat) (r : Byte) : ReducesTo poly n (r.zeroExtend 16) r :=
  ⟨0#16, fun _ _ => BitVec.getLsbD_zero, by rw [polyProduct_zero, BitVec.zero_xor]⟩

theorem ReducesTo.mono {poly : BitVec 9} {n m : Nat} {x : BitVec 16} {r : Byte} (h : ReducesTo poly n x r) (hnm : n ≤ m) :
    ReducesTo poly m x r := by
  obtain ⟨q, hq, hx⟩ := h
  exact ⟨q, fun i hi => hq i (hnm.trans hi), hx⟩

theorem ReducesTo.add {poly : BitVec 9} {n : Nat} {x y : BitVec 16} {r t : Byte} (hx : ReducesTo poly n x r)
    (hy : ReducesTo poly n y t) : ReducesTo poly n (x ^^^ y) (gfAdd r t) := by
  obtain ⟨q, hq, rfl⟩ := hx
  obtain ⟨q', hq', rfl⟩ := hy
  refine ⟨q ^^^ q', fun i hi => by rw [BitVec.getLsbD_xor, hq i hi, hq' i hi]; rfl, ?_⟩
  rw [polyProduct_xor, gfAdd, BitVec.zeroExtend, BitVec.setWidth_xor]
  ac_rfl

/-- A shift is a doubling plus the polynomial when bit 7 was up: bit 8 of the polynomial takes the carry away. -/
theorem shiftLeft_eq_gfDouble {poly : BitVec 9} (hpoly : poly.getLsbD 8 = true) (r : Byte) :
    r.zeroExtend 16 <<< 1 = (if r.getLsbD 7 then poly.zeroExtend 16 else 0) ^^^ (gfDouble poly r).zeroExtend 16 := by
  rw [gfDouble_eq]
  refine BitVec.eq_of_getLsbD_eq fun i hi => ?_
  have hcases : i < 8 ∨ i = 8 ∨ 9 ≤ i := by omega
  rcases hcases with h | rfl | h
  · have hprev : r.getLsbD (i - 1) = r[i - 1] := BitVec.getLsbD_eq_getElem (by omega)
    cases r.getLsbD 7 <;> cases hp : poly.getLsbD i <;> simp [h, hi, hp, hprev]
  · have htop : poly[8] = true := by rw [← BitVec.getLsbD_eq_getElem, hpoly]
    cases hr : r[7] <;> simp [BitVec.getLsbD_eq_getElem, hr, htop]
  · have h8 : ¬ i < 8 := by omega
    have hhigh : poly.getLsbD i = false := BitVec.getLsbD_of_ge _ _ h
    have hr : r.getLsbD (i - 1) = false := BitVec.getLsbD_of_ge _ _ (by omega)
    cases r.getLsbD 7 <;> simp [h8, hi, hr, hhigh]

theorem ReducesTo.shiftLeft {poly : BitVec 9} {n : Nat} {x : BitVec 16} {r : Byte} (hpoly : poly.getLsbD 8 = true)
    (h : ReducesTo poly n x r) (hn : n < 8) : ReducesTo poly (n + 1) (x <<< 1) (gfDouble poly r) := by
  obtain ⟨q, hq, rfl⟩ := h
  have hcarry : polyProduct (poly.zeroExtend 16) (if r.getLsbD 7 then 1 else 0) 8 =
      if r.getLsbD 7 then poly.zeroExtend 16 else 0 := by
    split
    · exact polyProduct_one _ 7
    · exact polyProduct_zero _ 8
  have hshift : polyProduct (poly.zeroExtend 16) q 8 = polyProduct (poly.zeroExtend 16) q 7 := by
    rw [polyProduct, hq 7 (by omega)]
    simp
  refine ⟨q <<< 1 ^^^ (if r.getLsbD 7 then 1 else 0), fun i hi => ?_, ?_⟩
  · have hlow : (q <<< 1).getLsbD i = false := by simp [hq (i - 1) (by omega)]
    have hone : (if r.getLsbD 7 then 1 else 0 : BitVec 16).getLsbD i = false := by
      split
      · simp; omega
      · simp
    rw [BitVec.getLsbD_xor, hlow, hone]
    rfl
  · rw [polyProduct_xor, hcarry, hshift, polyProduct_shiftLeft_one _ _ 7 (by omega), BitVec.shiftLeft_xor_distrib,
      shiftLeft_eq_gfDouble hpoly, BitVec.xor_assoc]

/-- A factor times `x^j` reduces to the factor doubled `j` times. -/
theorem reducesTo_shiftLeft {poly : BitVec 9} (hpoly : poly.getLsbD 8 = true) (a : Byte) (j : Nat) (hj : j ≤ 8) :
    ReducesTo poly j (a.zeroExtend 16 <<< j) ((gfDouble poly)^[j] a) := by
  induction j with
  | zero => simpa using ReducesTo.refl poly 0 a
  | succ j ih =>
    rw [BitVec.shiftLeft_add, Function.iterate_succ_apply']
    exact (ih (by omega)).shiftLeft hpoly (by omega)

/-- The polynomial product reduces to `a ⊗ b`, term by term of the two sums. -/
theorem reducesTo_gfMul {poly : BitVec 9} (hpoly : poly.getLsbD 8 = true) (a b : Byte) :
    ReducesTo poly 8 (polyProduct (a.zeroExtend 16) (b.zeroExtend 16) 8) (gfMul poly a b) := by
  have hterms : ∀ n ≤ 8, ReducesTo poly 8 (polyProduct (a.zeroExtend 16) (b.zeroExtend 16) n)
      (gfSum (fun j => if b.getLsbD j then (gfDouble poly)^[j] a else 0) n) := by
    intro n hn
    induction n with
    | zero => exact ReducesTo.refl poly 8 0
    | succ n ih =>
      have hbit : (b.zeroExtend 16).getLsbD n = b.getLsbD n := by simp; omega
      rw [polyProduct, gfSum, hbit]
      refine (ih (by omega)).add ?_
      split
      · exact (reducesTo_shiftLeft hpoly a n (by omega)).mono (by omega)
      · exact ReducesTo.refl poly 8 0
  rw [gfMul_eq_gfSum]
  exact hterms 8 (le_refl 8)

/-- The factor, being of 8 bits, is a byte. -/
theorem ReducesTo.exists_byte {poly : BitVec 9} {x : BitVec 16} {r : Byte} (h : ReducesTo poly 8 x r) :
    ∃ q : Byte, x = polyProduct (poly.zeroExtend 16) (q.zeroExtend 16) 8 ^^^ r.zeroExtend 16 := by
  obtain ⟨q, hq, rfl⟩ := h
  have hbyte : (q.truncate 8).zeroExtend 16 = q := by
    ext i hi
    by_cases h8 : i < 8
    · simp [h8, BitVec.getLsbD_eq_getElem hi]
    · have := hq i (by omega)
      rw [BitVec.getLsbD_eq_getElem hi] at this
      simp [h8, this]
  exact ⟨q.truncate 8, by rw [hbyte]⟩

theorem gfMul_two_highBit (poly : BitVec 9) : gfMul poly 0x02 0x80 = poly.extractLsb' 0 8 := by
  have hbit : (0x80 : Byte).getLsbD 7 = true := by decide
  have hshift : (0x80 : Byte) <<< 1 = 0 := by decide
  calc gfMul poly 0x02 0x80 = gfMul poly 0x80 0x02 := gfMul_comm poly _ _
    _ = gfDouble poly 0x80 := gfMul_twoPow poly 0x80 1 (by decide)
    _ = poly.extractLsb' 0 8 := by
      rw [gfDouble_eq, hbit, hshift, if_pos rfl]
      exact BitVec.zero_xor

/-- Settles O27: the laws hold for every polynomial, reducible or not; three products are evaluated. -/
theorem gfMultiplicationIsAFieldProduct : Obligations.GfMultiplicationIsAFieldProduct :=
  ⟨fun poly hpoly => ⟨gfMul_two_highBit poly, fun a b => (reducesTo_gfMul hpoly a b).exists_byte⟩,
    fun poly _ a b c => ⟨rfl, gfMul_comm poly a b, gfMul_assoc poly a b c, gfMul_add poly a b c, gfMul_one poly a,
      gfMul_zero poly a⟩,
    by decide, by decide, by decide⟩

end Sys2Proof.Machine
end

section
/-!
PROOFS for 43_has_rs.md R232 to R234: each of the thirty polynomials of `Config.fieldPolys` has an element whose powers are all the
nonzero bytes, so that the ring of the polynomial is a field. The namespace is not the model's, which has a `Matrix`, a `Field` and an
`Invertible` of its own where the proofs use the library's.
-/

namespace Sys2Proof.Galois

open Sys2Proof.Machine hiding Field Matrix Invertible

/-! ### The field -/

/-- The bytes, under the name that the ring of the polynomial is given. -/
def GfRing (_ : BitVec 9) : Type := Byte

/-- The ring of the bytes with `⊕` and the `⊗` of the polynomial, irreducible or not. -/
@[reducible] def gfCommRing (poly : BitVec 9) : CommRing (GfRing poly) where
  add := gfAdd
  add_assoc := gfAdd_assoc
  zero := (0 : Byte)
  zero_add := zero_gfAdd
  add_zero := gfAdd_zero
  add_comm := gfAdd_comm
  mul := gfMul poly
  mul_assoc := gfMul_assoc poly
  one := (1 : Byte)
  one_mul := one_gfMul poly
  mul_one := gfMul_one poly
  mul_comm := gfMul_comm poly
  left_distrib := gfMul_add poly
  right_distrib a b c := gfMul_additive_left poly c a b
  zero_mul := zero_gfMul poly
  mul_zero := gfMul_zero poly
  neg a := a
  neg_add_cancel := gfAdd_self
  nsmul := @nsmulRec _ ⟨(0 : Byte)⟩ ⟨gfAdd⟩
  zsmul := @zsmulRec _ ⟨(0 : Byte)⟩ ⟨gfAdd⟩ ⟨fun a => a⟩ (@nsmulRec _ ⟨(0 : Byte)⟩ ⟨gfAdd⟩)

/-- The bytes stand for the elements of the ring `K`, `⊕` for its sum and `⊗` for its product. -/
structure GfModel (poly : BitVec 9) (K : Type) [CommRing K] where
  val : Byte ≃ K
  val_gfAdd : ∀ a b, val (gfAdd a b) = val a + val b
  val_gfMul : ∀ a b, val (gfMul poly a b) = val a * val b

section
variable {poly : BitVec 9} {K : Type} [CommRing K] (φ : GfModel poly K)

theorem GfModel.val_zero : φ.val 0 = 0 := by
  have h := φ.val_gfAdd 0 0
  rwa [gfAdd_self, left_eq_add] at h

theorem GfModel.val_one : φ.val 1 = 1 := by
  obtain ⟨u, hu⟩ := φ.val.surjective 1
  calc φ.val 1 = φ.val 1 * φ.val u := by rw [hu, mul_one]
    _ = φ.val u := by rw [← φ.val_gfMul, one_gfMul]
    _ = 1 := hu

theorem GfModel.val_eq_zero (a : Byte) : φ.val a = 0 ↔ a = 0 := by
  rw [← φ.val_zero, φ.val.apply_eq_iff_eq]

theorem GfModel.val_gfSum (f : Nat → Byte) (n : Nat) : φ.val (gfSum f n) = ∑ j ∈ Finset.range n, φ.val (f j) := by
  induction n with
  | zero => exact φ.val_zero
  | succ n ih => rw [gfSum, φ.val_gfAdd, ih, Finset.sum_range_succ]

end

/-! ### A generator of the nonzero elements -/

section
variable (poly : BitVec 9) (a : Byte)

def gfCube : Byte := gfMul poly (gfMul poly a a) a

def gfFourth : Byte := gfMul poly (gfMul poly a a) (gfMul poly a a)

def gfFifth : Byte := gfMul poly (gfFourth poly a) a

def gfSeventeenth : Byte := gfMul poly (gfFourth poly (gfFourth poly a)) a

/-- `a` has order 255: its power 255 is 1, and none of its powers 255/17, 255/5 and 255/3 is. -/
abbrev GfGenerates : Prop :=
  gfCube poly (gfFifth poly (gfSeventeenth poly a)) = 1 ∧ gfCube poly (gfFifth poly a) ≠ 1 ∧
    gfCube poly (gfSeventeenth poly a) ≠ 1 ∧ gfFifth poly (gfSeventeenth poly a) ≠ 1

end

/-- Each of the thirty polynomials has a small generator. -/
theorem exists_generator : ∀ poly ∈ Config.fieldPolys, ∃ g ∈ ([2, 3, 6, 7, 9] : List Byte), GfGenerates poly g := by
  have hall : (Config.fieldPolys.all fun poly => ([2, 3, 6, 7, 9] : List Byte).any fun g => decide (GfGenerates poly g)) := by
    decide +kernel
  simpa only [List.all_eq_true, List.any_eq_true, decide_eq_true_eq] using hall

section
variable {poly : BitVec 9} {K : Type} [CommRing K] (φ : GfModel poly K)

theorem GfModel.val_gfCube (a : Byte) : φ.val (gfCube poly a) = φ.val a ^ 3 := by
  rw [gfCube, φ.val_gfMul, φ.val_gfMul]; ring

theorem GfModel.val_gfFourth (a : Byte) : φ.val (gfFourth poly a) = φ.val a ^ 4 := by
  rw [gfFourth, φ.val_gfMul, φ.val_gfMul]; ring

theorem GfModel.val_gfFifth (a : Byte) : φ.val (gfFifth poly a) = φ.val a ^ 5 := by
  rw [gfFifth, φ.val_gfMul, φ.val_gfFourth]; ring

theorem GfModel.val_gfSeventeenth (a : Byte) : φ.val (gfSeventeenth poly a) = φ.val a ^ 17 := by
  rw [gfSeventeenth, φ.val_gfMul, φ.val_gfFourth, φ.val_gfFourth]; ring

theorem GfModel.orderOf_generator {g : Byte} (hg : GfGenerates poly g) : orderOf (φ.val g) = 255 := by
  obtain ⟨h255, h15, h51, h85⟩ := hg
  rw [← φ.val.apply_eq_iff_eq, φ.val_gfCube, φ.val_gfFifth, φ.val_gfSeventeenth, φ.val_one, ← pow_mul, ← pow_mul] at h255
  rw [← φ.val.apply_eq_iff_eq.ne, φ.val_gfCube, φ.val_gfFifth, φ.val_one, ← pow_mul] at h15
  rw [← φ.val.apply_eq_iff_eq.ne, φ.val_gfCube, φ.val_gfSeventeenth, φ.val_one, ← pow_mul] at h51
  rw [← φ.val.apply_eq_iff_eq.ne, φ.val_gfFifth, φ.val_gfSeventeenth, φ.val_one, ← pow_mul] at h85
  refine orderOf_eq_of_pow_and_pow_div_prime (by decide) h255 fun p hp hdvd => ?_
  have hprimes : p = 3 ∨ p = 5 ∨ p = 17 := by
    rw [show 255 = 3 * (5 * 17) by decide, hp.dvd_mul, hp.dvd_mul] at hdvd
    rw [← Nat.prime_dvd_prime_iff_eq hp (by decide), ← Nat.prime_dvd_prime_iff_eq hp (by decide),
      ← Nat.prime_dvd_prime_iff_eq hp (by decide)]
    exact hdvd
  rcases hprimes with rfl | rfl | rfl
  · exact h85
  · exact h51
  · exact h15

/-- The 255 powers of a generator are distinct and not 0, so that they are all the nonzero elements. -/
theorem GfModel.exists_pow_generator {g : Byte} (hg : GfGenerates poly g) {x : K} (hx : x ≠ 0) :
    ∃ n, φ.val g ^ n = x := by
  classical
  let _ : Fintype K := .ofEquiv Byte φ.val
  have hcard : Fintype.card K = 256 := (Fintype.card_congr (φ.val.symm.trans BitVec.equivFin.toEquiv)).trans (Fintype.card_fin _)
  have hne : ∀ n, φ.val g ^ n ≠ 0 := fun n h => by
    have hone : (φ.val g ^ n) ^ 255 = 1 := by
      rw [← φ.orderOf_generator hg, pow_right_comm, pow_orderOf_eq_one, one_pow]
    rw [h, zero_pow (by decide), ← φ.val_zero, ← φ.val_one] at hone
    exact absurd (φ.val.injective hone) (by decide)
  have hinj : Set.InjOn (φ.val g ^ ·) (Finset.range 255 : Set Nat) := by
    rw [Finset.coe_range, ← φ.orderOf_generator hg]
    exact pow_injOn_Iio_orderOf
  have hall : (Finset.range 255).image (φ.val g ^ ·) = Finset.univ.erase 0 := by
    refine Finset.eq_of_subset_of_card_le (fun y hy => ?_) ?_
    · obtain ⟨n, -, rfl⟩ := Finset.mem_image.mp hy
      exact Finset.mem_erase.mpr ⟨hne n, Finset.mem_univ _⟩
    · rw [Finset.card_image_of_injOn hinj, Finset.card_erase_of_mem (Finset.mem_univ _), Finset.card_univ, hcard,
        Finset.card_range]
  obtain ⟨n, -, hn⟩ := Finset.mem_image.mp (hall ▸ Finset.mem_erase.mpr ⟨hx, Finset.mem_univ x⟩)
  exact ⟨n, hn⟩

include φ in
theorem GfModel.isField {g : Byte} (hg : GfGenerates poly g) : IsField K where
  exists_pair_ne := ⟨φ.val 0, φ.val 1, φ.val.injective.ne (by decide)⟩
  mul_comm := mul_comm
  mul_inv_cancel {x} hx := by
    obtain ⟨n, rfl⟩ := φ.exists_pow_generator hg hx
    refine ⟨φ.val g ^ (254 * n), ?_⟩
    rw [← pow_add, show n + 254 * n = 255 * n by omega, ← φ.orderOf_generator hg, pow_mul, pow_orderOf_eq_one, one_pow]

end

/-- Every polynomial that GF_POLY may be makes the bytes a field. -/
theorem exists_gfField {poly : BitVec 9} (h : poly ∈ Config.fieldPolys) :
    ∃ (K : Type) (_ : Field K), Nonempty (GfModel poly K) := by
  obtain ⟨g, -, hg⟩ := exists_generator poly h
  let _ := gfCommRing poly
  let φ : GfModel poly (GfRing poly) := ⟨Equiv.refl Byte, fun _ _ => rfl, fun _ _ => rfl⟩
  exact ⟨GfRing poly, (φ.isField hg).toField, ⟨⟨φ.val, φ.val_gfAdd, φ.val_gfMul⟩⟩⟩

/-! ### Inverses (R233) -/

/-- The search finds an element with product 1 if there is one among those it looks at. -/
theorem gfMul_gfInvBelow (poly : BitVec 9) (a b : Byte) (k : Nat) (hpos : 0 < b.toNat) (hle : b.toNat ≤ k)
    (h : gfMul poly a b = 1) : gfMul poly a (gfInvBelow poly a k) = 1 := by
  induction k with
  | zero => omega
  | succ k ih =>
    rw [gfInvBelow]
    split
    · next hk => exact hk
    · next hk =>
      have hne : b.toNat ≠ k + 1 := fun hb => hk (by rw [← hb, BitVec.ofNat_toNat, BitVec.setWidth_eq]; exact h)
      exact ih (by omega)

section
variable {poly : BitVec 9} {K : Type} [Field K] (φ : GfModel poly K)

include φ in
theorem GfModel.gfMul_gfInv {a : Byte} (ha : a ≠ 0) : gfMul poly a (gfInv poly a) = 1 := by
  have hne : φ.val a ≠ 0 := mt (φ.val_eq_zero a).mp ha
  obtain ⟨b, hb⟩ := φ.val.surjective (φ.val a)⁻¹
  have hmul : gfMul poly a b = 1 := by
    rw [← φ.val.apply_eq_iff_eq, φ.val_gfMul, hb, mul_inv_cancel₀ hne, φ.val_one]
  have hpos : b ≠ 0 := fun h => inv_ne_zero hne (by rw [← hb, h, φ.val_zero])
  have hlt : b.toNat < 256 := b.isLt
  exact gfMul_gfInvBelow poly a b 255 (Nat.pos_of_ne_zero fun h => hpos (BitVec.eq_of_toNat_eq h)) (by omega) hmul

end

theorem gfMul_gfInv {poly : BitVec 9} (h : poly ∈ Config.fieldPolys) {a : Byte} (ha : a ≠ 0) :
    gfMul poly a (gfInv poly a) = 1 := by
  obtain ⟨K, _, ⟨φ⟩⟩ := exists_gfField h
  exact φ.gfMul_gfInv ha

theorem gfMul_eq_one_iff {poly : BitVec 9} (h : poly ∈ Config.fieldPolys) {a : Byte} (ha : a ≠ 0) (b : Byte) :
    gfMul poly a b = 1 ↔ b = gfInv poly a := by
  refine ⟨fun hb => ?_, fun hb => hb ▸ gfMul_gfInv h ha⟩
  calc b = gfMul poly (gfMul poly a (gfInv poly a)) b := by rw [gfMul_gfInv h ha, one_gfMul]
    _ = gfMul poly (gfMul poly a b) (gfInv poly a) := by
      rw [gfMul_assoc, gfMul_comm poly (gfInv poly a), gfMul_assoc]
    _ = gfInv poly a := by rw [hb, one_gfMul]

/-- An inverse under the default polynomial is confirmed by its product. -/
theorem gfInv_of_product {a b : Byte} (h : a ≠ 0 ∧ gfMul 0x11D a b = 1) : gfInv 0x11D a = b :=
  ((gfMul_eq_one_iff (by decide) h.1 b).mp h.2).symm

/-- Settles O28: the inverse found by the search is the one of the field; five inverses are confirmed by a product each. -/
theorem gfInverseIsUnique : Obligations.GfInverseIsUnique := by
  refine ⟨fun poly h a b => ⟨fun ha => gfMul_eq_one_iff h ha b, ?_⟩, fun c m rest p hp => (takePivot_perm c m p rest hp).2,
    gfInv_of_product (by decide), gfInv_of_product (by decide), gfInv_of_product (by decide), gfInv_of_product (by decide),
    gfInv_of_product (by decide)⟩
  rw [zero_gfMul]
  decide

/-! ### The tables of the default polynomial (R234) -/

theorem gfExpTable_length : gfExpTable.length = 255 := by decide +kernel

/-- Each entry of the antilog table is the one before it, doubled. -/
theorem gfExpTable_isChain : gfExpTable.IsChain fun a b => b = gfMul 0x11D 0x02 a := by decide +kernel

theorem gfExp_eq_getElem (i : Nat) (h : i < 255) : gfExp i = gfExpTable[i]'(gfExpTable_length ▸ h) :=
  List.getD_eq_getElem _ _ _

theorem gfExp_eq_gfAlphaPow (i : Nat) (h : i < 255) : gfExp i = gfAlphaPow 0x11D i := by
  induction i with
  | zero => rfl
  | succ i ih =>
    rw [gfAlphaPow, ← ih (by omega), gfExp_eq_getElem _ h, gfExp_eq_getElem i (by omega)]
    exact List.isChain_iff_getElem.mp gfExpTable_isChain i (by rw [gfExpTable_length]; omega)

/-- The log table holds the place of each entry of the antilog table. -/
theorem gfLog_gfExp (i : Nat) (h : i < 255) : gfLog (gfExp i) = i := by
  have hall : (gfExpTable.zipIdx.all fun e => decide (gfLog e.1 = e.2)) := by decide +kernel
  have hmem : (gfExp i, i) ∈ gfExpTable.zipIdx := by
    rw [List.mk_mem_zipIdx_iff_getElem?, gfExp_eq_getElem i h]
    exact List.getElem?_eq_getElem _
  exact of_decide_eq_true (List.all_eq_true.mp hall _ hmem)

theorem gfAlphaPow_add (poly : BitVec 9) (i j : Nat) :
    gfAlphaPow poly (i + j) = gfMul poly (gfAlphaPow poly i) (gfAlphaPow poly j) := by
  induction i with
  | zero => rw [Nat.zero_add, gfAlphaPow, one_gfMul]
  | succ i ih => rw [Nat.add_right_comm, gfAlphaPow, gfAlphaPow, ih, gfMul_assoc]

/-- The powers of `0x02` repeat after 255 of them. -/
theorem gfAlphaPow_add_255 (i : Nat) : gfAlphaPow 0x11D (i + 255) = gfAlphaPow 0x11D i := by
  have hcycle : gfMul 0x11D 0x02 (gfExp 254) = 1 := by decide +kernel
  have hone : gfAlphaPow 0x11D 255 = 1 := by rw [gfAlphaPow, ← gfExp_eq_gfAlphaPow 254 (by decide), hcycle]
  rw [gfAlphaPow_add, hone, gfMul_one]

theorem gfExp_mod (i : Nat) : gfExp (i % 255) = gfAlphaPow 0x11D i := by
  rw [gfExp_eq_gfAlphaPow _ (Nat.mod_lt i (by decide))]
  exact Function.Periodic.map_mod_nat gfAlphaPow_add_255 i

theorem GfModel.val_gfAlphaPow {poly : BitVec 9} {K : Type} [CommRing K] (φ : GfModel poly K) (i : Nat) :
    φ.val (gfAlphaPow poly i) = φ.val 0x02 ^ i := by
  induction i with
  | zero => rw [gfAlphaPow, φ.val_one, pow_zero]
  | succ i ih => rw [gfAlphaPow, φ.val_gfMul, ih, pow_succ']

/-- `0x02` generates the nonzero elements, so that the antilog table lists each of them. -/
theorem exists_gfExp_eq (a : Byte) (ha : a ≠ 0) : ∃ i < 255, gfExp i = a := by
  obtain ⟨K, _, ⟨φ⟩⟩ := exists_gfField (poly := 0x11D) (by decide)
  have hgen : GfGenerates 0x11D 0x02 := by decide +kernel
  obtain ⟨n, hn⟩ := φ.exists_pow_generator hgen (mt (φ.val_eq_zero a).mp ha)
  refine ⟨n % 255, Nat.mod_lt n (by decide), ?_⟩
  rw [gfExp_mod, ← φ.val.apply_eq_iff_eq, φ.val_gfAlphaPow, hn]

theorem gfExp_gfLog (a : Byte) (ha : a ≠ 0) : gfLog a < 255 ∧ gfExp (gfLog a) = a := by
  obtain ⟨i, hi, rfl⟩ := exists_gfExp_eq a ha
  rw [gfLog_gfExp i hi]
  exact ⟨hi, rfl⟩

theorem gfAlphaPow_gfLog {a : Byte} (ha : a ≠ 0) : gfAlphaPow 0x11D (gfLog a) = a := by
  obtain ⟨hlt, hexp⟩ := gfExp_gfLog a ha
  rw [← gfExp_eq_gfAlphaPow _ hlt, hexp]

/-- Settles O29: the tables are checked entry by entry, product and inverse follow from the laws of powers. -/
theorem logTablesRealiseTheField : Obligations.LogTablesRealiseTheField := by
  refine ⟨fun i hi => ⟨gfExp_eq_gfAlphaPow i hi, gfLog_gfExp i hi⟩, gfExp_gfLog, fun a b ha hb => ?_, fun a ha => ?_⟩
  · rw [gfExp_mod, gfAlphaPow_add, gfAlphaPow_gfLog ha, gfAlphaPow_gfLog hb]
  · have hlt := (gfExp_gfLog a ha).1
    refine ((gfMul_eq_one_iff (by decide) ha _).mp ?_).symm
    calc gfMul 0x11D a (gfExp ((255 - gfLog a) % 255))
        = gfAlphaPow 0x11D (gfLog a + (255 - gfLog a)) := by rw [gfAlphaPow_add, gfAlphaPow_gfLog ha, gfExp_mod]
      _ = gfAlphaPow 0x11D (0 + 255) := by congr 1; omega
      _ = 1 := gfAlphaPow_add_255 0

end Sys2Proof.Galois
end

section
/-!
PROOFS for 43_has_rs.md R235 to R237: matrices and elimination. A round of elimination keeps the vectors that all rows annihilate;
what it ends with, the identity beside `X` or a column without a pivot, shows the solution or a nonzero vector that `A` annihilates.
-/

namespace Sys2Proof.Galois

open Sys2Proof.Machine hiding Field Matrix Invertible

/-! ### Rows, element by element -/

theorem addRows_getD (row row' : List Byte) (h : row.length = row'.length) (j : Nat) :
    (addRows row row').getD j 0 = gfAdd (row.getD j 0) (row'.getD j 0) := by
  rcases Nat.lt_or_ge j row.length with hj | hj
  · simp [addRows, List.getD_eq_getElem?_getD, hj, h ▸ hj]
  · simp [addRows, List.getD_eq_getElem?_getD, hj, h ▸ hj, gfAdd]

theorem scaleRow_getD (poly : BitVec 9) (f : Byte) (row : List Byte) (j : Nat) :
    (scaleRow poly f row).getD j 0 = gfMul poly f (row.getD j 0) := by
  rw [scaleRow, ← gfMul_zero poly f, List.getD_map, gfMul_zero]

theorem clearWith_getD (poly : BitVec 9) (c : Nat) (pivot row : List Byte) (h : row.length = pivot.length) (j : Nat) :
    (clearWith poly c pivot row).getD j 0 = gfAdd (row.getD j 0) (gfMul poly (row.getD c 0) (pivot.getD j 0)) := by
  rw [clearWith, addRows_getD _ _ (by rw [scaleRow_length, h]), scaleRow_getD]

/-! ### A round of elimination -/

/-- The pivot row of a round: scaled to a 1 in column `c`. -/
def pivotRow (poly : BitVec 9) (c : Nat) (p : List Byte) : List Byte := scaleRow poly (gfInv poly (p.getD c 0)) p

/-- The rows after a round at column `c` that took `p` as pivot and left `rest`. -/
def cleared (poly : BitVec 9) (c : Nat) (m : Machine.Matrix) (p : List Byte) (rest : Machine.Matrix) : Machine.Matrix :=
  (m.take c).map (clearWith poly c (pivotRow poly c p)) ++
    pivotRow poly c p :: rest.map (clearWith poly c (pivotRow poly c p))

/-- Everything a round of elimination can do (R237). -/
theorem eliminateColumn_cases (poly : BitVec 9) (c : Nat) (m : Machine.Matrix) :
    ((∀ row ∈ m.drop c, row.getD c 0 = 0) ∧ eliminateColumn poly c m = none) ∨
      ∃ p rest, (p :: rest).Perm (m.drop c) ∧ p.getD c 0 ≠ 0 ∧ eliminateColumn poly c m = some (cleared poly c m p rest) := by
  unfold eliminateColumn
  cases h : takePivot c (m.drop c) with
  | none => exact .inl ⟨(takePivot_none c _).mp h, rfl⟩
  | some pr =>
    obtain ⟨hperm, hne⟩ := takePivot_perm c _ pr.1 pr.2 h
    exact .inr ⟨pr.1, pr.2, hperm, hne, rfl⟩

/-- The columns before `c` are those of the identity. -/
structure Reduced (c : Nat) (m : Machine.Matrix) : Prop where
  identity : ∀ i < c, ∀ j < c, entry m i j = if i = j then 1 else 0
  below : ∀ row ∈ m.drop c, ∀ j < c, row.getD j 0 = 0

section
variable {poly : BitVec 9} {n w c : Nat} {m : Machine.Matrix} {p : List Byte} {rest : Machine.Matrix}

/-- The rows of a round all have the width of the matrix. -/
theorem length_eq_of_perm_drop (hm : hasShape n w m = true) (hperm : (p :: rest).Perm (m.drop c)) :
    p.length = w ∧ ∀ row ∈ rest, row.length = w := by
  obtain ⟨-, hw⟩ := (hasShape_iff n w m).mp hm
  exact List.forall_mem_cons.mp fun row hr => hw row (List.mem_of_mem_drop (hperm.mem_iff.mp hr))

theorem pivotRow_length (hm : hasShape n w m = true) (hperm : (p :: rest).Perm (m.drop c)) :
    (pivotRow poly c p).length = w := by
  rw [pivotRow, scaleRow_length, (length_eq_of_perm_drop hm hperm).1]

theorem pivotRow_getD_self (h : poly ∈ Config.fieldPolys) (hne : p.getD c 0 ≠ 0) : (pivotRow poly c p).getD c 0 = 1 := by
  rw [pivotRow, scaleRow_getD, gfMul_comm, gfMul_gfInv h hne]

/-- Where the pivot row is 1 the cleared row is 0, and where the pivot row is 0 it is as it was. -/
theorem clearWith_getD_of_one {pivot row : List Byte} (h : row.length = pivot.length) (hone : pivot.getD c 0 = 1) :
    (clearWith poly c pivot row).getD c 0 = 0 := by
  rw [clearWith_getD poly c pivot row h, hone, gfMul_one, gfAdd_self]

theorem clearWith_getD_of_zero {pivot row : List Byte} {j : Nat} (h : row.length = pivot.length) (hzero : pivot.getD j 0 = 0) :
    (clearWith poly c pivot row).getD j 0 = row.getD j 0 := by
  rw [clearWith_getD poly c pivot row h, hzero, gfMul_zero, gfAdd_zero]

theorem cleared_getD_of_lt (hm : hasShape n w m = true) (hc : c < n) {i : Nat} (hi : i < c) :
    (cleared poly c m p rest).getD i [] = clearWith poly c (pivotRow poly c p) (m.getD i []) := by
  have hin : i < m.length := by rw [((hasShape_iff n w m).mp hm).1]; omega
  simp [cleared, List.getD_eq_getElem?_getD, List.getElem?_append, hi, hin]

theorem cleared_getD_self (hm : hasShape n w m = true) (hc : c < n) :
    (cleared poly c m p rest).getD c [] = pivotRow poly c p := by
  have hin : c < m.length := by rw [((hasShape_iff n w m).mp hm).1]; exact hc
  simp [cleared, List.getD_eq_getElem?_getD, hin.le]

theorem cleared_drop (hm : hasShape n w m = true) (hc : c < n) :
    (cleared poly c m p rest).drop (c + 1) = rest.map (clearWith poly c (pivotRow poly c p)) := by
  have hin : c < m.length := by rw [((hasShape_iff n w m).mp hm).1]; exact hc
  simp [cleared, List.drop_append, hin.le]

/-- A round adds one column of the identity. -/
theorem Reduced.cleared (h : poly ∈ Config.fieldPolys) (hm : hasShape n w m = true) (hc : c < n) (hred : Reduced c m)
    (hperm : (p :: rest).Perm (m.drop c)) (hne : p.getD c 0 ≠ 0) : Reduced (c + 1) (cleared poly c m p rest) := by
  obtain ⟨hlen, hw⟩ := (hasShape_iff n w m).mp hm
  obtain ⟨-, hrest⟩ := length_eq_of_perm_drop hm hperm
  have hpivot := pivotRow_length (poly := poly) hm hperm
  have hone := pivotRow_getD_self h hne
  have hzero : ∀ j < c, (pivotRow poly c p).getD j 0 = 0 := fun j hj => by
    rw [pivotRow, scaleRow_getD, hred.below p (hperm.mem_iff.mp (List.mem_cons_self ..)) j hj, gfMul_zero]
  constructor
  · intro i hi j hj
    unfold entry
    rcases Nat.lt_succ_iff_lt_or_eq.mp hi with hi | rfl
    · have hrow : (m.getD i []).length = (pivotRow poly c p).length := by
        rw [hpivot, List.getD_eq_getElem _ _ (by omega), hw _ (List.getElem_mem _)]
      rw [cleared_getD_of_lt hm hc hi]
      rcases Nat.lt_succ_iff_lt_or_eq.mp hj with hj | rfl
      · rw [clearWith_getD_of_zero hrow (hzero j hj)]
        exact hred.identity i hi j hj
      · rw [clearWith_getD_of_one hrow hone, if_neg hi.ne]
    · rw [cleared_getD_self hm hc]
      rcases Nat.lt_succ_iff_lt_or_eq.mp hj with hj | rfl
      · rw [hzero j hj, if_neg hj.ne']
      · rw [hone, if_pos rfl]
  · intro row hr j hj
    rw [cleared_drop hm hc] at hr
    obtain ⟨q, hq, rfl⟩ := List.mem_map.mp hr
    have hrow : q.length = (pivotRow poly c p).length := by rw [hpivot, hrest q hq]
    rcases Nat.lt_succ_iff_lt_or_eq.mp hj with hj | rfl
    · rw [clearWith_getD_of_zero hrow (hzero j hj)]
      exact hred.below q (hperm.mem_iff.mp (List.mem_cons_of_mem _ hq)) j hj
    · exact clearWith_getD_of_one hrow hone

end

/-! ### Vectors that the rows annihilate -/

section
variable {poly : BitVec 9} {K : Type} [Field K] (φ : GfModel poly K)

/-- The product of a row and a vector over `K`. -/
def rowDot {w : Nat} (row : List Byte) (v : Fin w → K) : K := ∑ j : Fin w, φ.val (row.getD j 0) * v j

theorem rowDot_scaleRow {w : Nat} (f : Byte) (row : List Byte) (v : Fin w → K) :
    rowDot φ (scaleRow poly f row) v = φ.val f * rowDot φ row v := by
  simp only [rowDot, scaleRow_getD, φ.val_gfMul, Finset.mul_sum, mul_assoc]

theorem rowDot_clearWith {w : Nat} (c : Nat) (pivot row : List Byte) (h : row.length = pivot.length) (v : Fin w → K) :
    rowDot φ (clearWith poly c pivot row) v = rowDot φ row v + φ.val (row.getD c 0) * rowDot φ pivot v := by
  simp only [rowDot, clearWith_getD poly c pivot row h, φ.val_gfAdd, φ.val_gfMul, add_mul, Finset.sum_add_distrib,
    Finset.mul_sum, mul_assoc]

/-- Every row annihilates `v`. -/
def Annihilates {w : Nat} (m : Machine.Matrix) (v : Fin w → K) : Prop := ∀ row ∈ m, rowDot φ row v = 0

/-- A round of elimination keeps the annihilated vectors: its pivot is a multiple of `p`, and the other rows differ from what they
were by multiples of the pivot. -/
theorem annihilates_cleared {n w c : Nat} {m rest : Machine.Matrix} {p : List Byte} (hm : hasShape n w m = true)
    (hperm : (p :: rest).Perm (m.drop c)) (hne : p.getD c 0 ≠ 0) (v : Fin w → K) :
    Annihilates φ (cleared poly c m p rest) v ↔ Annihilates φ m v := by
  obtain ⟨-, hw⟩ := (hasShape_iff n w m).mp hm
  obtain ⟨-, hrest⟩ := length_eq_of_perm_drop hm hperm
  have hinv : gfInv poly (p.getD c 0) ≠ 0 := fun hz => by
    have hone := φ.gfMul_gfInv hne
    rw [hz, gfMul_zero] at hone
    exact absurd hone (by decide)
  have hpivot : rowDot φ (pivotRow poly c p) v = 0 ↔ rowDot φ p v = 0 := by
    rw [pivotRow, rowDot_scaleRow, mul_eq_zero, φ.val_eq_zero, or_iff_right hinv]
  have hdrop : (∀ row ∈ m.drop c, rowDot φ row v = 0) ↔ rowDot φ p v = 0 ∧ ∀ row ∈ rest, rowDot φ row v = 0 := by
    rw [← List.forall_mem_cons (p := fun row => rowDot φ row v = 0)]
    exact forall_congr' fun row => by rw [hperm.mem_iff]
  have hsplit : Annihilates φ m v ↔
      rowDot φ p v = 0 ∧ (∀ row ∈ m.take c, rowDot φ row v = 0) ∧ ∀ row ∈ rest, rowDot φ row v = 0 := by
    rw [and_left_comm, ← hdrop, ← List.forall_mem_append, List.take_append_drop, Annihilates]
  rw [hsplit, ← hpivot, Annihilates, cleared, List.forall_mem_append, List.forall_mem_cons, List.forall_mem_map,
    List.forall_mem_map, and_left_comm]
  refine and_congr_right fun hz => ?_
  have hclear : ∀ row, row.length = w → (rowDot φ (clearWith poly c (pivotRow poly c p) row) v = 0 ↔ rowDot φ row v = 0) :=
    fun row hr => by rw [rowDot_clearWith φ c _ row (by rw [hr, pivotRow_length hm hperm]), hz, mul_zero, add_zero]
  exact and_congr (forall₂_congr fun row hr => hclear row (hw row (List.mem_of_mem_take hr)))
    (forall₂_congr fun row hr => hclear row (hrest row hr))

/-- The vector that remains of a column without a pivot: the column itself, negated, above a 1. -/
def columnVector (w c : Nat) (m : Machine.Matrix) : Fin w → K := fun j =>
  if j.val < c then -φ.val (entry m j.val c) else if j.val = c then 1 else 0

theorem columnVector_self {w c : Nat} (hc : c < w) (m : Machine.Matrix) : columnVector φ w c m ⟨c, hc⟩ = 1 := by
  simp [columnVector]

theorem columnVector_of_gt {w c : Nat} (m : Machine.Matrix) {j : Fin w} (h : c < j.val) : columnVector φ w c m j = 0 := by
  simp [columnVector, h.not_gt, h.ne']

/-- A row of the identity takes the column's own element, which the 1 cancels. -/
theorem rowDot_columnVector {w c i : Nat} {m : Machine.Matrix} (hred : Reduced c m) (hi : i < c) (hc : c < w) :
    rowDot φ (m.getD i []) (columnVector φ w c m) = 0 := by
  have hterm : ∀ j : Fin w, φ.val ((m.getD i []).getD j.val 0) * columnVector φ w c m j =
      (if j = ⟨i, hi.trans hc⟩ then -φ.val (entry m i c) else 0) + if j = ⟨c, hc⟩ then φ.val (entry m i c) else 0 := by
    intro j
    rcases Nat.lt_trichotomy j.val c with hj | hj | hj
    · have hentry : (m.getD i []).getD j.val 0 = if i = j.val then 1 else 0 := hred.identity i hi j.val hj
      by_cases hij : i = j.val
      · subst hij
        rw [hentry, if_pos rfl, φ.val_one, one_mul]
        simp [columnVector, hj, hj.ne, Fin.ext_iff]
      · rw [hentry, if_neg hij, φ.val_zero, zero_mul]
        simp [Ne.symm hij, hj.ne, Fin.ext_iff]
    · subst hj
      simp [columnVector, entry, hi.ne', Fin.ext_iff]
    · simp [columnVector_of_gt φ m hj, hj.ne', (hi.trans hj).ne', Fin.ext_iff]
  rw [rowDot, Finset.sum_congr rfl fun j _ => hterm j, Finset.sum_add_distrib, Finset.sum_ite_eq', Finset.sum_ite_eq',
    if_pos (Finset.mem_univ _), if_pos (Finset.mem_univ _), neg_add_cancel]

theorem annihilates_columnVector {w c : Nat} {m : Machine.Matrix} (hc : c < w) (hred : Reduced c m)
    (hzero : ∀ row ∈ m.drop c, row.getD c 0 = 0) : Annihilates φ m (columnVector φ w c m) := by
  rw [Annihilates, ← List.take_append_drop c m, List.forall_mem_append]
  constructor
  · intro row hr
    obtain ⟨i, hi, rfl⟩ := List.mem_iff_getElem.mp hr
    rw [List.length_take] at hi
    rw [List.take_append_drop, List.getElem_take, ← List.getD_eq_getElem m [] (by omega)]
    exact rowDot_columnVector φ hred (by omega) hc
  · intro row hr
    refine Finset.sum_eq_zero fun j _ => ?_
    rw [List.take_append_drop]
    rcases Nat.lt_trichotomy j.val c with hj | hj | hj
    · rw [hred.below row hr j.val hj, φ.val_zero, zero_mul]
    · rw [hj, hzero row hr, φ.val_zero, zero_mul]
    · rw [columnVector_of_gt φ m hj, mul_zero]

/-- Rounds that all find a pivot reduce their columns and keep the annihilated vectors. -/
theorem eliminateFrom_some (h : poly ∈ Config.fieldPolys) {n w : Nat} (k c : Nat) (m m' : Machine.Matrix)
    (hm : hasShape n w m = true) (hk : c + k ≤ n) (hred : Reduced c m) (he : eliminateFrom poly k c m = some m') :
    Reduced (c + k) m' ∧ ∀ v : Fin w → K, Annihilates φ m' v ↔ Annihilates φ m v := by
  induction k generalizing c m with
  | zero => cases he; exact ⟨hred, fun _ => Iff.rfl⟩
  | succ k ih =>
    rcases eliminateColumn_cases poly c m with ⟨-, hcol⟩ | ⟨p, rest, hperm, hne, hcol⟩
    · rw [eliminateFrom, hcol] at he
      cases he
    · rw [eliminateFrom, hcol] at he
      have hshape := eliminateColumn_shape poly c n w m _ hm hcol
      rw [← Nat.succ_add_eq_add_succ] at hk ⊢
      obtain ⟨hred', hann⟩ := ih (c + 1) _ hshape hk (hred.cleared h hm (by omega) hperm hne) he
      exact ⟨hred', fun v => (hann v).trans (annihilates_cleared φ hm hperm hne v)⟩

/-- When a round finds no pivot, the rows annihilate a nonzero vector of the columns up to there. -/
theorem eliminateFrom_none (h : poly ∈ Config.fieldPolys) {n w : Nat} (k c : Nat) (m : Machine.Matrix)
    (hm : hasShape n w m = true) (hkn : c + k ≤ n) (hkw : c + k ≤ w) (hred : Reduced c m)
    (he : eliminateFrom poly k c m = none) :
    ∃ v : Fin w → K, Annihilates φ m v ∧ v ≠ 0 ∧ ∀ j, c + k ≤ j.val → v j = 0 := by
  induction k generalizing c m with
  | zero => cases he
  | succ k ih =>
    rcases eliminateColumn_cases poly c m with ⟨hzero, -⟩ | ⟨p, rest, hperm, hne, hcol⟩
    · have hcw : c < w := by omega
      refine ⟨columnVector φ w c m, annihilates_columnVector φ hcw hred hzero, fun hv => ?_,
        fun j hj => columnVector_of_gt φ m (by omega)⟩
      have hone := columnVector_self φ hcw m
      rw [hv] at hone
      exact zero_ne_one hone
    · rw [eliminateFrom, hcol] at he
      have hshape := eliminateColumn_shape poly c n w m _ hm hcol
      rw [← Nat.succ_add_eq_add_succ] at hkn hkw ⊢
      obtain ⟨v, hann, hv⟩ := ih (c + 1) _ hshape hkn hkw (hred.cleared h hm (by omega) hperm hne) he
      exact ⟨v, (annihilates_cleared φ hm hperm hne v).mp hann, hv⟩

end

/-! ### Matrices over the field -/

section
variable {poly : BitVec 9} {K : Type} [Field K] (φ : GfModel poly K)

/-- The `r × c` matrix over `K` that the rows stand for. -/
def toMatrix (r c : Nat) (m : Machine.Matrix) : Matrix (Fin r) (Fin c) K := .of fun i j => φ.val (entry m i j)

theorem toMatrix_apply {r c : Nat} (m : Machine.Matrix) (i : Fin r) (j : Fin c) : toMatrix φ r c m i j = φ.val (entry m i j) :=
  rfl

theorem toMatrix_mulVec {r c : Nat} (m : Machine.Matrix) (v : Fin c → K) (i : Fin r) :
    (toMatrix φ r c m).mulVec v i = rowDot φ (m.getD i []) v := rfl

/-- Two matrices of one shape with the same elements are the same rows. -/
theorem toMatrix_injective {r c : Nat} {a b : Machine.Matrix} (ha : hasShape r c a = true) (hb : hasShape r c b = true)
    (h : toMatrix φ r c a = toMatrix φ r c b) : a = b := by
  obtain ⟨hla, hwa⟩ := (hasShape_iff r c a).mp ha
  obtain ⟨hlb, hwb⟩ := (hasShape_iff r c b).mp hb
  refine List.ext_getElem (hla.trans hlb.symm) fun i hia hib => ?_
  have hra := hwa _ (List.getElem_mem hia)
  have hrb := hwb _ (List.getElem_mem hib)
  refine List.ext_getElem (hra.trans hrb.symm) fun j hja hjb => ?_
  have hij := φ.val.injective (congrFun (congrFun h ⟨i, by omega⟩) ⟨j, by omega⟩)
  simpa only [entry, List.getD_eq_getElem, hia, hib, hja, hjb] using hij

/-- The rows that stand for a matrix over `K`. -/
def ofMatrix {r c : Nat} (M : Matrix (Fin r) (Fin c) K) : Machine.Matrix :=
  .ofFn fun i => .ofFn fun j => φ.val.symm (M i j)

theorem ofMatrix_shape {r c : Nat} (M : Matrix (Fin r) (Fin c) K) : hasShape r c (ofMatrix φ M) = true := by
  refine (hasShape_iff r c _).mpr ⟨List.length_ofFn, fun row hr => ?_⟩
  obtain ⟨i, rfl⟩ := (List.mem_ofFn' ..).mp hr
  exact List.length_ofFn

theorem toMatrix_ofMatrix {r c : Nat} (M : Matrix (Fin r) (Fin c) K) : toMatrix φ r c (ofMatrix φ M) = M := by
  ext i j
  simp [toMatrix_apply, ofMatrix, entry, List.getD_eq_getElem?_getD]

theorem matMul_shape (r m c : Nat) (a b : Machine.Matrix) : hasShape r c (matMul poly r m c a b) = true := by
  simp [hasShape_iff, matMul]

theorem entry_matMul (r m c : Nat) (a b : Machine.Matrix) {i k : Nat} (hi : i < r) (hk : k < c) :
    entry (matMul poly r m c a b) i k = gfSum (fun j => gfMul poly (entry a i j) (entry b j k)) m := by
  simp [entry, matMul, List.getD_eq_getElem?_getD, hi, hk]

theorem toMatrix_matMul (r m c : Nat) (a b : Machine.Matrix) :
    toMatrix φ r c (matMul poly r m c a b) = toMatrix φ r m a * toMatrix φ m c b := by
  ext i k
  rw [toMatrix_apply, entry_matMul r m c a b i.isLt k.isLt, φ.val_gfSum, Finset.sum_range, Matrix.mul_apply]
  simp only [φ.val_gfMul, toMatrix_apply]

theorem identity_shape (n : Nat) : hasShape n n (identity n) = true := by
  simp [hasShape_iff, identity]

theorem toMatrix_identity (n : Nat) : toMatrix φ n n (identity n) = 1 := by
  ext i j
  have hentry : entry (identity n) i j = if i = j then 1 else 0 := by
    simp [entry, identity, List.getD_eq_getElem?_getD, Fin.ext_iff]
  rw [toMatrix_apply, hentry, Matrix.one_apply, apply_ite φ.val, φ.val_one, φ.val_zero]

theorem matMul_eq_iff {n w : Nat} {a x c : Machine.Matrix} (hc : hasShape n w c = true) :
    matMul poly n n w a x = c ↔ toMatrix φ n n a * toMatrix φ n w x = toMatrix φ n w c := by
  rw [← toMatrix_matMul]
  exact ⟨fun h => by rw [h], toMatrix_injective φ (matMul_shape ..) hc⟩

/-- Invertible by R236 is invertible over the field. -/
theorem invertible_iff_isUnit {n : Nat} (a : Machine.Matrix) : Machine.Invertible poly n a ↔ IsUnit (toMatrix φ n n a) := by
  simp only [Machine.Invertible, matMul_eq_iff φ (identity_shape n), toMatrix_identity, isUnit_iff_exists]
  constructor
  · rintro ⟨b, -, hab, hba⟩
    exact ⟨toMatrix φ n n b, hab, hba⟩
  · rintro ⟨B, hab, hba⟩
    exact ⟨ofMatrix φ B, ofMatrix_shape φ B, by rw [toMatrix_ofMatrix, hab], by rw [toMatrix_ofMatrix, hba]⟩

/-! ### What elimination answers -/

theorem annihilates_iff_mulVec {r w : Nat} {m : Machine.Matrix} (hm : hasShape r w m = true) (v : Fin w → K) :
    Annihilates φ m v ↔ (toMatrix φ r w m).mulVec v = 0 := by
  obtain ⟨rfl, -⟩ := (hasShape_iff r w m).mp hm
  rw [Annihilates, List.forall_mem_iff_getElem, funext_iff, Fin.forall_iff]
  refine forall₂_congr fun i hi => ?_
  rw [toMatrix_mulVec, List.getD_eq_getElem m [] hi]
  rfl

theorem rowDot_append {n w : Nat} (row row' : List Byte) (h : row.length = n) (y : Fin n → K) (t : Fin w → K) :
    rowDot φ (row ++ row') (Fin.append y t) = rowDot φ row y + rowDot φ row' t := by
  rw [rowDot, Fin.sum_univ_add]
  refine congrArg₂ (· + ·) (Finset.sum_congr rfl fun j _ => ?_) (Finset.sum_congr rfl fun j _ => ?_)
  · rw [Fin.append_left, Fin.val_castAdd, List.getD_append _ _ _ _ (by omega)]
  · rw [Fin.append_right, Fin.val_natAdd, List.getD_append_right _ _ _ _ (by omega), h, Nat.add_sub_cancel_left]

/-- The augmented matrix of R237 is `A · y ⊕ C · t` on a vector in two parts. -/
theorem augment_mulVec {n w : Nat} {a c : Machine.Matrix} (ha : hasShape n n a = true) (hc : hasShape n w c = true)
    (y : Fin n → K) (t : Fin w → K) :
    (toMatrix φ n (n + w) (List.zipWith (· ++ ·) a c)).mulVec (Fin.append y t) =
      (toMatrix φ n n a).mulVec y + (toMatrix φ n w c).mulVec t := by
  obtain ⟨hla, hwa⟩ := (hasShape_iff n n a).mp ha
  obtain ⟨hlc, -⟩ := (hasShape_iff n w c).mp hc
  ext i
  have hia : i.val < a.length := by omega
  have hic : i.val < c.length := by omega
  simp only [toMatrix_mulVec, Pi.add_apply, List.getD_eq_getElem, List.length_zipWith, List.getElem_zipWith, hia, hic, lt_inf_iff,
    and_self]
  exact rowDot_append φ _ _ (hwa _ (List.getElem_mem hia)) y t

/-- With the first columns those of the identity it is `y ⊕ X · t`, `X` being the other columns. -/
theorem reduced_mulVec {n w : Nat} {m : Machine.Matrix} (hm : hasShape n (n + w) m = true) (hred : Reduced n m)
    (y : Fin n → K) (t : Fin w → K) :
    (toMatrix φ n (n + w) m).mulVec (Fin.append y t) = y + (toMatrix φ n w (m.map (List.drop n))).mulVec t := by
  obtain ⟨hlen, hw⟩ := (hasShape_iff n (n + w) m).mp hm
  ext i
  have hi : i.val < m.length := by omega
  have htake : (m[i.val].take n).length = n := by rw [List.length_take, hw _ (List.getElem_mem hi)]; omega
  have hunit : rowDot φ (m[i.val].take n) y = y i := by
    have hrow : ∀ j : Fin n, (m[i.val].take n).getD j.val 0 = if i = j then 1 else 0 := fun j => by
      have hij := hred.identity i i.isLt j j.isLt
      rw [entry, List.getD_eq_getElem m [] hi] at hij
      simpa [List.getD_eq_getElem?_getD, Fin.ext_iff] using hij
    simp only [rowDot, hrow, apply_ite φ.val, φ.val_one, φ.val_zero]
    simp
  rw [toMatrix_mulVec, Pi.add_apply, toMatrix_mulVec, List.getD_eq_getElem m [] hi,
    List.getD_eq_getElem _ [] (by rwa [List.length_map]), List.getElem_map, ← hunit, ← rowDot_append φ _ _ htake,
    List.take_append_drop]

theorem solve_eq_map (n : Nat) (a c : Machine.Matrix) :
    solve poly n a c = (eliminateFrom poly n 0 (List.zipWith (· ++ ·) a c)).map (List.map (List.drop n)) := by
  unfold solve
  cases eliminateFrom poly n 0 (List.zipWith (· ++ ·) a c) <;> rfl

theorem reduced_zero (m : Machine.Matrix) : Reduced 0 m := ⟨nofun, nofun⟩

/-- A vector in two parts is annihilated by `[A | C]` exactly when it is by `[I | X]`. -/
theorem solve_some_iff (h : poly ∈ Config.fieldPolys) {n w : Nat} {a c x : Machine.Matrix} (ha : hasShape n n a = true)
    (hc : hasShape n w c = true) (hx : solve poly n a c = some x) (y : Fin n → K) (t : Fin w → K) :
    (toMatrix φ n n a).mulVec y + (toMatrix φ n w c).mulVec t = 0 ↔ y + (toMatrix φ n w x).mulVec t = 0 := by
  have haug := augment_shape n n w a c ha hc
  rw [solve_eq_map] at hx
  obtain ⟨m, hm, rfl⟩ := Option.map_eq_some_iff.mp hx
  obtain ⟨hred, hann⟩ := eliminateFrom_some (K := K) φ h n 0 _ m haug (by omega) (reduced_zero _) hm
  rw [Nat.zero_add] at hred
  have hshape := eliminateFrom_shape poly n 0 n (n + w) _ m haug hm
  rw [← augment_mulVec φ ha hc, ← reduced_mulVec φ hshape hred, ← annihilates_iff_mulVec φ hshape,
    ← annihilates_iff_mulVec φ haug, hann]

/-- An answer of elimination shows that `A` is invertible, and is the solution of `A · X = C`. -/
theorem solve_some (h : poly ∈ Config.fieldPolys) {n w : Nat} {a c x : Machine.Matrix} (ha : hasShape n n a = true)
    (hc : hasShape n w c = true) (hx : solve poly n a c = some x) :
    IsUnit (toMatrix φ n n a) ∧ toMatrix φ n n a * toMatrix φ n w x = toMatrix φ n w c := by
  have hiff := solve_some_iff φ h ha hc hx
  constructor
  · refine Matrix.mulVec_injective_iff_isUnit.mp ((injective_iff_map_eq_zero (Matrix.mulVecLin _)).mpr fun y hy => ?_)
    simpa using (hiff y 0).mp (by simpa using hy)
  · refine Matrix.ext_of_mulVec_single fun k => ?_
    have hk := (hiff (-(toMatrix φ n w x).mulVec (Pi.single k 1)) (Pi.single k 1)).mpr (neg_add_cancel _)
    rw [Matrix.mulVec_neg, neg_add_eq_zero] at hk
    rw [← Matrix.mulVec_mulVec, hk]

/-- Without an answer there is a nonzero vector that `A` annihilates. -/
theorem solve_none (h : poly ∈ Config.fieldPolys) {n w : Nat} {a c : Machine.Matrix} (ha : hasShape n n a = true)
    (hc : hasShape n w c = true) (hx : solve poly n a c = none) : ¬ IsUnit (toMatrix φ n n a) := by
  have haug := augment_shape n n w a c ha hc
  rw [solve_eq_map, Option.map_eq_none_iff] at hx
  obtain ⟨v, hann, hne, hv⟩ := eliminateFrom_none (K := K) φ h n 0 _ haug (by omega) (by omega) (reduced_zero _) hx
  have hsplit : v = Fin.append (fun j => v (Fin.castAdd w j)) 0 := by
    conv_lhs => rw [← Fin.append_castAdd_natAdd (f := v)]
    congr 1
    ext k
    exact hv _ (by simp)
  rw [annihilates_iff_mulVec φ haug, hsplit, augment_mulVec φ ha hc, Matrix.mulVec_zero, add_zero] at hann
  intro hunit
  have hinj := Matrix.mulVec_injective_iff_isUnit.mpr hunit
  have hzero := hinj (hann.trans (Matrix.mulVec_zero _).symm)
  refine hne (hsplit.trans (funext fun j => ?_))
  rw [hzero]
  exact Fin.addCases (fun i => Fin.append_left ..) (fun k => Fin.append_right ..) j

/-- Elimination answers exactly when `A` is invertible. -/
theorem solve_isSome_iff (h : poly ∈ Config.fieldPolys) {n w : Nat} {a c : Machine.Matrix} (ha : hasShape n n a = true)
    (hc : hasShape n w c = true) : (solve poly n a c).isSome ↔ IsUnit (toMatrix φ n n a) := by
  cases hx : solve poly n a c with
  | none => exact iff_of_false Bool.false_ne_true (solve_none φ h ha hc hx)
  | some x => exact iff_of_true rfl (solve_some φ h ha hc hx).1

/-- A solution of `A · Y = C` is what elimination answers, `A` being invertible. -/
theorem solve_eq_some (h : poly ∈ Config.fieldPolys) {n w : Nat} {a c y : Machine.Matrix} (ha : hasShape n n a = true)
    (hc : hasShape n w c = true) (hy : hasShape n w y = true) (hunit : IsUnit (toMatrix φ n n a))
    (hmul : toMatrix φ n n a * toMatrix φ n w y = toMatrix φ n w c) : solve poly n a c = some y := by
  obtain ⟨x, hx⟩ := Option.isSome_iff_exists.mp ((solve_isSome_iff φ h ha hc).mpr hunit)
  have hmul' := (solve_some φ h ha hc hx).2
  have hdet := (Matrix.isUnit_iff_isUnit_det _).mp hunit
  have hxy : toMatrix φ n w x = toMatrix φ n w y := by
    rw [← Matrix.nonsing_inv_mul_cancel_left _ (toMatrix φ n w x) hdet, hmul', ← hmul,
      Matrix.nonsing_inv_mul_cancel_left _ _ hdet]
  rw [hx, toMatrix_injective φ (solve_shape poly n w a c x ha hc hx) hy hxy]

end

/-! ### Settled: elimination -/

/-- Settles O30: elimination answers when `A` is a unit over the field, and a solution is what it answers. -/
theorem eliminationSolvesExactlyTheInvertible : Obligations.EliminationSolvesExactlyTheInvertible := by
  intro poly h n w a c ha hc
  obtain ⟨K, _, ⟨φ⟩⟩ := exists_gfField h
  rw [invertible_iff_isUnit φ]
  refine ⟨fun hunit => ?_, fun hunit => Option.not_isSome_iff_eq_none.mp (mt (solve_isSome_iff φ h ha hc).mp hunit)⟩
  obtain ⟨x, hx⟩ := Option.isSome_iff_exists.mp ((solve_isSome_iff φ h ha hc).mpr hunit)
  refine ⟨x, hx, solve_shape poly n w a c x ha hc hx, (matMul_eq_iff φ hc).mpr (solve_some φ h ha hc hx).2, fun y hy hmul => ?_⟩
  have hyx := solve_eq_some φ h ha hc hy hunit ((matMul_eq_iff φ hc).mp hmul)
  exact Option.some.inj (hyx.symm.trans hx)

end Sys2Proof.Galois
end

section
/-!
PROOFS for 43_has_rs.md: the cases of HAS_PAGE (R238 to R245, R249) and HAS_CLEAR (R246), each as an equation of the next state.
-/

namespace Sys2Proof.Machine

section
variable (poly : BitVec 9) (gen : Fin 92 → Fin 32 → Byte) (s : State)

/-! ### The cases of HAS_PAGE -/

theorem hasPageWith_dummy (h : pageHeader s = Config.dummyMarker) :
    hasPageWith poly gen s = endOk .hasPage { s with result := 3 } := by
  rw [hasPageWith, if_pos h, endPage_eq]

theorem hasPageWith_badPid (hd : pageHeader s ≠ Config.dummyMarker)
    (hpid : headerPid (pageHeader s) = 0 ∨ 92 < headerPid (pageHeader s)) :
    hasPageWith poly gen s = endError .hasPage .malformedHeader s := by
  rw [hasPageWith, if_neg hd, if_pos hpid, raise_eq _ _ _ (by decide)]

theorem hasPageWith_badType (hd : pageHeader s ≠ Config.dummyMarker) (hlo : 1 ≤ headerPid (pageHeader s))
    (hhi : headerPid (pageHeader s) ≤ 92) (hmt : headerMt (pageHeader s) ≠ 1) :
    hasPageWith poly gen s = endError .hasPage .unsupportedMsgType s := by
  have hpid : ¬ (headerPid (pageHeader s) = 0 ∨ Config.pidMax < headerPid (pageHeader s)) :=
    not_or.mpr ⟨Nat.one_le_iff_ne_zero.mp hlo, hhi.not_gt⟩
  rw [hasPageWith, if_neg hd, if_neg hpid, if_pos hmt, raise_eq _ _ _ (by decide)]

/-- What HAS_PAGE can do with a valid page: the first three of its cases are those of the header checks. -/
theorem hasPageWith_valid (hv : ValidPage s) :
    (¬ StoringEnabled s ∧ hasPageWith poly gen s = endOk .hasPage
      { s with result := 2, lastMid := headerMid (pageHeader s), midValid := true }) ∨
    (StoringEnabled s ∧ (storeAfter s).length < headerMs (pageHeader s) ∧
      hasPageWith poly gen s = endOk .hasPage { stored s with result := 0 }) ∨
    (StoringEnabled s ∧ headerMs (pageHeader s) ≤ (storeAfter s).length ∧
      ((recoveredMessage poly gen (headerMs (pageHeader s)) ((storeAfter s).take (headerMs (pageHeader s))) = none ∧
          hasPageWith poly gen s = endError .hasPage .matrixNotInvertible
            { stored s with storeEn := false, store := [], lastMs := 0 }) ∨
        ∃ m, recoveredMessage poly gen (headerMs (pageHeader s)) ((storeAfter s).take (headerMs (pageHeader s))) = some m ∧
          hasPageWith poly gen s = endOk .hasPage { stored s with
            storeEn := false, buf := s.buf.writeBytes 0 m.flatten, len := BitVec.ofNat 16 (424 * headerMs (pageHeader s)),
            pos := 0, mark := 0, result := 1 })) := by
  obtain ⟨hd, hlo, hhi, hmt⟩ := hv
  rcases hasPageWith_cases poly gen s with ⟨hd', -⟩ | ⟨-, hpid, -⟩ | ⟨-, -, -, hmt', -⟩ | ⟨-, h⟩ | ⟨-, h⟩ | ⟨-, h⟩
  · exact absurd hd' hd
  · exact absurd hhi (by simp only [Config.pidMax]; omega)
  · exact absurd hmt hmt'
  · exact .inl h
  · exact .inr (.inl h)
  · exact .inr (.inr h)

theorem hasPageWith_ignored (hv : ValidPage s) (hen : ¬ StoringEnabled s) :
    hasPageWith poly gen s = endOk .hasPage { s with result := 2, lastMid := headerMid (pageHeader s), midValid := true } := by
  rcases hasPageWith_valid poly gen s hv with ⟨-, he⟩ | ⟨hen', -⟩ | ⟨hen', -⟩
  · exact he
  · exact absurd hen' hen
  · exact absurd hen' hen

theorem hasPageWith_stored (hv : ValidPage s) (hen : StoringEnabled s)
    (hfew : (storeAfter s).length < headerMs (pageHeader s)) :
    hasPageWith poly gen s = endOk .hasPage { stored s with result := 0 } := by
  rcases hasPageWith_valid poly gen s hv with ⟨hen', -⟩ | ⟨-, -, he⟩ | ⟨-, hall, -⟩
  · exact absurd hen hen'
  · exact he
  · exact absurd hfew hall.not_gt

theorem hasPageWith_failed (hv : ValidPage s) (hen : StoringEnabled s)
    (hall : headerMs (pageHeader s) ≤ (storeAfter s).length)
    (hr : recoveredMessage poly gen (headerMs (pageHeader s)) ((storeAfter s).take (headerMs (pageHeader s))) = none) :
    hasPageWith poly gen s = endError .hasPage .matrixNotInvertible
      { stored s with storeEn := false, store := [], lastMs := 0 } := by
  rcases hasPageWith_valid poly gen s hv with ⟨hen', -⟩ | ⟨-, hfew, -⟩ | ⟨-, -, ⟨-, he⟩ | ⟨m, hm, -⟩⟩
  · exact absurd hen hen'
  · exact absurd hfew hall.not_gt
  · exact he
  · cases hr.symm.trans hm

theorem hasPageWith_recovered (hv : ValidPage s) (hen : StoringEnabled s)
    (hall : headerMs (pageHeader s) ≤ (storeAfter s).length) {m : Matrix}
    (hr : recoveredMessage poly gen (headerMs (pageHeader s)) ((storeAfter s).take (headerMs (pageHeader s))) = some m) :
    hasPageWith poly gen s = endOk .hasPage { stored s with
      storeEn := false, buf := s.buf.writeBytes 0 m.flatten, len := BitVec.ofNat 16 (424 * headerMs (pageHeader s)),
      pos := 0, mark := 0, result := 1 } := by
  rcases hasPageWith_valid poly gen s hv with ⟨hen', -⟩ | ⟨-, hfew, -⟩ | ⟨-, -, ⟨hm, -⟩ | ⟨m', hm, he⟩⟩
  · exact absurd hen hen'
  · exact absurd hfew hall.not_gt
  · cases hr.symm.trans hm
  · cases hr.symm.trans hm
    exact he

end

/-- A page is stored with storing enabled (R241, R242). -/
theorem stored_eq (s : State) (hen : StoringEnabled s) : stored s = { s with
    store := storeAfter s, storeEn := true, lastMs := BitVec.ofNat 6 (headerMs (pageHeader s)),
    lastMid := headerMid (pageHeader s), midValid := true } := by
  have hflag : (if isMessageChange (headerMid (pageHeader s)) s then true else s.storeEn) = true := by
    split
    · rfl
    · next hsame => exact hen.resolve_left hsame
  rw [stored, hflag]

/-- There is a message-id change exactly when there was no valid page or the last one had another message id (R241). -/
theorem isMessageChange_iff (mid : BitVec 5) (s : State) :
    isMessageChange mid s = true ↔ s.midValid = false ∨ s.lastMid ≠ mid := by
  simp [isMessageChange, eq_comm (a := mid)]

/-- After a message-id change the page is the only one stored (R241, R242). -/
theorem storeAfter_of_change (s : State) (h : isMessageChange (headerMid (pageHeader s)) s = true) :
    storeAfter s = [(headerPid (pageHeader s), payloadInPageIn s)] := by
  rw [storeAfter, storeBefore, if_pos h]
  rfl

/-! ### Settled: the commands -/

/-- Settles O35. -/
theorem hasPageDiscardsDummyPages : Obligations.HasPageDiscardsDummyPages := fun s h =>
  congrArg Host.Outcome.next (hasPageWith_dummy _ _ s h)

/-- Settles O36. -/
theorem hasPageRejectsBadHeaders : Obligations.HasPageRejectsBadHeaders := fun s hd =>
  ⟨fun hpid => congrArg Host.Outcome.next (hasPageWith_badPid _ _ s hd hpid),
    fun hlo hhi hmt => congrArg Host.Outcome.next (hasPageWith_badType _ _ s hd hlo hhi hmt)⟩

/-- Settles O37: the bookkeeping of R241 writes what LAST_MID and MID_VALID hold already. -/
theorem hasPageIgnoresWhileStoringIsDisabled : Obligations.HasPageIgnoresWhileStoringIsDisabled := by
  intro s hv hvalid hmid hen
  have hdisabled : ¬ StoringEnabled s := by
    rw [StoringEnabled, isMessageChange_iff, hvalid, hen]
    simp [hmid]
  refine congrArg Host.Outcome.next ((hasPageWith_ignored _ _ s hv hdisabled).trans ?_)
  rw [← hmid, ← hvalid]

/-- Settles O38: the store is a put of the page, and what a put does to the map is known. -/
theorem hasPageStoresAValidPage : Obligations.HasPageStoresAValidPage := by
  intro s hinv hv hen hfew
  obtain ⟨-, hstore, -⟩ := hinv
  refine ⟨_, congrArg Host.Outcome.next (hasPageWith_stored _ _ s hv hen hfew), ?_, fun q => mapGet_mapPut _ q _ _,
    length_mapPut _ _ _ _ _ (storeBefore_wf s hstore).1⟩
  rw [stored_eq s hen]
  rfl

/-- Settles O39: the invariant bounds the store, and after a message-id change it starts from nothing. -/
theorem messageChangeClearsTheStore : Obligations.MessageChangeClearsTheStore := by
  intro s t hinv h
  cases h
  obtain ⟨-, ⟨-, -, hcount, -, -⟩, -⟩ := inv_hasPageWith Config.gfPoly Config.genMatrix s hinv
  refine ⟨hcount, fun hv hother => ?_⟩
  have hchange := (isMessageChange_iff (headerMid (pageHeader s)) s).mpr hother
  have halone := storeAfter_of_change s hchange
  rcases hasPageWith_valid Config.gfPoly Config.genMatrix s hv with ⟨hen, -⟩ | ⟨-, -, he⟩ | ⟨-, -, ⟨-, he⟩ | ⟨m, -, he⟩⟩
  · exact absurd (.inl hchange) hen
  all_goals rw [he]
  · exact ⟨rfl, rfl, .inl halone⟩
  · exact ⟨rfl, rfl, .inr rfl⟩
  · exact ⟨rfl, rfl, .inl halone⟩

/-- Settles O41: PS_STATUS is a view of the page store, which is as after reset. -/
theorem hasClearEmptiesTheStore : Obligations.HasClearEmptiesTheStore := by
  have hreset : psStatusWord State.reset = 0x00000040 := by decide
  exact ⟨rfl, fun s => ⟨_, exec_hasClear s, rfl, hreset, rfl⟩⟩

end Sys2Proof.Machine
end

section
/-!
PROOFS for 43_has_rs.md R243 to R250: recovery. The selected pages are the rows of a system of equations; whether it is solvable
and what solves it depends only on which pages are among them.
-/

namespace Sys2Proof.Galois

open Sys2Proof.Machine hiding Field Matrix Invertible

/-! ### The selected pages as a system of equations (R243) -/

section
variable {gen : Fin 92 → Fin 32 → Byte} {ms : Nat} {pages : List (Nat × List Byte)}

theorem selectionMatrix_shape (hlen : pages.length = ms) : hasShape ms ms (selectionMatrix gen ms pages) = true :=
  (hasShape_iff ms ms _).mpr ⟨by rw [selectionMatrix, List.length_map, hlen],
    List.forall_mem_map.mpr fun _ _ => generatorRow_length ..⟩

theorem payloads_shape (hlen : pages.length = ms) (hbytes : ∀ p ∈ pages, p.2.length = 53) :
    hasShape ms 53 (pages.map Prod.snd) = true :=
  (hasShape_iff ms 53 _).mpr ⟨by rw [List.length_map, hlen], List.forall_mem_map.mpr hbytes⟩

theorem selectionMatrix_getD {i : Nat} (h : i < pages.length) :
    (selectionMatrix gen ms pages).getD i [] = generatorRow gen ms pages[i].1 := by
  simp [selectionMatrix, List.getD_eq_getElem?_getD, h]

theorem payloads_getD {i : Nat} (h : i < pages.length) : (pages.map Prod.snd).getD i [] = pages[i].2 := by
  simp [List.getD_eq_getElem?_getD, h]

end

section
variable {poly : BitVec 9} {K : Type} [Field K] (φ : GfModel poly K) {gen : Fin 92 → Fin 32 → Byte} {ms : Nat}
  {pages : List (Nat × List Byte)}

theorem recoveredMessage_eq_solve : recoveredMessage poly gen ms pages =
    solve poly ms (selectionMatrix gen ms pages) (pages.map Prod.snd) := rfl

/-- A matrix is invertible when its rows annihilate no vector but 0. -/
theorem isUnit_iff_annihilates {n : Nat} {a : Machine.Matrix} (ha : hasShape n n a = true) :
    IsUnit (toMatrix φ n n a) ↔ ∀ v : Fin n → K, Annihilates φ a v → v = 0 := by
  simp only [annihilates_iff_mulVec φ ha]
  exact Matrix.mulVec_injective_iff_isUnit.symm.trans (injective_iff_map_eq_zero (Matrix.mulVecLin (toMatrix φ n n a)))

/-- `A · X = C` is one equation for each selected page and byte. -/
theorem mul_eq_payloads_iff (hlen : pages.length = ms) (X : Matrix (Fin ms) (Fin 53) K) :
    toMatrix φ ms ms (selectionMatrix gen ms pages) * X = toMatrix φ ms 53 (pages.map Prod.snd) ↔
      ∀ p ∈ pages, ∀ k : Fin 53, rowDot φ (generatorRow gen ms p.1) (X.col k) = φ.val (p.2.getD k 0) := by
  subst hlen
  rw [← Matrix.ext_iff, List.forall_mem_iff_getElem, Fin.forall_iff]
  refine forall₂_congr fun i hi => forall_congr' fun k => ?_
  rw [← selectionMatrix_getD hi, ← payloads_getD hi]
  rfl

theorem recoveredMessage_isSome_iff (h : poly ∈ Config.fieldPolys) (hlen : pages.length = ms)
    (hbytes : ∀ p ∈ pages, p.2.length = 53) :
    (recoveredMessage poly gen ms pages).isSome ↔ IsUnit (toMatrix φ ms ms (selectionMatrix gen ms pages)) :=
  solve_isSome_iff φ h (selectionMatrix_shape hlen) (payloads_shape hlen hbytes)

include φ in
/-- Both whether `A` is invertible and the equations speak only of which pages are selected. -/
theorem recoveredMessage_perm (h : poly ∈ Config.fieldPolys) {pages' : List (Nat × List Byte)} (hlen : pages.length = ms)
    (hbytes : ∀ p ∈ pages, p.2.length = 53) (hperm : pages.Perm pages') {x : Machine.Matrix}
    (hx : recoveredMessage poly gen ms pages = some x) : recoveredMessage poly gen ms pages' = some x := by
  have ha := selectionMatrix_shape (gen := gen) hlen
  have hc := payloads_shape hlen hbytes
  have hlen' : pages'.length = ms := by rw [← hperm.length_eq, hlen]
  have hbytes' : ∀ p ∈ pages', p.2.length = 53 := fun p hp => hbytes p (hperm.mem_iff.mpr hp)
  have hrows : (selectionMatrix gen ms pages).Perm (selectionMatrix gen ms pages') := hperm.map _
  rw [recoveredMessage_eq_solve] at hx ⊢
  obtain ⟨hunit, hmul⟩ := solve_some φ h ha hc hx
  refine solve_eq_some φ h (selectionMatrix_shape hlen') (payloads_shape hlen' hbytes')
    (solve_shape poly ms 53 _ _ x ha hc hx) ?_ ?_
  · rw [isUnit_iff_annihilates φ (selectionMatrix_shape hlen')]
    exact fun v hv => (isUnit_iff_annihilates φ ha).mp hunit v fun row hr => hv row (hrows.mem_iff.mp hr)
  · rw [mul_eq_payloads_iff φ hlen']
    exact fun p hp => (mul_eq_payloads_iff φ hlen _).mp hmul p (hperm.mem_iff.mpr hp)

theorem recoveredMessage_isSome_iff_invertible (h : poly ∈ Config.fieldPolys) (hlen : pages.length = ms)
    (hbytes : ∀ p ∈ pages, p.2.length = 53) :
    (recoveredMessage poly gen ms pages).isSome ↔ Machine.Invertible poly ms (selectionMatrix gen ms pages) := by
  obtain ⟨K, _, ⟨φ⟩⟩ := exists_gfField h
  rw [recoveredMessage_isSome_iff φ h hlen hbytes, invertible_iff_isUnit φ]

/-- A recovered message `M` has a row of 53 bytes for each page, and `A · M = C` (R243). -/
theorem matMul_recoveredMessage (h : poly ∈ Config.fieldPolys) (hlen : pages.length = ms)
    (hbytes : ∀ p ∈ pages, p.2.length = 53) {m : Machine.Matrix} (hm : recoveredMessage poly gen ms pages = some m) :
    hasShape ms 53 m = true ∧ matMul poly ms ms 53 (selectionMatrix gen ms pages) m = pages.map Prod.snd := by
  obtain ⟨K, _, ⟨φ⟩⟩ := exists_gfField h
  have ha := selectionMatrix_shape (gen := gen) hlen
  have hc := payloads_shape hlen hbytes
  exact ⟨solve_shape poly ms 53 _ _ m ha hc hm, (matMul_eq_iff φ hc).mpr (solve_some φ h ha hc hm).2⟩

/-- Page by page, `A` times the message is what the pages hold (R247). -/
theorem matMul_selectionMatrix (message : Machine.Matrix) (hlen : pages.length = ms)
    (hpages : ∀ p ∈ pages, p.2 = encodedPage poly gen ms message p.1) :
    matMul poly ms ms 53 (selectionMatrix gen ms pages) message = pages.map Prod.snd := by
  refine List.ext_getElem (by simp [matMul, hlen]) fun i hi hi' => ?_
  have hip : i < pages.length := by simpa using hi'
  rw [List.getElem_map, hpages _ (List.getElem_mem hip)]
  simp only [matMul, encodedPage, List.getElem_map, List.getElem_range]
  refine List.map_congr_left fun k _ => gfSum_congr fun j _ => ?_
  rw [entry, selectionMatrix_getD hip]

theorem not_isUnit_of_zero_row (hlen : pages.length = ms) {p : Nat × List Byte} (hp : p ∈ pages)
    (hrow : generatorRow gen ms p.1 = List.replicate ms 0) :
    ¬ IsUnit (toMatrix φ ms ms (selectionMatrix gen ms pages)) := by
  subst hlen
  obtain ⟨i, hi, rfl⟩ := List.mem_iff_getElem.mp hp
  rw [Matrix.isUnit_iff_isUnit_det, Matrix.det_eq_zero_of_row_eq_zero ⟨i, hi⟩ fun j => ?_]
  · exact not_isUnit_zero
  · rw [toMatrix_apply, entry, selectionMatrix_getD hi, hrow, List.getD_replicate _ j.isLt, φ.val_zero]

theorem not_isUnit_of_equal_rows {n i j : Nat} {a : Machine.Matrix} (hij : i < j) (hj : j < n)
    (hrow : a.getD i [] = a.getD j []) : ¬ IsUnit (toMatrix φ n n a) := by
  have hne : (⟨i, hij.trans hj⟩ : Fin n) ≠ ⟨j, hj⟩ := by simpa using hij.ne
  have heq : toMatrix φ n n a ⟨i, hij.trans hj⟩ = toMatrix φ n n a ⟨j, hj⟩ := by
    ext k
    simp only [toMatrix_apply, entry, hrow]
  rw [Matrix.isUnit_iff_isUnit_det, Matrix.det_zero_of_row_eq hne heq]
  exact not_isUnit_zero

end

/-! ### Settled: recovery from a selection -/

/-- Settles O31: the message solves the equations, and `A` being invertible it is what elimination answers. -/
theorem recoveryIsSelectionInvariant : Obligations.RecoveryIsSelectionInvariant := by
  intro poly h gen ms message pages _ _ hmessage hlen _ hpages hinv
  obtain ⟨K, _, ⟨φ⟩⟩ := exists_gfField h
  have hbytes : ∀ p ∈ pages, p.2.length = 53 := fun p hp => by
    obtain ⟨-, -, hp2⟩ := hpages p hp
    simp [hp2, encodedPage]
  have hc := payloads_shape hlen hbytes
  exact solve_eq_some φ h (selectionMatrix_shape hlen) hc hmessage ((invertible_iff_isUnit φ _).mp hinv)
    ((matMul_eq_iff φ hc).mp (matMul_selectionMatrix message hlen fun p hp => (hpages p hp).2.2))

/-- Settles O32: what one order recovers the other does, and the other way round. -/
theorem recoveryIgnoresThePageOrder : Obligations.RecoveryIgnoresThePageOrder := by
  intro poly h gen ms pages pages' hlen hbytes hperm
  obtain ⟨K, _, ⟨φ⟩⟩ := exists_gfField h
  exact Option.ext fun x => ⟨recoveredMessage_perm φ h hlen hbytes hperm,
    recoveredMessage_perm φ h (hperm.length_eq.symm.trans hlen) (fun p hp => hbytes p (hperm.mem_iff.mpr hp)) hperm.symm⟩

/-- Settles O33: a zero row or two equal rows make the determinant 0. -/
theorem degenerateRowsAreNotRecovered : Obligations.DegenerateRowsAreNotRecovered := by
  intro poly h gen ms pages hlen hbytes hrows
  obtain ⟨K, _, ⟨φ⟩⟩ := exists_gfField h
  refine Option.not_isSome_iff_eq_none.mp (mt (recoveredMessage_isSome_iff φ h hlen hbytes).mp ?_)
  rcases hrows with ⟨p, hp, hrow⟩ | ⟨i, j, hij, hj, hrow⟩
  · exact not_isUnit_of_zero_row φ hlen hp hrow
  · exact not_isUnit_of_equal_rows φ hij hj hrow

/-! ### The message in BUF (R244) -/

/-- The bytes of row `i` begin at byte `c · i` of the rows one after the other. -/
theorem flatten_getD {r c : Nat} {m : Machine.Matrix} (hm : hasShape r c m = true) {i k : Nat} (hi : i < r) (hk : k < c) :
    m.flatten.getD (c * i + k) 0 = entry m i k := by
  rw [hasShape_iff] at hm
  obtain ⟨rfl, hw⟩ := hm
  induction m generalizing i with
  | nil => exact absurd hi (Nat.not_lt_zero i)
  | cons row rows ih =>
    have hrow : row.length = c := hw row (List.mem_cons_self ..)
    rw [List.flatten_cons]
    cases i with
    | zero => rw [Nat.mul_zero, Nat.zero_add, List.getD_append _ _ _ _ (by omega)]; rfl
    | succ i =>
      have hoff : c * (i + 1) + k - row.length = c * i + k := by rw [hrow, Nat.mul_succ]; omega
      have hbeyond : row.length ≤ c * (i + 1) + k := by rw [hrow, Nat.mul_succ]; omega
      have hrows : ∀ q ∈ rows, q.length = c := fun q hq => hw q (List.mem_cons_of_mem _ hq)
      rw [List.getD_append_right _ _ _ _ hbeyond, hoff]
      exact ih hrows (Nat.lt_of_succ_lt_succ hi)

/-- Byte `53 i + k` of BUF receives `M[i][k]` (R244). -/
theorem read_writeBytes_flatten (b : Memory) {ms : Nat} {m : Machine.Matrix} (hm : hasShape ms 53 m = true) {i k : Nat}
    (hi : i < ms) (hk : k < 53) : (b.writeBytes 0 m.flatten).read (53 * i + k) = entry m i k := by
  rw [read_writeBytes, flatten_length ms 53 m hm, if_pos (by omega), Nat.sub_zero, flatten_getD hm hi hk]

theorem read_writeBytes_flatten_beyond (b : Memory) {ms : Nat} {m : Machine.Matrix} (hm : hasShape ms 53 m = true) {a : Nat}
    (ha : 53 * ms ≤ a) : (b.writeBytes 0 m.flatten).read a = b.read a := by
  rw [read_writeBytes, flatten_length ms 53 m hm, if_neg (by omega)]

/-- The hardware's polynomial is one of the thirty (log 9). -/
theorem gfPoly_mem_fieldPolys : Config.gfPoly ∈ Config.fieldPolys := by
  have hlt : Config.gfPolyIndex.val < Config.fieldPolys.length := Config.gfPolyIndex.isLt
  rw [Config.gfPoly, List.getD_eq_getElem _ _ hlt]
  exact List.getElem_mem hlt

/-- Settles O40: the attempt answers a message exactly when `A` is invertible, and what it answers solves the equations. -/
theorem hasPageRecoversTheMessage : Obligations.HasPageRecoversTheMessage := by
  refine ⟨fun poly h gen s hinv hv hen hall => ?_, gfPoly_mem_fieldPolys, fun _ => rfl⟩
  obtain ⟨-, hstore, -⟩ := hinv
  intro ms pages
  have hlen : pages.length = ms := List.length_take_of_le hall
  have hbytes : ∀ p ∈ pages, p.2.length = 53 := fun p hp => (storeAfter_wf s hstore hv).2 p (List.mem_of_mem_take hp)
  rw [← recoveredMessage_isSome_iff_invertible h hlen hbytes]
  cases hr : recoveredMessage poly gen ms pages with
  | none =>
    refine ⟨nofun, fun _ => ?_⟩
    rw [hasPageWith_failed poly gen s hv hen hall hr, stored_eq s hen]
  | some m =>
    obtain ⟨hshape, hmul⟩ := matMul_recoveredMessage h hlen hbytes hr
    refine ⟨fun _ => ⟨s.buf.writeBytes 0 m.flatten, ?_, fun i hi k hk => ?_,
      fun a => read_writeBytes_flatten_beyond s.buf hshape⟩, fun hnot => absurd rfl hnot⟩
    · rw [hasPageWith_recovered poly gen s hv hen hall hr, stored_eq s hen]
    · rw [← hmul, entry_matMul _ _ _ _ _ hi hk]
      exact gfSum_congr fun j hj => by rw [read_writeBytes_flatten s.buf hshape hj hk]

end Sys2Proof.Galois
end

section
/-!
PROOFS for 60_exceptions.md: how a command ends and what its end writes (R281, R282), what can clear ERR (R282), and that every step
answers a next state (R286, R288, R294).
-/

namespace Sys2Proof.Machine

/-! ### How every command ends (R281, R282; 43_has_rs.md R245) -/

/-- The three ends of a command: with OK and ERR as it was; with an error code and STATUS alone written (R281); or, of HAS_PAGE only,
with MATRIX_NOT_INVERTIBLE, which discards the page store as well (R245). -/
inductive CommandEnd (i : Instr) (s : State) : State → Prop
  | ok (u : State) (herr : u.err = s.err) : CommandEnd i s (endOk i u)
  | raised (c : Code) (hok : c ≠ .ok) (hmatrix : c ≠ .matrixNotInvertible) : CommandEnd i s (endError i c s)
  | notInvertible (hpage : i = .hasPage) : CommandEnd i s (endError i .matrixNotInvertible
      { s with store := [], storeEn := false, lastMs := 0, lastMid := headerMid (pageHeader s), midValid := true })

/-- HAS_PAGE ends in one of the three ways, for every polynomial and matrix: its cases of R283 in their order. -/
theorem hasPageWith_commandEnd (poly : BitVec 9) (gen : Fin 92 → Fin 32 → Byte) (s : State) :
    CommandEnd .hasPage s (hasPageWith poly gen s) := by
  rcases hasPageWith_cases poly gen s with
    ⟨-, he⟩ | ⟨-, -, he⟩ | ⟨-, -, -, -, he⟩ | ⟨-, -, he⟩ | ⟨-, -, -, he⟩ | ⟨-, -, -, ⟨-, he⟩ | ⟨_, -, he⟩⟩
  all_goals rw [he]
  · exact .ok _ rfl
  · exact .raised _ (by decide) (by decide)
  · exact .raised _ (by decide) (by decide)
  · exact .ok _ rfl
  · exact .ok _ rfl
  · exact .notInvertible rfl
  · exact .ok _ rfl

theorem commandEnd_of_streamEnd {i : Instr} {s t : State} (h : StreamEnd i s t) : CommandEnd i s t := by
  cases h with
  | ok => exact .ok _ rfl
  | short => exact .raised _ (by decide) (by decide)

/-- Every command ends in one of the three ways. -/
theorem exec_commandEnd {i : Instr} {s t : State} (h : exec i s = .next t) : CommandEnd i s t := by
  by_cases hfam : familyOf i = .has
  · cases i with
    | hasPage => cases h; exact hasPageWith_commandEnd _ _ s
    | hasClear => cases (exec_hasClear s).symm.trans h; exact .ok _ rfl
    | _ => cases hfam
  · exact commandEnd_of_streamEnd (exec_streamEnd i s t hfam h)

theorem CommandEnd.lastop {i : Instr} {s t : State} (h : CommandEnd i s t) : t.lastop = i.opcode := by
  cases h with
  | ok => rfl
  | raised => rfl
  | notInvertible => rfl

theorem CommandEnd.err_of_error {i : Instr} {s t : State} (h : CommandEnd i s t) (hcode : t.code ≠ .ok) : t.err = true := by
  cases h with
  | ok => exact absurd rfl hcode
  | raised => rfl
  | notInvertible => rfl

theorem CommandEnd.err_of_ok {i : Instr} {s t : State} (h : CommandEnd i s t) (hcode : t.code = .ok) : t.err = s.err := by
  cases h with
  | ok u herr => exact herr
  | raised c hok => exact absurd hcode hok
  | notInvertible => cases hcode

/-- Settles O24: the error ends of a command, read off the three; an illegal word has an end of its own. -/
theorem raisingChangesOnlyStatus : Obligations.RaisingChangesOnlyStatus := by
  refine ⟨fun i s t h hok hmatrix => ?_, fun i s t hpage h hmatrix => ?_, fun poly gen s hmatrix => ?_, fun _ => rfl,
    fun s f why hf hdue hill => step_illegal s f why hf hdue hill⟩
  · cases exec_commandEnd h with
    | ok => exact absurd rfl hok
    | raised => rfl
    | notInvertible => exact absurd rfl hmatrix
  · cases exec_commandEnd h with
    | ok => cases hmatrix
    | raised _ _ hne => exact hne hmatrix
    | notInvertible hi => exact hpage hi
  · have hend := hasPageWith_commandEnd poly gen s
    generalize hasPageWith poly gen s = t at hend hmatrix ⊢
    cases hend with
    | ok => cases hmatrix
    | raised _ _ hne => exact absurd hmatrix hne
    | notInvertible => rfl

/-! ### CODE and LASTOP are overwritten (R282) -/

/-- `s` with another CODE and LASTOP. -/
def State.withStatus (s : State) (c : Code) (l : BitVec 8) : State := { s with code := c, lastop := l }

section
variable (s : State) (c : Code) (l : BitVec 8)

theorem finish_withStatus (opc : BitVec 8) (k : Code) : finish opc k (s.withStatus c l) = finish opc k s := rfl

theorem endPage_withStatus (o : BitVec 64) : endPage o (s.withStatus c l) = endPage o s := rfl

theorem noteMessage_withStatus (mid : BitVec 5) : noteMessage mid (s.withStatus c l) = (noteMessage mid s).withStatus c l := by
  simp only [noteMessage_eq]
  rfl

theorem attemptRecovery_withStatus (poly : BitVec 9) (gen : Fin 92 → Fin 32 → Byte) (ms : Nat) :
    attemptRecovery poly gen ms (s.withStatus c l) = attemptRecovery poly gen ms s := by
  have hsel : selectedPages ms (s.withStatus c l) = selectedPages ms s := rfl
  unfold attemptRecovery
  rw [hsel]
  cases recoveredMessage poly gen ms (selectedPages ms s) with
  | none => rfl
  | some m => rfl

theorem acceptPage_withStatus (poly : BitVec 9) (gen : Fin 92 → Fin 32 → Byte) (pid ms : Nat) :
    acceptPage poly gen pid ms (s.withStatus c l) = acceptPage poly gen pid ms s := by
  have hen : (s.withStatus c l).storeEn = s.storeEn := rfl
  have hstore : storePage pid ms (s.withStatus c l) = (storePage pid ms s).withStatus c l := rfl
  have hcount : ((storePage pid ms s).withStatus c l).count = (storePage pid ms s).count := rfl
  simp only [acceptPage, hen, hstore, hcount, endPage_withStatus, attemptRecovery_withStatus]

theorem hasPageWith_withStatus (poly : BitVec 9) (gen : Fin 92 → Fin 32 → Byte) :
    hasPageWith poly gen (s.withStatus c l) = hasPageWith poly gen s := by
  have hheader : pageHeader (s.withStatus c l) = pageHeader s := rfl
  simp only [hasPageWith, raise, hheader, noteMessage_withStatus, acceptPage_withStatus, endPage_withStatus, finish_withStatus]

/-- No command reads CODE or LASTOP, and each overwrites both. -/
theorem exec_withStatus (i : Instr) : exec i (s.withStatus c l) = exec i s := by
  cases i with
  | hasPage => exact congrArg Host.Outcome.next (hasPageWith_withStatus s c l _ _)
  | nop | bcReset | bcRdu | bcRdi | bcRem | bcPos | bcSubr | bcSeek | bcMark | bcRewind | bcReq | fdRds | fdRdsx | fdRdpc
  | hasClear => rfl

/-- What a command that is due completes with does not depend on CODE and LASTOP. -/
theorem step_withStatus (f : InFlight) (hf : s.inflight = some f) (hdue : f.wait = 0 ∨ s.inputs = []) :
    step (s.withStatus c l) = step s := by
  rw [step_completes (s.withStatus c l) f hf hdue, step_completes s f hf hdue]
  cases decode f.word with
  | command i => exact exec_withStatus s c l i
  | illegal => rfl

end

/-! ### What sets ERR, and what clears it (R282) -/

/-- The command a word decodes to has the word's OPC. -/
theorem opcode_of_decode {w : Word} {i : Instr} (h : decode w = .command i) : i.opcode = opcField w := by
  obtain ⟨hopc, -⟩ := Laws.encodedFields_any i
  rw [← hopc, encode_of_decode w i h]

/-- LASTOP and ERR after a completion, legal word or not. -/
theorem step_completion (s t : State) (f : InFlight) (hf : s.inflight = some f) (hdue : f.wait = 0 ∨ s.inputs = [])
    (h : step s = .next t) :
    t.lastop = opcField f.word ∧ (t.code ≠ .ok → t.err = true) ∧ (t.code = .ok → t.err = s.err) := by
  cases hdec : decode f.word with
  | command i =>
    rw [stepRunsTheDecodedCommand s f i hf hdue hdec] at h
    have hend := exec_commandEnd h
    exact ⟨hend.lastop.trans (opcode_of_decode hdec), hend.err_of_error, hend.err_of_ok⟩
  | illegal why =>
    cases (step_illegal s f why hf hdue hdec).symm.trans h
    exact ⟨rfl, fun _ => rfl, nofun⟩

/-- The offset of a register in the host window (20_memory.md R71). -/
def Reg.offset : Reg → Nat
  | .id => 0x00
  | .status => 0x04
  | .ctrl => 0x08
  | .cmd => 0x0C
  | .resultLo => 0x10
  | .resultHi => 0x14
  | .fdx => 0x18
  | .pos => 0x1C
  | .len => 0x20
  | .mark => 0x24
  | .psStatus => 0x28
  | .param => 0x2C

/-- A register stands at one offset only. -/
theorem offset_of_regAt {n : Nat} {r : Reg} (h : regAt n = some r) : n = r.offset := by
  unfold regAt at h
  split at h <;> cases h
  all_goals rfl

/-- Of all performed writes only a 1 to STATUS bit 16 and a soft reset clear ERR. -/
theorem writeTarget_clears_err {size : Nat} {v : Word} {s : State} {t : Target} (hs : s.err = true)
    (h : (writeTarget size v s t).err = false) :
    (t = .reg .status ∧ v.getLsbD 16 = true) ∨ (t = .reg .ctrl ∧ v.getLsbD 0 = true) := by
  have hkept : ¬ s.err = false := by simp [hs]
  cases t with
  | pageIn a => exact absurd h hkept
  | buf a => exact absurd h hkept
  | reg r =>
    cases r with
    | status => exact .inl ⟨rfl, by simpa [writeTarget, clearSticky, hs] using h⟩
    | ctrl =>
      refine .inr ⟨rfl, ?_⟩
      by_contra hclear
      rw [writeTarget, if_neg hclear] at h
      exact hkept h
    | id | cmd | resultLo | resultHi | fdx | pos | len | mark | psStatus | param => exact absurd h hkept

theorem busRead_err (off size : Nat) (s : State) : (busRead off size s).err = s.err := by
  rcases busRead_cases off size s with ⟨-, he⟩ | ⟨t, -, ⟨-, -, he⟩ | ⟨-, he⟩⟩
  all_goals rw [he]; rfl

/-- Of all host writes only those two clear ERR, each at its register's own address and size. -/
theorem busWrite_clears_err {off : BitVec 13} {size : Nat} {v : Word} {s : State} (hs : s.err = true)
    (h : (busWrite off.toNat size v s).err = false) :
    size = 4 ∧ ((off = 0x004 ∧ v.getLsbD 16 = true) ∨ (off = 0x008 ∧ v.getLsbD 0 = true)) := by
  have hkept : ¬ s.err = false := by simp [hs]
  rcases busWrite_cases off.toNat size v s with ⟨-, he⟩ | ⟨t, ht, -, ⟨-, -, he⟩ | ⟨-, he⟩⟩
  all_goals rw [he] at h
  · exact absurd h hkept
  · exact absurd h hkept
  · rcases writeTarget_clears_err hs h with ⟨rfl, hv⟩ | ⟨rfl, hv⟩
    · obtain ⟨hreg, hsize⟩ := target_reg _ _ _ ht
      exact ⟨hsize, .inl ⟨BitVec.eq_of_toNat_eq (offset_of_regAt hreg), hv⟩⟩
    · obtain ⟨hreg, hsize⟩ := target_reg _ _ _ ht
      exact ⟨hsize, .inr ⟨BitVec.eq_of_toNat_eq (offset_of_regAt hreg), hv⟩⟩

/-- An input that clears ERR is one of the three of R282. -/
theorem serveInput_clears_err {i : Input} {s : State} (hs : s.err = true) (h : (serveInput i s).err = false) :
    (∃ v, i = .write 0x004 4 v ∧ v.getLsbD 16 = true) ∨ (∃ v, i = .write 0x008 4 v ∧ v.getLsbD 0 = true) ∨ i = .powerOn := by
  cases i with
  | read off size =>
    have hkept : (serveInput (.read off size) s).err = s.err := busRead_err off.toNat size (takeInput s)
    rw [hkept, hs] at h
    cases h
  | write off size v =>
    obtain ⟨rfl, ⟨rfl, hv⟩ | ⟨rfl, hv⟩⟩ := busWrite_clears_err (s := takeInput s) hs h
    · exact .inl ⟨v, rfl, hv⟩
    · exact .inr (.inl ⟨v, rfl, hv⟩)
  | powerOn => exact .inr (.inr rfl)

/-- A step that clears ERR serves an input: an idle step changes nothing, and a completion sets ERR or keeps it. -/
theorem step_clears_err {s t : State} (h : step s = .next t) (hs : s.err = true) (ht : t.err = false) :
    ∃ i rest, s.inputs = i :: rest ∧ t = serveInput i s := by
  rcases step_cases s t h with ⟨-, -, rfl⟩ | ⟨i, rest, ⟨hin, -⟩, he⟩ | ⟨f, hf, hdue, -⟩
  · cases hs.symm.trans ht
  · exact ⟨i, rest, hin, he⟩
  · obtain ⟨-, herror, hok⟩ := step_completion s t f hf hdue h
    by_cases hcode : t.code = .ok
    · cases (hs.symm.trans (hok hcode).symm).trans ht
    · cases (herror hcode).symm.trans ht

/-- Settles O25: what a completion does to STATUS, and which inputs clear ERR. -/
theorem errIsSticky : Obligations.ErrIsSticky := by
  refine ⟨fun s t f hf hdue h => ?_, fun s t h hs ht => ?_⟩
  · obtain ⟨hlastop, herror, hok⟩ := step_completion s t f hf hdue h
    exact ⟨hlastop, herror, hok, fun c l => (step_withStatus s c l f hf hdue).trans h⟩
  · obtain ⟨i, rest, hin, rfl⟩ := step_clears_err h hs ht
    rcases serveInput_clears_err hs ht with ⟨v, rfl, hv⟩ | ⟨v, rfl, hv⟩ | rfl
    · exact .inl ⟨v, rest, hin, hv⟩
    · exact .inr (.inl ⟨v, rest, hin, hv⟩)
    · exact .inr (.inr ⟨rest, hin⟩)

/-! ### Every step answers a next state (R286, R288, R294) -/

theorem step_next (s : State) : ∃ t, step s = .next t := by
  unfold step
  cases nextAction s with
  | idle => exact ⟨s, rfl⟩
  | serve i => exact ⟨_, rfl⟩
  | complete w =>
    cases hdec : decode w with
    | command i => simpa only [hdec] using exec_next i s
    | illegal => exact ⟨raiseIllegal w s, by simp only [hdec]⟩

theorem step_idle (s : State) (hidle : s.inflight = none) (hin : s.inputs = []) : step s = .next s := by
  simp only [step, nextAction, hidle, hin]

theorem busRead_inputs (off size : Nat) (s : State) : (busRead off size s).inputs = s.inputs := by
  rcases busRead_cases off size s with ⟨-, he⟩ | ⟨t, -, ⟨-, -, he⟩ | ⟨-, he⟩⟩
  all_goals rw [he]; rfl

theorem writeTarget_inputs (size : Nat) (v : Word) (s : State) (t : Target) : (writeTarget size v s t).inputs = s.inputs := by
  cases t with
  | pageIn a => rfl
  | buf a => rfl
  | reg r =>
    cases r with
    | ctrl => rw [writeTarget]; split <;> rfl
    | id | status | cmd | resultLo | resultHi | fdx | pos | len | mark | psStatus | param => rfl

theorem busWrite_inputs (off size : Nat) (v : Word) (s : State) : (busWrite off size v s).inputs = s.inputs := by
  rcases busWrite_cases off size v s with ⟨-, he⟩ | ⟨t, -, -, ⟨-, -, he⟩ | ⟨-, he⟩⟩
  all_goals rw [he]
  · rfl
  · rfl
  · exact writeTarget_inputs size v s t

/-- Serving an input takes that input and no other. -/
theorem serveInput_inputs (i : Input) (s : State) : (serveInput i s).inputs = s.inputs.tail := by
  cases i with
  | read off size => exact busRead_inputs off.toNat size (takeInput s)
  | write off size v => exact busWrite_inputs off.toNat size v (takeInput s)
  | powerOn => rfl

/-- A step takes at most the first of the inputs to come. -/
theorem step_inputs {s t : State} (h : step s = .next t) : t.inputs = s.inputs ∨ t.inputs = s.inputs.tail := by
  rcases step_cases s t h with ⟨-, -, rfl⟩ | ⟨i, rest, -, rfl⟩ | ⟨f, -, -, ⟨i, -, hexec⟩ | ⟨-, rfl⟩⟩
  · exact .inl rfl
  · exact .inr (serveInput_inputs i s)
  · obtain ⟨⟨-, -, -, hkept, -⟩, -⟩ := commandsLeaveOtherUnitsAlone i s t hexec
    exact .inl hkept
  · exact .inl rfl

/-- Settles O8. -/
theorem noConditionStopsTheBlock : Obligations.NoConditionStopsTheBlock :=
  ⟨fun s => (step_next s).imp fun _ h => ⟨h, step_inputs h⟩, step_idle⟩

end Sys2Proof.Machine
end

section
/-!
PROOFS for 70_reset_and_hazards.md: every command completes, or is abandoned by a reset, after finitely many host accesses (R321).
-/

namespace Sys2Proof.Machine

/-! ### A completion leaves the block idle (R80) -/

theorem CommandEnd.inflight {i : Instr} {s t : State} (h : CommandEnd i s t) : t.inflight = none := by
  cases h with
  | ok => rfl
  | raised => rfl
  | notInvertible => rfl

/-- A command that is due leaves the block idle in the next step, its word legal or not. -/
theorem step_due_idle (s : State) (f : InFlight) (hf : s.inflight = some f) (hdue : f.wait = 0 ∨ s.inputs = []) :
    ∃ t, step s = .next t ∧ t.inflight = none := by
  cases hdec : decode f.word with
  | command i =>
    obtain ⟨t, hexec⟩ := exec_next i s
    exact ⟨t, (stepRunsTheDecodedCommand s f i hf hdue hdec).trans hexec, (exec_commandEnd hexec).inflight⟩
  | illegal why => exact ⟨_, step_illegal s f why hf hdue hdec, rfl⟩

/-! ### What an access does to the command in flight (R79, R310 to R312) -/

theorem busRead_inflight (off size : Nat) (s : State) : (busRead off size s).inflight = s.inflight := by
  rcases busRead_cases off size s with ⟨-, he⟩ | ⟨t, -, ⟨-, -, he⟩ | ⟨-, he⟩⟩
  all_goals rw [he]; rfl

/-- A write of CTRL keeps the command in flight or, as a soft reset, abandons it (R312). -/
theorem writeCtrl_inflight (size : Nat) (v : Word) (s : State) :
    (writeTarget size v s (.reg .ctrl)).inflight = s.inflight ∨ (writeTarget size v s (.reg .ctrl)).inflight = none := by
  rw [writeTarget]
  split
  · exact .inr rfl
  · exact .inl rfl

/-- While BUSY = 1 no write starts a command: of those not rejected only that of CTRL is performed (R79). -/
theorem busWrite_inflight_of_busy (off size : Nat) (v : Word) (s : State) (hbusy : s.busy = true) :
    (busWrite off size v s).inflight = s.inflight ∨ (busWrite off size v s).inflight = none := by
  rcases busWrite_cases off size v s with ⟨-, he⟩ | ⟨t, -, -, ⟨-, -, he⟩ | ⟨hfree, he⟩⟩
  all_goals rw [he]
  · exact .inl rfl
  · exact .inl rfl
  · rcases hfree with hidle | rfl
    · cases hbusy.symm.trans hidle
    · exact writeCtrl_inflight size v s

/-- An access served while BUSY = 1 leaves the command in flight with one access fewer to wait for (log 2), unless it is a reset. -/
theorem serveInput_inflight_of_busy (i : Input) (s : State) (f : InFlight) (hf : s.inflight = some f) :
    (serveInput i s).inflight = some { f with wait := f.wait - 1 } ∨ (serveInput i s).inflight = none := by
  have htaken : (takeInput s).inflight = some { f with wait := f.wait - 1 } := by rw [takeInput_inflight, hf, Option.map_some]
  rw [← htaken]
  cases i with
  | read off size => exact .inl (busRead_inflight off.toNat size (takeInput s))
  | write off size v =>
    exact busWrite_inflight_of_busy off.toNat size v (takeInput s) (by rw [State.busy, htaken, Option.isSome_some])
  | powerOn => exact .inr rfl

/-! ### Runs (R321) -/

theorem run_succ_of_step {s u : State} (h : step s = .next u) (k : Nat) :
    Host.Core.run Sys2Proof.core (k + 1) s = Host.Core.run Sys2Proof.core k u := by
  simp only [Host.Core.run, Sys2Proof.core, h]

/-- A command that may wait for `w` more accesses is gone after at most that many and the step that completes it: an access served
meanwhile abandons the command or leaves it one fewer to wait for. -/
theorem run_reaches_idle (w : Nat) (s : State) (f : InFlight) (hf : s.inflight = some f) (hw : f.wait = w) :
    ∃ k t, k ≤ w + 1 ∧ Host.Core.run Sys2Proof.core k s = .next t ∧ t.inflight = none := by
  induction w generalizing s f with
  | zero =>
    obtain ⟨t, hstep, ht⟩ := step_due_idle s f hf (.inl hw)
    exact ⟨1, t, le_rfl, run_succ_of_step hstep 0, ht⟩
  | succ w ih =>
    cases hin : s.inputs with
    | nil =>
      obtain ⟨t, hstep, ht⟩ := step_due_idle s f hf (.inr hin)
      exact ⟨1, t, by omega, run_succ_of_step hstep 0, ht⟩
    | cons i rest =>
      have hstep : step s = .next (serveInput i s) := step_serves s i rest (serves_of_busy s f i rest hf (by omega) hin)
      rcases serveInput_inflight_of_busy i s f hf with hbusy | hidle
      · obtain ⟨k, t, hk, hrun, ht⟩ := ih (serveInput i s) _ hbusy (by simp only [hw, Nat.add_sub_cancel])
        exact ⟨k + 1, t, by omega, (run_succ_of_step hstep k).trans hrun, ht⟩
      · exact ⟨1, _, by omega, run_succ_of_step hstep 0, hidle⟩

/-- Settles O9, by induction on the accesses the command may still wait for. -/
theorem everyCommandLeavesTheBlockIdle : Obligations.EveryCommandLeavesTheBlockIdle :=
  fun s f hf => run_reaches_idle f.wait s f hf rfl

end Sys2Proof.Machine
end
